-- ==== Sys2Proof/Word.lean ====
section
/-!
DEFINITION. The word type of the engine and the type of one bit.
`00_scope.md` R10: bit 0 is the least significant bit, every quantity is unsigned.
-/

namespace Sys2Proof

/-- A 32-bit word: a command word, a host register, the last driven address, the pattern. -/
abbrev Word := BitVec 32

/-- A 9-bit row, column or level of the address lines (`10_state.md` R23, `30_encoding.md` R107). -/
abbrev Line := BitVec 9

/-- One bit: a pin level, a cell, a data bit. `true` is 1, `false` is 0. -/
abbrev Bit := Bool

end Sys2Proof
end

