-- ==== Sys2Proof/Syntax.lean ====
section
/-!
DEFINITION. The operations of the engine, one constructor per row of the opcode table
(`30_encoding.md` R108), and the names of the eight durations `DELAY` selects.
-/

namespace Sys2Proof

/-- The eight configured durations of `30_encoding.md` R116, in the order of their codes 0 to 7. -/
inductive Selector where
  | ras
  | cas
  | rcd
  | rp
  | cp
  | rest
  | addrSettle
  | xcvrSettle
  deriving DecidableEq, Repr, Inhabited

/-- An operation with its operands (`30_encoding.md` R105 to R108).
`runTest` carries the 4-bit line count of format `T` (R106); only 8 and 9 are well formed. -/
inductive Instr where
  | delay (sel : Selector)
  | addrSet (addr24 : BitVec 24)
  | openRow (row : Line)
  | strobeCol (col : Line)
  | closeRow
  | pageWrite (col : Line) (b : Bit)
  | pageRead (col : Line)
  | writeBitEarly (row : Line) (col : Line) (b : Bit)
  | readBit (row : Line) (col : Line)
  | init
  | isPresent
  | chipKind
  | runTest (lines : BitVec 4)
  deriving DecidableEq, Repr

end Sys2Proof
end

