-- ==== Sys2Proof/WellFormed.lean ====
section
/-!
DEFINITION. Which operations are well formed. Every field of every operation but one admits all
the values of its type (`20_memory.md` R76); the line count of `RUN_TEST` is 8 or 9
(`30_encoding.md` R106, `44_moving_inversions.md` R220).
-/

namespace Sys2Proof

/-- The line counts `RUN_TEST` admits. -/
def legalLines (lines : BitVec 4) : Bool := lines == 8#4 || lines == 9#4

/-- The operand check of an operation. -/
def Instr.wellFormed : Instr → Bool
  | .delay _ => true
  | .addrSet _ => true
  | .openRow _ => true
  | .strobeCol _ => true
  | .closeRow => true
  | .pageWrite _ _ => true
  | .pageRead _ => true
  | .writeBitEarly _ _ _ => true
  | .readBit _ _ => true
  | .init => true
  | .isPresent => true
  | .chipKind => true
  | .runTest lines => legalLines lines

end Sys2Proof
end

