-- ==== Sys2Proof/Decode.lean ====
section
/-!
DEFINITION. The command word: the opcode table, the decoder with its three verdicts
(`30_encoding.md` R100 to R111) and the encoder, both written from the same formats.
-/

namespace Sys2Proof

/-- The thirteen operations without their operands: the rows of the table of R108. -/
inductive Opcode where
  | delay
  | addrSet
  | openRow
  | strobeCol
  | closeRow
  | pageWrite
  | pageRead
  | writeBitEarly
  | readBit
  | init
  | isPresent
  | chipKind
  | runTest
  deriving DecidableEq, Repr

/-- The column `OPC` of R108. -/
def Opcode.code : Opcode → BitVec 8
  | .delay => 0x01#8
  | .addrSet => 0x02#8
  | .openRow => 0x10#8
  | .strobeCol => 0x11#8
  | .closeRow => 0x12#8
  | .pageWrite => 0x13#8
  | .pageRead => 0x14#8
  | .writeBitEarly => 0x18#8
  | .readBit => 0x19#8
  | .init => 0x20#8
  | .isPresent => 0x21#8
  | .chipKind => 0x22#8
  | .runTest => 0x30#8

/-- The column "mask" of R108. -/
def Opcode.mask : Opcode → Word
  | .delay => 0xFFFFFFF8#32
  | .addrSet => 0xFF000000#32
  | .openRow => 0xFFFC01FF#32
  | .strobeCol => 0xFFFFFE00#32
  | .closeRow => 0xFFFFFFFF#32
  | .pageWrite => 0xFFFBFE00#32
  | .pageRead => 0xFFFFFE00#32
  | .writeBitEarly => 0xFFF80000#32
  | .readBit => 0xFFFC0000#32
  | .init => 0xFFFFFFFF#32
  | .isPresent => 0xFFFFFFFF#32
  | .chipKind => 0xFFFFFFFF#32
  | .runTest => 0xFFFFFFFE#32

/-- The column "match" of R108. -/
def Opcode.pattern : Opcode → Word
  | .delay => 0x01000000#32
  | .addrSet => 0x02000000#32
  | .openRow => 0x10000000#32
  | .strobeCol => 0x11000000#32
  | .closeRow => 0x12000000#32
  | .pageWrite => 0x13000000#32
  | .pageRead => 0x14000000#32
  | .writeBitEarly => 0x18000000#32
  | .readBit => 0x19000000#32
  | .init => 0x20000000#32
  | .isPresent => 0x21000000#32
  | .chipKind => 0x22000000#32
  | .runTest => 0x30000008#32

/-- The rows of the table, in its order. -/
def Opcode.all : List Opcode :=
  [.delay, .addrSet, .openRow, .strobeCol, .closeRow, .pageWrite, .pageRead, .writeBitEarly,
   .readBit, .init, .isPresent, .chipKind, .runTest]

/-- The row an opcode byte names, if any (R109 step 1, R110). -/
def Opcode.ofCode (c : BitVec 8) : Option Opcode :=
  Opcode.all.find? fun o => o.code == c

/-- The row an operation belongs to. -/
def Instr.opcode : Instr → Opcode
  | .delay _ => .delay
  | .addrSet _ => .addrSet
  | .openRow _ => .openRow
  | .strobeCol _ => .strobeCol
  | .closeRow => .closeRow
  | .pageWrite _ _ => .pageWrite
  | .pageRead _ => .pageRead
  | .writeBitEarly _ _ _ => .writeBitEarly
  | .readBit _ _ => .readBit
  | .init => .init
  | .isPresent => .isPresent
  | .chipKind => .chipKind
  | .runTest _ => .runTest

/-- `OPC`, bits 31:24 of a command word (R100). -/
def fieldOpc (w : Word) : BitVec 8 := w.extractLsb' 24 8

/-- `sel`, bits 2:0 of format `S` (R103). -/
def fieldSel (w : Word) : BitVec 3 := w.extractLsb' 0 3

/-- `addr24`, bits 23:0 of format `W` (R104). -/
def fieldAddr24 (w : Word) : BitVec 24 := w.extractLsb' 0 24

/-- `col`, bits 8:0 of format `C` (R105). -/
def fieldCol (w : Word) : Line := w.extractLsb' 0 9

/-- `row`, bits 17:9 of format `C` (R105). -/
def fieldRow (w : Word) : Line := w.extractLsb' 9 9

/-- `b`, bit 18 of format `C` (R105). -/
def fieldB (w : Word) : Bit := w.getLsbD 18

/-- The line count, bits 3:0 of format `T` read as a number (R106). -/
def fieldLines (w : Word) : BitVec 4 := w.extractLsb' 0 4

/-- The selector codes of R116. -/
def Selector.code : Selector → BitVec 3
  | .ras => 0#3
  | .cas => 1#3
  | .rcd => 2#3
  | .rp => 3#3
  | .cp => 4#3
  | .rest => 5#3
  | .addrSettle => 6#3
  | .xcvrSettle => 7#3

/-- The selector a code names; all eight are legal (R116). -/
def Selector.ofCode (c : BitVec 3) : Selector :=
  match c.toNat with
  | 0 => .ras
  | 1 => .cas
  | 2 => .rcd
  | 3 => .rp
  | 4 => .cp
  | 5 => .rest
  | 6 => .addrSettle
  | _ => .xcvrSettle

/-- The operation a word of a given row stands for: the fields the row uses (R105, R107, R108). -/
def Opcode.instrOf (w : Word) : Opcode → Instr
  | .delay => .delay (Selector.ofCode (fieldSel w))
  | .addrSet => .addrSet (fieldAddr24 w)
  | .openRow => .openRow (fieldRow w)
  | .strobeCol => .strobeCol (fieldCol w)
  | .closeRow => .closeRow
  | .pageWrite => .pageWrite (fieldCol w) (fieldB w)
  | .pageRead => .pageRead (fieldCol w)
  | .writeBitEarly => .writeBitEarly (fieldRow w) (fieldCol w) (fieldB w)
  | .readBit => .readBit (fieldRow w) (fieldCol w)
  | .init => .init
  | .isPresent => .isPresent
  | .chipKind => .chipKind
  | .runTest => .runTest (fieldLines w)

/-- The three verdicts of the decoder (R109). -/
inductive Verdict where
  | instr (i : Instr)
  | illegalOpcode
  | badOperand
  deriving DecidableEq, Repr

/-- R109: the opcode first (R110), then the reserved operand bits (R111), then the fields. -/
def decode (w : Word) : Verdict :=
  match Opcode.ofCode (fieldOpc w) with
  | none => .illegalOpcode
  | some o => if w &&& o.mask = o.pattern then .instr (o.instrOf w) else .badOperand

/-- A word of format `C` (R105): `{OPC, 00000, b, row, col}`. -/
def formatC (o : Opcode) (b : Bit) (row col : Line) : Word :=
  o.code ++ 0#5 ++ BitVec.ofBool b ++ row ++ col

/-- A word of format `N` (R102): `{OPC, 0}`. -/
def formatN (o : Opcode) : Word := o.code ++ 0#24

/-- The encoder: the word of an operation, by the formats R102 to R106. -/
def encode : Instr → Word
  | .delay sel => Opcode.delay.code ++ 0#21 ++ sel.code
  | .addrSet addr24 => Opcode.addrSet.code ++ addr24
  | .openRow row => formatC .openRow false row 0#9
  | .strobeCol col => formatC .strobeCol false 0#9 col
  | .closeRow => formatN .closeRow
  | .pageWrite col b => formatC .pageWrite b 0#9 col
  | .pageRead col => formatC .pageRead false 0#9 col
  | .writeBitEarly row col b => formatC .writeBitEarly b row col
  | .readBit row col => formatC .readBit false row col
  | .init => formatN .init
  | .isPresent => formatN .isPresent
  | .chipKind => formatN .chipKind
  | .runTest lines => Opcode.runTest.code ++ 0#20 ++ lines

/-- The operation the decoder reads, if it accepts the word. -/
def Verdict.instr? : Verdict → Option Instr
  | .instr i => some i
  | .illegalOpcode => none
  | .badOperand => none

/-- The command word of a row of the opcode table: the table's bit 0 is bit 0 of the one 32-bit
command word (R100), and bits at or above `nbits` are 0 (log 22). -/
def tableWord (nbits w : Nat) : Word := BitVec.ofNat 32 (w % 2 ^ nbits)

/-- What the decoder reads from a row's word. -/
def decodeTableWord (nbits w : Nat) : Option Instr :=
  (decode (tableWord nbits w)).instr?

end Sys2Proof
end

