-- ==== Sys2Proof/Config.lean ====
section
/-!
DEFINITION. What is fixed for one machine and one environment: the implementation parameters P1 to
P9 and E1 to E4 of `00_scope.md` R6, the levels the spec leaves unspecified at power-up, and the
supply of free values. All of them are opaque: no proof can see what they are.
-/

namespace Sys2Proof.Config

/-- The five datasheet constants P2 to P6, in nanoseconds (`40_delay_and_timing_profile.md` R138). -/
structure Datasheet where
  tRas : Nat
  tCas : Nat
  tRcd : Nat
  tRp : Nat
  tCp : Nat
  deriving DecidableEq, Repr, Inhabited

/-- The parameters P1 to P9 of `00_scope.md` R6: the clock in Hz (P1, a positive natural), the
datasheet constants, the two settle delays in nanoseconds and the initial pattern. `ADDR_PINS`
(P10) is 9, the width of `Line`. -/
structure Params where
  clockHz : ℕ+
  ds : Datasheet
  addrSettleNs : Nat := 0
  xcvrSettleNs : Nat
  patternInit : Word
  deriving DecidableEq, Repr, Inhabited

/-- `DEV_LINES`, the number of address lines of the chip (`20_memory.md` R63). -/
inductive DevLines where
  | eight
  | nine
  deriving DecidableEq, Repr, Inhabited

/-- The environment parameters E1 to E3 of `00_scope.md` R6, and the least pulse widths and gaps the
chip fitted needs (`70_reset_and_hazards.md` R305; log 9). A stuck cell is named by its key. -/
structure DeviceParams where
  present : Bool
  lines : DevLines
  stuck : List (Nat × Bit)
  least : Datasheet
  deriving DecidableEq, Repr, Inhabited

/-- The state that `10_state.md` R47 leaves unspecified after reset (93 U1, U2). -/
structure PowerUp where
  rasN : Bit
  casN : Bit
  weN : Bit
  din : Bit
  nlines : BitVec 4
  sweep : BitVec 3
  row : Line
  col : Line
  pat : Word
  deriving DecidableEq, Repr, Inhabited

/-- The machine's parameters, fixed at build and never changed (R7, R8; log 13). -/
opaque machine : Params

/-- The environment's parameters (R6 E1 to E3; log 8, log 9). -/
opaque fitted : DeviceParams

/-- `DEV_CELLS0`: the content of each cell at power-up, by key (`20_memory.md` R85; log 7). -/
opaque cells0 : Nat → Bit

/-- What the spec leaves unspecified at reset (log 6). -/
opaque powerUp : PowerUp

/-- The supply of free values: draws, levels of failed events, reads while busy (log 5). -/
opaque freeWord : Nat → Word

end Sys2Proof.Config
end

