-- ==== Sys2Proof/Machine/Profile.lean ====
section
/-!
DEFINITION. From nanoseconds to clock cycles: the cycle computation of the delay engine and the
timing profile (`40_delay_and_timing_profile.md` R130 to R143). All of it is configuration
(`10_state.md` R35), a function of the parameters alone.
-/

namespace Sys2Proof.Machine

open Sys2Proof.Config (Params Datasheet)

/-- `ceil_div(a, b)` (`00_scope.md` R11). -/
def ceilDiv (a b : Nat) : Nat := (a + b - 1) / b

/-- `sat_sub(a, b)` (`00_scope.md` R11). -/
def satSub (a b : Nat) : Nat := if b ≤ a then a - b else 0

/-- `NS_PER_CYCLE` (R130). -/
def nsPerCycle (K : Params) : Nat := ceilDiv 1000000000 K.clockHz

/-- `totalCycles` of R131. -/
def totalCycles (p ns : Nat) : Nat := ns / p

/-- `extra` of R131: one more cycle where the division leaves a remainder. -/
def extraCycle (p ns : Nat) : Nat := if ns % p > 0 then 1 else 0

/-- `cycles(ns)` for a cycle of `p` nanoseconds, as R131 computes it: `loops` turns of the 3-cycle
loop, `remainder` single cycles, and `extra`. -/
def cyclesAt (p ns : Nat) : Nat :=
  3 * (totalCycles p ns / 3) + totalCycles p ns % 3 + extraCycle p ns

/-- `cycles(ns)` of R131. -/
def cycles (K : Params) (ns : Nat) : Nat := cyclesAt (nsPerCycle K) ns

/-- `OVERHEAD_NS` (R137). -/
def overheadNs (K : Params) : Nat := nsPerCycle K

/-- `rowStrobePulse`, `T_RAS` (R138). -/
def rowStrobePulse (K : Params) : Nat := satSub K.ds.tRas (overheadNs K)

/-- `colStrobePulse`, `T_CAS` (R138). -/
def colStrobePulse (K : Params) : Nat := satSub K.ds.tCas (overheadNs K)

/-- `strobeToStrobeDelay`, `T_RCD` (R138). -/
def strobeToStrobeDelay (K : Params) : Nat := satSub K.ds.tRcd (overheadNs K)

/-- `rowPrecharge`, `T_RP` (R138). -/
def rowPrecharge (K : Params) : Nat := satSub K.ds.tRp (overheadNs K)

/-- `colPrecharge`, `T_CP` (R138). -/
def colPrecharge (K : Params) : Nat := satSub K.ds.tCp (overheadNs K)

/-- `rowStrobeRest` (R139). -/
def rowStrobeRest (K : Params) : Nat :=
  satSub (satSub (rowStrobePulse K) (colStrobePulse K)) (strobeToStrobeDelay K)

/-- `C_RAS` (R142). -/
def cRas (K : Params) : Nat := cycles K (rowStrobePulse K)

/-- `C_CAS` (R142). -/
def cCas (K : Params) : Nat := cycles K (colStrobePulse K)

/-- `C_RCD` (R142). -/
def cRcd (K : Params) : Nat := cycles K (strobeToStrobeDelay K)

/-- `C_RP` (R142). -/
def cRp (K : Params) : Nat := cycles K (rowPrecharge K)

/-- `C_CP` (R142). -/
def cCp (K : Params) : Nat := cycles K (colPrecharge K)

/-- `C_REST` (R142). -/
def cRest (K : Params) : Nat := cycles K (rowStrobeRest K)

/-- `C_AS` (R142, R143). -/
def cAs (K : Params) : Nat := cycles K K.addrSettleNs

/-- `C_XS` (R142, R143). -/
def cXs (K : Params) : Nat := cycles K K.xcvrSettleNs

/-- Whether the datasheet constants cover the least widths a chip needs: `ProfileFitsDevice`
(`70_reset_and_hazards.md` R305). -/
def profileFits (K : Params) (least : Datasheet) : Bool :=
  decide (least.tRas ≤ K.ds.tRas) && decide (least.tCas ≤ K.ds.tCas) &&
    decide (least.tRcd ≤ K.ds.tRcd) && decide (least.tRp ≤ K.ds.tRp) &&
    decide (least.tCp ≤ K.ds.tCp)

/-- Whether the clock divides the second into whole nanoseconds: `ClockDivides`
(`70_reset_and_hazards.md` R304). -/
def clockDivides (K : Params) : Bool := decide ((K.clockHz : Nat) ∣ 1000000000)

/-- The premise `TimingMet` of `20_memory.md` R71, in its two halves (`70_reset_and_hazards.md` R304,
R305). -/
def meetsTiming (K : Params) (least : Datasheet) : Bool := profileFits K least && clockDivides K

end Sys2Proof.Machine
end

