-- ==== Sys2Proof/Machine/State.lean ====
section
/-!
DEFINITION. The state of the machine: the engine's pins, working registers and host-visible
registers (`10_state.md` R20), the reference device (`20_memory.md` R64), what the outside world
is about to do, and the events emitted so far. Then the reasons a step can stop, and reset.
-/

namespace Sys2Proof.Machine

open Sys2Proof.Config (DevLines Datasheet)

/-- `seq`, the protocol state (`10_state.md` R28). -/
inductive SeqState where
  | idle
  | rowOpen
  | columnStrobe
  | rowClose
  deriving DecidableEq, Repr, Inhabited

/-- The output pins (`10_state.md` R21 to R23). The strobes and the write enable are active low. -/
structure Pins where
  rasN : Bit
  casN : Bit
  weN : Bit
  din : Bit
  a : Line
  deriving DecidableEq, Repr

/-- The four single outputs a `Pin` event can drive (`00_scope.md` R13). -/
inductive Signal where
  | rasN
  | casN
  | weN
  | din
  deriving DecidableEq, Repr

/-- The working registers `x[NAME]` (`10_state.md` R20, R26, R30, R31). Outside a running `RUN_TEST` the
spec leaves `nlines`, `sweep`, `row`, `col` and `pat` at any value; the model keeps them (log 25). -/
structure Regs where
  lda : Word
  dcnt : Nat
  nlines : BitVec 4
  sweep : BitVec 3
  row : Line
  col : Line
  pat : Word
  failCnt : Word
  lfRow : Line
  lfCol : Line
  deriving DecidableEq, Repr

/-- The command errors (`60_exceptions.md` R261). -/
inductive CmdErr where
  | illegalOpcode
  | badOperand
  | seqViolation
  | notInitialised
  | faultLocked
  deriving DecidableEq, Repr

/-- The hardware faults `STATUS.FAULT_CODE` can name (`60_exceptions.md` R268). -/
inductive FaultCode where
  | ioFault
  deriving DecidableEq, Repr

/-- The fields of `STATUS` but `SEQ`, which is `seq` (`10_state.md` R38). No code is `none`. -/
structure Status where
  busy : Bit
  done : Bit
  cmdErr : Bit
  fault : Bit
  faultSeen : Bit
  inited : Bit
  errCode : Option CmdErr
  faultCode : Option FaultCode
  overrun : Bit
  deriving DecidableEq, Repr

/-- `ChipKind` (`10_state.md` R33). -/
inductive ChipKind where
  | unknown
  | dram4164
  | dram41256
  deriving DecidableEq, Repr

/-- `RESULT.OUTCOME` (`10_state.md` R34). -/
inductive TestOutcome where
  | absent
  | pass
  | fail
  deriving DecidableEq, Repr

/-- The fields of `RESULT` (`10_state.md` R39). -/
structure Result where
  value : Bit := false
  kind : ChipKind := .unknown
  outcome : TestOutcome := .absent
  lastSweep : BitVec 3 := 0#3
  deriving DecidableEq, Repr

/-- The written cells of the device: pairs of a key and a bit, keys strictly rising. A cell that is
not listed has not been written since reset (log 7). -/
abbrev Cells := List (Nat × Bit)

/-- The reference device (`20_memory.md` R64) with its parameters E1 to E3 (R63, R69, R70) and the
least widths it needs. `timingMet` is the premise of R71, set at reset from those widths and the
machine's parameters (log 9); `upset` says that a failed pin operation has given the
device an edge outside the protocol (log 10). -/
structure Device where
  present : Bool
  lines : DevLines
  stuck : List (Nat × Bit)
  least : Datasheet
  timingMet : Bool
  upset : Bool
  cells : Cells
  rowLatch : Option Line
  drive : Option Bit
  deriving DecidableEq, Repr

/-- An event (`00_scope.md` R13). -/
inductive Event where
  | pin (s : Signal) (v : Bit)
  | addrToggle (m : Word)
  | wait (c : Nat)
  | sample (b : Bit)
  deriving DecidableEq, Repr

/-- The seven registers of the host's window (`10_state.md` R36). -/
inductive HostReg where
  | cmd
  | status
  | result
  | failCnt
  | failLoc
  | lda
  | pins
  deriving DecidableEq, Repr

/-- An access of the host to its window: whole 32-bit words only (`10_state.md` R44). -/
inductive HostAccess where
  | write (r : HostReg) (w : Word)
  | read (r : HostReg)
  deriving DecidableEq, Repr

/-- The events to which the reference device gives no meaning (`20_memory.md` R72). -/
inductive StrayEdge where
  | rasFallWithCasLow
  | casFallWithNoRow
  | weFallWithCasLow
  deriving DecidableEq, Repr

/-- The reasons the machine stops with a fault. There are none: a command error and a
hardware-signal fault both leave a next state (`60_exceptions.md` R271, R272). -/
inductive Fault where
  deriving DecidableEq, Repr

/-- The reasons a step has no meaning. -/
inductive Refusal where
  /-- Raised by `exec` for an operation that has no meaning yet. Safe. -/
  | notModelled (mnemonic : String)
  /-- Raised by a `Pin` event on a present device, when the event is one of the three to which the
  reference device gives no meaning (`20_memory.md` R72). Safe: the spec says to refuse. -/
  | outsideProtocol (e : StrayEdge)
  deriving DecidableEq, Repr

/-- The whole machine. `pin`, `x`, `seq`, `status`, `result` are the engine (`10_state.md` R20),
`dev` is the device (`20_memory.md` R64). The rest is the model's own: `trace` holds the events
emitted so far, newest first (log 1); `host` the host's accesses to come (log 2); `overlap` those it
makes while the next accepted operation runs (log 3); `readData` the word the latest read returned
(log 3); `ioFails` the environment's failures of pin operations, each entry counting the operations
that succeed before the failing one (log 4); `freeNo` how many free values were taken (log 5). -/
structure State where
  pin : Pins
  x : Regs
  seq : SeqState
  status : Status
  result : Result
  dev : Device
  trace : List Event
  host : List HostAccess
  overlap : List HostAccess
  readData : Word
  ioFails : List Nat
  freeNo : Nat
  deriving DecidableEq, Repr

/-- The device after power-up (`20_memory.md` R64, R85): nothing latched, not driving, no cell
written. -/
def Device.powerUp (p : Config.DeviceParams) : Device where
  present := p.present
  lines := p.lines
  stuck := p.stuck
  least := p.least
  timingMet := meetsTiming Config.machine p.least
  upset := false
  cells := []
  rowLatch := none
  drive := none

/-- The state after reset (`10_state.md` R47), for given environment parameters. What the spec leaves
unspecified is taken from `Config.powerUp` (log 6). -/
def State.resetWith (p : Config.DeviceParams) : State where
  pin :=
    { rasN := Config.powerUp.rasN
      casN := Config.powerUp.casN
      weN := Config.powerUp.weN
      din := Config.powerUp.din
      a := 0#9 }
  x :=
    { lda := 0#32
      dcnt := 0
      nlines := Config.powerUp.nlines
      sweep := Config.powerUp.sweep
      row := Config.powerUp.row
      col := Config.powerUp.col
      pat := Config.powerUp.pat
      failCnt := 0#32
      lfRow := 0#9
      lfCol := 0#9 }
  seq := .idle
  status :=
    { busy := false
      done := false
      cmdErr := false
      fault := false
      faultSeen := false
      inited := false
      errCode := none
      faultCode := none
      overrun := false }
  result := {}
  dev := Device.powerUp p
  trace := []
  host := []
  overlap := []
  readData := 0#32
  ioFails := []
  freeNo := 0

/-- The state after reset in the environment fitted (`10_state.md` R47, `70_reset_and_hazards.md`
R290, R291). -/
def State.reset : State := State.resetWith Config.fitted

end Sys2Proof.Machine
end

