-- ==== Sys2Proof/Machine/Operands.lean ====
section
/-!
DEFINITION. Operand forms: what an operand of an operation stands for (`30_encoding.md` R104 to
R107, R116), and how a row and a column name a cell (`20_memory.md` R61, R63).
-/

namespace Sys2Proof.Machine

open Sys2Proof.Config (Params DevLines)

/-- `zext_32` of a row or a column (`30_encoding.md` R107). -/
def lineAddress (v : Line) : Word := v.setWidth 32

/-- `zext_32(addr24)` (`30_encoding.md` R104). -/
def wideAddress (addr24 : BitVec 24) : Word := addr24.setWidth 32

/-- The bits of a 32-bit address or mask that have a pin: `v[8:0]` (`41_address_bus.md` R163). -/
def wired (v : Word) : Line := v.setWidth 9

/-- The cycle count a selector of `DELAY` names (`30_encoding.md` R116). -/
def selected (K : Params) : Selector → Nat
  | .ras => cRas K
  | .cas => cCas K
  | .rcd => cRcd K
  | .rp => cRp K
  | .cp => cCp K
  | .rest => cRest K
  | .addrSettle => cAs K
  | .xcvrSettle => cXs K

/-- `N = 2^addressLineCount` (`44_moving_inversions.md` R220). -/
def sideOf (lines : BitVec 4) : Nat := 2 ^ lines.toNat

/-- The line count of a chip (`20_memory.md` R63). -/
def lineCount : DevLines → Nat
  | .eight => 8
  | .nine => 9

/-- What a chip sees of nine address lines: it ignores the lines above its own (`20_memory.md` R63). -/
def seenLines : DevLines → Line → Line
  | .eight, v => v &&& 0x0FF#9
  | .nine, v => v

/-- The key of the cell in row `r`, column `c` (log 20). -/
def cellKey (r c : Line) : Nat := r.toNat * 512 + c.toNat

/-- The key of the cell a chip reaches when the engine presents row `r` and column `c`. -/
def reachedKey (l : DevLines) (r c : Line) : Nat := cellKey (seenLines l r) (seenLines l c)

/-- `rotl32(v, 1)` (`00_scope.md` R11). -/
def rotl32 (v : Word) : Word := v.extractLsb' 0 31 ++ v.extractLsb' 31 1

end Sys2Proof.Machine
end

