-- ==== Sys2Proof/Machine/Device.lean ====
section
/-!
DEFINITION. The reference device: its cells, its reaction to each pin event and the level it puts
on `DOUT` (`20_memory.md` R64 to R72). The supply of free values stands here because the device is
the first to need it (R68, R71).
-/

namespace Sys2Proof.Machine

/-- The next free value (log 5). -/
def State.freeWord (s : State) : Word := Config.freeWord s.freeNo

/-- One bit of the next free value: a draw (`20_memory.md` R68). -/
def State.freeBit (s : State) : Bit := s.freeWord.getLsbD 0

/-- The state after a free value was taken. -/
def State.tookFree (s : State) : State := { s with freeNo := s.freeNo + 1 }

/-- The bit last written to a cell, if any. -/
def Cells.lookup : Cells → Nat → Option Bit
  | [], _ => none
  | (k, v) :: rest, a => if k = a then some v else Cells.lookup rest a

/-- Writing a bit to a cell, keeping the keys strictly rising. -/
def Cells.store : Cells → Nat → Bit → Cells
  | [], a, b => [(a, b)]
  | (k, v) :: rest, a, b =>
    if a < k then (a, b) :: (k, v) :: rest
    else if a = k then (a, b) :: rest
    else (k, v) :: Cells.store rest a b

/-- The canonical form: keys strictly rising (log 7). -/
def Cells.wf : Cells → Bool
  | [] => true
  | (_, _) :: [] => true
  | (k, _) :: (k', v') :: rest => decide (k < k') && Cells.wf ((k', v') :: rest)

/-- What an unlisted cell reads as: its content at power-up (`20_memory.md` R85). -/
def unlistedCell (key : Nat) : Bit := Config.cells0 key

/-- `cell(r, c)` of `20_memory.md` R64, by key. -/
def Device.cell (d : Device) (key : Nat) : Bit :=
  (Cells.lookup d.cells key).getD (unlistedCell key)

/-- `MemRead` of `20_memory.md` R66: the stuck value of a stuck cell (R70), else the cell. -/
def Device.readCell (d : Device) (key : Nat) : Bit :=
  (Cells.lookup d.stuck key).getD (d.cell key)

/-- Whether cell accesses have their specified result: the timing premise of `20_memory.md` R71
holds and no edge outside the protocol has reached the device (log 9, log 10). -/
def Device.reliable (d : Device) : Bool := d.timingMet && !d.upset

/-- The bit a read cycle yields: `MemRead`, or the free bit where the device is not reliable
(`20_memory.md` R66, R71). -/
def Device.memReadBit (d : Device) (free : Bit) (key : Nat) : Bit :=
  if d.reliable then d.readCell key else free

/-- The bit a write cycle stores: the data, or the free bit where the device is not reliable
(`20_memory.md` R66, R71). -/
def Device.memWriteBit (d : Device) (free b : Bit) : Bit :=
  if d.reliable then b else free

/-- A falling row strobe latches the row on the address lines (`20_memory.md` R65). -/
def Device.rasFall (d : Device) (a : Line) : Device :=
  { d with rowLatch := some (seenLines d.lines a) }

/-- A rising row strobe releases the row and the output (`20_memory.md` R65). -/
def Device.rasRise (d : Device) : Device := { d with rowLatch := none, drive := none }

/-- A column strobe falling in row `r`, column `c`: an early write where the write enable is low,
else a read cycle (`20_memory.md` R66). -/
def Device.access (d : Device) (p : Pins) (free : Bit) (r c : Line) : Device :=
  if p.weN then
    { d with drive := some (d.memReadBit free (cellKey r c)) }
  else
    { d with
      cells := Cells.store d.cells (cellKey r c) (d.memWriteBit free p.din)
      drive := none }

/-- A falling column strobe takes the column on the address lines (`20_memory.md` R66). -/
def Device.casFall (d : Device) (p : Pins) (free : Bit) : Device :=
  match d.rowLatch with
  | some r => d.access p free r (seenLines d.lines p.a)
  | none => d

/-- A rising column strobe releases the output (`20_memory.md` R66). -/
def Device.casRise (d : Device) : Device := { d with drive := none }

/-- The reaction of the device to `Pin(sig, v)`, on the pins `p` as they stand before the event and
with a free bit at hand (`20_memory.md` R65 to R67); an absent device has none (R69). -/
def Device.react (d : Device) (p : Pins) (free : Bit) (sig : Signal) (v : Bit) : Device :=
  if d.present then
    match sig, v with
    | .rasN, true => d.rasRise
    | .rasN, false => if p.rasN then d.rasFall p.a else d
    | .casN, true => d.casRise
    | .casN, false => if p.casN then d.casFall p free else d
    | .weN, _ => d
    | .din, _ => d
  else d

/-- How many free values that reaction takes: one where the column strobe falls on a present device
that is not reliable, else none. -/
def Device.reactDraws (d : Device) (p : Pins) (sig : Signal) (v : Bit) : Nat :=
  if d.present && !d.reliable && sig == .casN && !v && p.casN then 1 else 0

/-- Whether `Pin(sig, v)` is an event outside the protocol: a falling edge that a present device
gives no meaning (`20_memory.md` R72; log 12, log 23). -/
def Device.stray (d : Device) (p : Pins) (sig : Signal) (v : Bit) : Option StrayEdge :=
  match sig, v with
  | .rasN, false =>
    if p.rasN && !p.casN && d.present then some .rasFallWithCasLow else none
  | .casN, false =>
    if p.casN && d.present && d.rowLatch.isNone then some .casFallWithNoRow else none
  | .weN, false =>
    if p.weN && !p.casN && d.present then some .weFallWithCasLow else none
  | _, _ => none

/-- The level the device puts on `DOUT`, if it drives it (`20_memory.md` R64, R68, R69). -/
def Device.driven (d : Device) : Option Bit := if d.present then d.drive else none

/-- The present level of `DOUT`: the driven bit, else a draw (`20_memory.md` R68). -/
def State.doutLevel (s : State) : Bit := s.dev.driven.getD s.freeBit

/-- How many free values the level of `DOUT` takes: one where nothing drives it. -/
def Device.doutDraws (d : Device) : Nat := if d.driven.isSome then 0 else 1

/-- The state after the level of `DOUT` was looked at. -/
def State.tookDout (s : State) : State := { s with freeNo := s.freeNo + s.dev.doutDraws }

end Sys2Proof.Machine
end

