-- ==== Sys2Proof/Machine/Flags.lean ====
section
/-!
DEFINITION. The host-visible registers as words (`10_state.md` R37 to R43), and which operation is
legal in which protocol state (`42_protocol_sequencer.md` R171).
-/

namespace Sys2Proof.Machine

/-- The code of `seq` in `STATUS.SEQ` (`10_state.md` R28). -/
def SeqState.code : SeqState → BitVec 2
  | .idle => 0#2
  | .rowOpen => 1#2
  | .columnStrobe => 2#2
  | .rowClose => 3#2

/-- The protocol state a code names; used for the unspecified `seq` after a fault
(`60_exceptions.md` R272). -/
def SeqState.ofCode (c : BitVec 2) : SeqState :=
  match c.toNat with
  | 0 => .idle
  | 1 => .rowOpen
  | 2 => .columnStrobe
  | _ => .rowClose

/-- `STATUS.ERR_CODE` (`60_exceptions.md` R261). -/
def CmdErr.code : CmdErr → BitVec 4
  | .illegalOpcode => 1#4
  | .badOperand => 2#4
  | .seqViolation => 3#4
  | .notInitialised => 4#4
  | .faultLocked => 5#4

/-- `STATUS.FAULT_CODE` (`60_exceptions.md` R268). -/
def FaultCode.code : FaultCode → BitVec 4
  | .ioFault => 1#4

/-- `RESULT.KIND` (`10_state.md` R33). -/
def ChipKind.code : ChipKind → BitVec 2
  | .unknown => 0#2
  | .dram4164 => 1#2
  | .dram41256 => 2#2

/-- `RESULT.OUTCOME` (`10_state.md` R34). -/
def TestOutcome.code : TestOutcome → BitVec 2
  | .absent => 0#2
  | .pass => 1#2
  | .fail => 2#2

/-- The `STATUS` word for given bits of `SEQ` (`10_state.md` R38). -/
def Status.word (t : Status) (seqBits : BitVec 2) : Word :=
  0#15 ++ BitVec.ofBool t.overrun
    ++ (t.faultCode.elim 0#4 FaultCode.code) ++ (t.errCode.elim 0#4 CmdErr.code)
    ++ seqBits
    ++ BitVec.ofBool t.inited ++ BitVec.ofBool t.faultSeen ++ BitVec.ofBool t.fault
    ++ BitVec.ofBool t.cmdErr ++ BitVec.ofBool t.done ++ BitVec.ofBool t.busy

/-- The `RESULT` word (`10_state.md` R39). -/
def Result.word (r : Result) : Word :=
  0#21 ++ r.lastSweep ++ 0#2 ++ r.outcome.code ++ 0#1 ++ r.kind.code ++ BitVec.ofBool r.value

/-- The `FAILLOC` word (`10_state.md` R41). -/
def Regs.failLocWord (x : Regs) : Word := 0#7 ++ x.lfRow ++ 0#7 ++ x.lfCol

/-- The `PINS` word for a given level of `DOUT` (`10_state.md` R43). -/
def Pins.word (p : Pins) (dout : Bit) : Word :=
  0#7 ++ p.a ++ 0#11 ++ BitVec.ofBool dout ++ BitVec.ofBool p.din ++ BitVec.ofBool p.weN
    ++ BitVec.ofBool p.casN ++ BitVec.ofBool p.rasN

/-- The offset of a register in the host's window (`10_state.md` R36). -/
def HostReg.offset : HostReg → Nat
  | .cmd => 0x00
  | .status => 0x04
  | .result => 0x08
  | .failCnt => 0x0C
  | .failLoc => 0x10
  | .lda => 0x14
  | .pins => 0x18

/-- The register at an offset of the window, if there is one (`10_state.md` R36; log 19). -/
def HostReg.atOffset (n : Nat) : Option HostReg :=
  [.cmd, .status, .result, .failCnt, .failLoc, .lda, .pins].find? fun r => r.offset == n

/-- What a read of a host register returns while the engine is not busy (`10_state.md` R37 to R43). -/
def State.idleReadWord (s : State) : HostReg → Word
  | .cmd => 0#32
  | .status => s.status.word s.seq.code
  | .result => s.result.word
  | .failCnt => s.x.failCnt
  | .failLoc => s.x.failLocWord
  | .lda => s.x.lda
  | .pins => s.pin.word s.doutLevel

/-- What a read returns while an operation runs: `STATUS` with `SEQ` unspecified, `CMD` as always,
any value for the others (`10_state.md` R37, R44). -/
def State.busyReadWord (s : State) : HostReg → Word
  | .cmd => 0#32
  | .status => s.status.word (s.freeWord.extractLsb' 0 2)
  | .result => s.freeWord
  | .failCnt => s.freeWord
  | .failLoc => s.freeWord
  | .lda => s.freeWord
  | .pins => s.freeWord

/-- A read by the host: no side effect on the engine or the device (`10_state.md` R44). A read of
`PINS` may take a draw, a read while busy takes a free value. -/
def State.hostRead (s : State) (r : HostReg) : State :=
  if s.status.busy then { s.tookFree with readData := s.busyReadWord r }
  else if r = .pins then { s.tookDout with readData := s.idleReadWord r }
  else { s with readData := s.idleReadWord r }

/-- The table of `42_protocol_sequencer.md` R171. `INIT` is legal everywhere. In `ColumnStrobe` and
`RowClose`, which no operation starts in, nothing else is. -/
def legalIn : Opcode → SeqState → Bool
  | .delay, q => q == .idle || q == .rowOpen
  | .addrSet, q => q == .idle || q == .rowOpen
  | .openRow, q => q == .idle
  | .strobeCol, q => q == .rowOpen
  | .pageWrite, q => q == .rowOpen
  | .pageRead, q => q == .rowOpen
  | .closeRow, q => q == .rowOpen
  | .writeBitEarly, q => q == .idle
  | .readBit, q => q == .idle
  | .init, _ => true
  | .isPresent, q => q == .idle
  | .chipKind, q => q == .idle
  | .runTest, q => q == .idle

end Sys2Proof.Machine
end

