-- ==== Sys2Proof/Machine/Ops.lean ====
section
/-!
DEFINITION. The shared operations: the four events and the points where the environment may fail
them (`00_scope.md` R13, `42_protocol_sequencer.md` R190), the entry of a command error and of a
hardware-signal fault and the return from one (`60_exceptions.md` R271 to R273), and the life cycle
of a command (`30_encoding.md` R117).
-/

namespace Sys2Proof.Machine

/-- Why a micro-operation ends early. -/
inductive Stop where
  /-- The environment failed a pin operation: `raise IoFault` (`00_scope.md` R15). -/
  | ioFault
  /-- The event has no meaning. -/
  | refused (r : Refusal)
  deriving DecidableEq, Repr

/-- A micro-operation: it reads and writes the state, emits events, and may stop early with the
state it had reached. `do` sequences micro-operations in the order written (`00_scope.md` R16). -/
abbrev Micro := EStateM Stop State

/-- The events emitted so far, in the order of emission. -/
def State.events (s : State) : List Event := s.trace.reverse

/-- One more event. -/
def State.emit (s : State) (e : Event) : State := { s with trace := e :: s.trace }

/-- Driving one pin to a level. -/
def Pins.drive (p : Pins) : Signal → Bit → Pins
  | .rasN, v => { p with rasN := v }
  | .casN, v => { p with casN := v }
  | .weN, v => { p with weN := v }
  | .din, v => { p with din := v }

/-- A pin at its new level, the device having reacted. -/
def State.pinAt (s : State) (sig : Signal) (v : Bit) : State :=
  { s with
    pin := s.pin.drive sig v
    dev := s.dev.react s.pin s.freeBit sig v
    freeNo := s.freeNo + s.dev.reactDraws s.pin sig v }

/-- The environment's answers still to come (log 4). -/
def State.withIoFails (s : State) (later : List Nat) : State := { s with ioFails := later }

/-- A point where the environment may fail (`42_protocol_sequencer.md` R190): it answers by
`ioFails`, whose head counts the points that still succeed before one fails (log 4). -/
def ioPoint {α : Type} (ok : Micro α) (failed : State → State) : Micro α := fun s =>
  match s.ioFails with
  | [] => ok s
  | 0 :: later => .error .ioFault (failed (s.withIoFails later))
  | (n + 1) :: later => ok (s.withIoFails (n :: later))

/-- The effect of `Pin(sig, v)` where it succeeds: the pin at level `v`, the device's reaction, the
event. An event outside the protocol is refused (`20_memory.md` R72). -/
def pinOk (sig : Signal) (v : Bit) : Micro Unit := fun s =>
  match s.dev.stray s.pin sig v with
  | some e => .error (.refused (.outsideProtocol e)) s
  | none => .ok () ((s.pinAt sig v).emit (.pin sig v))

/-- The effect of a failed `Pin(sig, _)`: the pin at any level (`60_exceptions.md` R272). The device
reacts to the level reached; where that is an edge outside the protocol, it is upset (log 10). -/
def State.pinFailed (sig : Signal) (s : State) : State :=
  match s.dev.stray s.pin sig s.freeBit with
  | some _ => { s.tookFree with pin := s.pin.drive sig s.freeBit, dev.upset := true }
  | none => s.tookFree.pinAt sig s.freeBit

/-- `Pin(S, v)` (`00_scope.md` R13 a). -/
def pin (sig : Signal) (v : Bit) : Micro Unit := ioPoint (pinOk sig v) (State.pinFailed sig)

/-- The address lines after a toggle write of mask `m` (`00_scope.md` R13 b, `41_address_bus.md` R163). -/
def State.toggled (s : State) (m : Word) : State := { s with pin.a := s.pin.a ^^^ wired m }

/-- The effect of `AddrToggle(m)` where it succeeds: every wired line whose mask bit is 1 flips in one
write (`00_scope.md` R13 b, `41_address_bus.md` R161, R163). -/
def toggleOk (m : Word) : Micro Unit := fun s =>
  .ok () ((s.toggled m).emit (.addrToggle m))

/-- The effect of a failed `AddrToggle`: the address lines at any level and the last driven address
any value (`60_exceptions.md` R272; log 11). -/
def State.toggleFailed (s : State) : State :=
  { s.tookFree.tookFree with pin.a := wired s.freeWord, x.lda := s.tookFree.freeWord }

/-- `AddrToggle(m)`. -/
def addrToggle (m : Word) : Micro Unit := ioPoint (toggleOk m) State.toggleFailed

/-- The delay counter has run to zero (`10_state.md` R30; log 17). -/
def State.waited (s : State) : State := { s with x.dcnt := 0 }

/-- `Wait(c)` (`00_scope.md` R13 c, `40_delay_and_timing_profile.md` R133). No failure. -/
def wait (c : Nat) : Micro Unit := fun s => .ok () (s.waited.emit (.wait c))

/-- The effect of `Sample()` where it succeeds: the level of `DOUT` (`20_memory.md` R68). -/
def sampleOk : Micro Bit := fun s =>
  .ok s.doutLevel (s.tookDout.emit (.sample s.doutLevel))

/-- `Sample() -> b` (`00_scope.md` R13 d); a failed sample delivers no value (`60_exceptions.md` R272). -/
def sample : Micro Bit := ioPoint sampleOk id

/-- The protocol state set to `q`. -/
def State.withSeq (s : State) (q : SeqState) : State := { s with seq := q }

/-- `seq <- q` (`00_scope.md` R12). -/
def setSeq (q : SeqState) : Micro Unit := modify fun s => s.withSeq q

/-- `m` done `n` times. -/
def times : Nat → Micro Unit → Micro Unit
  | 0, _ => pure ()
  | n + 1, m => do
    m
    times n m

/-- `f` done for each value of a list, in its order. -/
def forEach (f : Line → Micro Unit) : List Line → Micro Unit
  | [] => pure ()
  | v :: rest => do
    f v
    forEach f rest

/-- `raise CmdErr(code)`: the entry of a command error (`60_exceptions.md` R271). No event, and
nothing but `STATUS` changes; `RESULT` stays 0 (log 24). -/
def State.cmdErr (s : State) (e : CmdErr) : State :=
  { s with
    status.cmdErr := true
    status.errCode := some e
    status.done := true
    result := {} }

/-- `raise IoFault`: the entry of a hardware-signal fault, from the state the failed event left
(`60_exceptions.md` R272). `seq` is unspecified. -/
def State.ioFault (s : State) : State :=
  { s.tookFree with
    status.fault := true
    status.faultSeen := true
    status.faultCode := some .ioFault
    status.busy := false
    status.done := true
    result := {}
    seq := SeqState.ofCode (s.freeWord.extractLsb' 0 2) }

/-- The return from a fault, at the end of a completed `INIT` (`60_exceptions.md` R273,
`43_init_and_detection.md` R201): `FAULT_SEEN` and `FAULT_CODE` stay. -/
def State.recovered (s : State) : State :=
  { s with status.inited := true, status.fault := false }

/-- What a `CMD` write clears before it is decoded (`30_encoding.md` R117). -/
def State.clearedForCommand (s : State) : State :=
  { s with
    status.done := false
    status.cmdErr := false
    status.errCode := none
    result := {} }

/-- A `CMD` write while busy: dropped, `OVERRUN` set (`60_exceptions.md` R267). -/
def State.overrun (s : State) : State := { s with status.overrun := true }

/-- An access of the host that finds the engine busy (`10_state.md` R44, `60_exceptions.md` R267). -/
def State.busyAccess (s : State) : HostAccess → State
  | .write .cmd _ => s.overrun
  | .write _ _ => s
  | .read r => s.hostRead r

/-- `BUSY` set, the overlapping accesses taken. -/
def State.nowBusy (s : State) : State := { s with status.busy := true, overlap := [] }

/-- The start of an accepted operation (`30_encoding.md` R117): `BUSY`, and the accesses the host
makes while the operation runs (log 3). -/
def State.started (s : State) : State := s.overlap.foldl State.busyAccess s.nowBusy

/-- The normal end of an operation (`30_encoding.md` R117, `10_state.md` R39). -/
def State.finished (s : State) (r : Result) : State :=
  { s with status.busy := false, status.done := true, result := r }

/-- An accepted operation, from its start to its end or its fault (`30_encoding.md` R117). -/
def runOperation (body : Micro Result) (s : State) : Host.Outcome State Fault Refusal :=
  match body s.started with
  | .ok r t => .next (t.finished r)
  | .error .ioFault t => .next t.ioFault
  | .error (.refused r) _ => .refused r

/-- The state checks of an operation other than `INIT`, in the order of `60_exceptions.md` R270
(5) to (7): the fault lock (R266), the initialisation (R265), the protocol state (R264). -/
def guarded (o : Opcode) (body : Micro Result) (s : State) : Host.Outcome State Fault Refusal :=
  if s.status.fault then .next (s.cmdErr .faultLocked)
  else if !s.status.inited then .next (s.cmdErr .notInitialised)
  else if !legalIn o s.seq then .next (s.cmdErr .seqViolation)
  else runOperation body s

end Sys2Proof.Machine
end

