-- ==== Sys2Proof/Machine/Command.lean ====
section
/-!
DEFINITION. Taking the host's next access: reads, ignored writes, the overrun, and a `CMD` write up
to the verdict of the decoder (`30_encoding.md` R109, R117, `60_exceptions.md` R270 (1) to (3)).
-/

namespace Sys2Proof.Machine

/-- What the host's next access comes to. -/
inductive NextAccess where
  /-- There is none: the engine waits for the next command word. -/
  | idle
  /-- It is dealt with, and this is the state after it. -/
  | done (s : State)
  /-- It is a command word of operation `i`, to be run from this state. -/
  | operation (i : Instr) (s : State)
  deriving DecidableEq, Repr

/-- A write of `w` to `CMD` while not busy, up to the verdict of the decoder (`30_encoding.md` R117). -/
def State.command (s : State) (w : Word) : NextAccess :=
  match decode w with
  | .instr i => .operation i s.clearedForCommand
  | .illegalOpcode => .done (s.clearedForCommand.cmdErr .illegalOpcode)
  | .badOperand => .done (s.clearedForCommand.cmdErr .badOperand)

/-- An access that finds the engine not busy (`10_state.md` R37, R44). -/
def State.idleAccess (s : State) : HostAccess → NextAccess
  | .write .cmd w => s.command w
  | .write _ _ => .done s
  | .read r => .done (s.hostRead r)

/-- The host's next access, taken from `host`. -/
def State.nextAccess (s : State) : NextAccess :=
  match s.host with
  | [] => .idle
  | a :: later =>
    if s.status.busy then .done ({ s with host := later }.busyAccess a)
    else { s with host := later }.idleAccess a

/-- `s` with a `CMD` write of `w` as the host's next access, the engine not busy. -/
def State.aboutToWrite (s : State) (w : Word) : State :=
  { s with host := .write .cmd w :: s.host, status.busy := false }

end Sys2Proof.Machine
end

