-- ==== Sys2Proof/Machine/Bus.lean ====
section
/-!
DEFINITION. The delay engine's operation `DELAY` (`40_delay_and_timing_profile.md` R144) and the
address bus: `AddrSet` and `ADDR_SET` (`41_address_bus.md` R160, R165).
-/

namespace Sys2Proof.Machine

open Sys2Proof.Config (Params)

/-- The body of `DELAY sel` (`40_delay_and_timing_profile.md` R144). -/
def delayBody (K : Params) (sel : Selector) : Micro Result := do
  wait (selected K sel)
  return {}

/-- `DELAY sel`. -/
def execDelay (sel : Selector) (s : State) : Host.Outcome State Fault Refusal :=
  guarded .delay (delayBody Config.machine sel) s

/-- The last driven address set to `a`. -/
def State.withLda (s : State) (a : Word) : State := { s with x.lda := a }

/-- `x[LDA] <- a` (`41_address_bus.md` R160). -/
def setLda (a : Word) : Micro Unit := modify fun s => s.withLda a

/-- Micro-operation `AddrSet(a)` (`41_address_bus.md` R160). -/
def addrSet (K : Params) (a : Word) : Micro Unit := do
  let s ← get
  addrToggle (a ^^^ s.x.lda)
  setLda a
  wait (cAs K)

/-- The body of `ADDR_SET addr24` (`41_address_bus.md` R165). -/
def addrSetBody (K : Params) (addr24 : BitVec 24) : Micro Result := do
  addrSet K (wideAddress addr24)
  return {}

/-- `ADDR_SET addr24`. -/
def execAddrSet (addr24 : BitVec 24) (s : State) : Host.Outcome State Fault Refusal :=
  guarded .addrSet (addrSetBody Config.machine addr24) s

end Sys2Proof.Machine
end

