-- ==== Sys2Proof/Machine/Protocol.lean ====
section
/-!
DEFINITION. The protocol sequencer: the row and column micro-operations, page mode, the single-bit
cycles, and the seven operations that expose them (`42_protocol_sequencer.md` R173 to R187).
-/

namespace Sys2Proof.Machine

open Sys2Proof.Config (Params)

/-- Micro-operation `openRow(row)` (R173). -/
def openRow (K : Params) (row : Line) : Micro Unit := do
  addrSet K (lineAddress row)
  pin .rasN false
  setSeq .rowOpen
  wait (cRcd K)

/-- Micro-operation `strobeColumn(col)` (R175). -/
def strobeColumn (K : Params) (col : Line) : Micro Unit := do
  addrSet K (lineAddress col)
  pin .casN false
  setSeq .columnStrobe
  wait (cCas K)
  pin .casN true
  setSeq .rowOpen

/-- Micro-operation `strobeColumnRead(col) -> bit` (R181): the sample is taken while the column
strobe is still low. -/
def strobeColumnRead (K : Params) (col : Line) : Micro Bit := do
  addrSet K (lineAddress col)
  pin .casN false
  setSeq .columnStrobe
  wait (cCas K)
  wait (cXs K)
  let v ← sample
  pin .casN true
  setSeq .rowOpen
  return v

/-- Micro-operation `closeRow()` (R177). -/
def closeRow (K : Params) : Micro Unit := do
  pin .rasN true
  setSeq .rowClose
  wait (cRp K)
  setSeq .idle

/-- Micro-operation `pageWrite(col, b)` (R179). -/
def pageWrite (K : Params) (col : Line) (b : Bit) : Micro Unit := do
  pin .weN false
  pin .din b
  strobeColumn K col
  pin .weN true
  wait (cCp K)

/-- Micro-operation `pageRead(col) -> bit` (R187). -/
def pageRead (K : Params) (col : Line) : Micro Bit := do
  let v ← strobeColumnRead K col
  wait (cCp K)
  return v

/-- Micro-operation `writeBitEarly(row, col, b)` (R183). -/
def writeBitEarly (K : Params) (row col : Line) (b : Bit) : Micro Unit := do
  pin .weN false
  pin .din b
  openRow K row
  strobeColumn K col
  wait (cRest K)
  closeRow K
  pin .weN true

/-- Micro-operation `readBit(row, col) -> bit` (R185). -/
def readBit (K : Params) (row col : Line) : Micro Bit := do
  openRow K row
  let v ← strobeColumnRead K col
  wait (cRest K)
  closeRow K
  return v

/-- The body of `OPEN_ROW row` (R174). -/
def openRowBody (K : Params) (row : Line) : Micro Result := do
  openRow K row
  return {}

/-- The body of `STROBE_COL col` (R176). -/
def strobeColBody (K : Params) (col : Line) : Micro Result := do
  strobeColumn K col
  return {}

/-- The body of `CLOSE_ROW` (R178). -/
def closeRowBody (K : Params) : Micro Result := do
  closeRow K
  return {}

/-- The body of `PAGE_WRITE col, b` (R180). -/
def pageWriteBody (K : Params) (col : Line) (b : Bit) : Micro Result := do
  pageWrite K col b
  return {}

/-- The body of `PAGE_READ col` (R182). -/
def pageReadBody (K : Params) (col : Line) : Micro Result := do
  let v ← pageRead K col
  return { value := v }

/-- The body of `WRITE_BIT_EARLY row, col, b` (R184). -/
def writeBitEarlyBody (K : Params) (row col : Line) (b : Bit) : Micro Result := do
  writeBitEarly K row col b
  return {}

/-- The body of `READ_BIT row, col` (R186). -/
def readBitBody (K : Params) (row col : Line) : Micro Result := do
  let v ← readBit K row col
  return { value := v }

/-- `OPEN_ROW row`. -/
def execOpenRow (row : Line) (s : State) : Host.Outcome State Fault Refusal :=
  guarded .openRow (openRowBody Config.machine row) s

/-- `STROBE_COL col`. -/
def execStrobeCol (col : Line) (s : State) : Host.Outcome State Fault Refusal :=
  guarded .strobeCol (strobeColBody Config.machine col) s

/-- `CLOSE_ROW`. -/
def execCloseRow (s : State) : Host.Outcome State Fault Refusal :=
  guarded .closeRow (closeRowBody Config.machine) s

/-- `PAGE_WRITE col, b`. -/
def execPageWrite (col : Line) (b : Bit) (s : State) : Host.Outcome State Fault Refusal :=
  guarded .pageWrite (pageWriteBody Config.machine col b) s

/-- `PAGE_READ col`. -/
def execPageRead (col : Line) (s : State) : Host.Outcome State Fault Refusal :=
  guarded .pageRead (pageReadBody Config.machine col) s

/-- `WRITE_BIT_EARLY row, col, b`. -/
def execWriteBitEarly (row col : Line) (b : Bit) (s : State) :
    Host.Outcome State Fault Refusal :=
  guarded .writeBitEarly (writeBitEarlyBody Config.machine row col b) s

/-- `READ_BIT row, col`. -/
def execReadBit (row col : Line) (s : State) : Host.Outcome State Fault Refusal :=
  guarded .readBit (readBitBody Config.machine row col) s

end Sys2Proof.Machine
end

