-- ==== Sys2Proof/Machine/Detect.lean ====
section
/-!
DEFINITION. Initialisation and detection: `INIT`, `IS_PRESENT`, `CHIP_KIND`
(`43_init_and_detection.md` R200 to R206).
-/

namespace Sys2Proof.Machine

open Sys2Proof.Config (Params)

/-- Micro-operation `prechargePulse()` (R200). -/
def prechargePulse (K : Params) : Micro Unit := do
  pin .rasN false
  wait (cRas K)
  pin .rasN true
  wait (cRp K)

/-- The body of `INIT` (R201). -/
def initBody (K : Params) : Micro Result := do
  pin .weN true
  pin .casN true
  pin .rasN true
  pin .din false
  setSeq .idle
  times 8 (prechargePulse K)
  modify State.recovered
  return {}

/-- Micro-operation `isWorking() -> boolean` (R203). -/
def isWorking (K : Params) : Micro Bool := do
  writeBitEarly K 0#9 0#9 false
  let s1 ← readBit K 0#9 0#9
  if s1 then
    return false
  else do
    writeBitEarly K 0#9 0#9 true
    let s2 ← readBit K 0#9 0#9
    return s2

/-- Micro-operation `isChip41256() -> boolean` (R205). -/
def isChip41256 (K : Params) : Micro Bool := do
  writeBitEarly K 8#9 8#9 false
  writeBitEarly K 264#9 264#9 true
  let v ← readBit K 8#9 8#9
  return !v

/-- The body of `IS_PRESENT` (R204). -/
def isPresentBody (K : Params) : Micro Result := do
  let working ← isWorking K
  return { value := working }

/-- The body of `CHIP_KIND` (R206). -/
def chipKindBody (K : Params) : Micro Result := do
  let k ← isChip41256 K
  return { value := k, kind := if k then .dram41256 else .dram4164 }

/-- `INIT`: accepted in every state (R201, `60_exceptions.md` R270 (4)). -/
def execInit (s : State) : Host.Outcome State Fault Refusal :=
  runOperation (initBody Config.machine) s

/-- `IS_PRESENT`. -/
def execIsPresent (s : State) : Host.Outcome State Fault Refusal :=
  guarded .isPresent (isPresentBody Config.machine) s

/-- `CHIP_KIND`. -/
def execChipKind (s : State) : Host.Outcome State Fault Refusal :=
  guarded .chipKind (chipKindBody Config.machine) s

end Sys2Proof.Machine
end

