-- ==== Sys2Proof/Machine/MovingInversions.lean ====
section
/-!
DEFINITION. The moving-inversions test: the six sweeps and `RUN_TEST`
(`44_moving_inversions.md` R220 to R231).
-/

namespace Sys2Proof.Machine

open Sys2Proof.Config (Params)

/-- The direction of a sweep (R231). -/
inductive Direction where
  | ascending
  | descending
  deriving DecidableEq, Repr

/-- The rows, or the columns, of an `n` by `n` array in the order of a direction (R231). -/
def indices (dir : Direction) (n : Nat) : List Line :=
  match dir with
  | .ascending => (List.range n).map (BitVec.ofNat 9)
  | .descending => ((List.range n).map (BitVec.ofNat 9)).reverse

/-- `x[NLINES]` set to `v`. -/
def State.withNlines (s : State) (v : BitVec 4) : State := { s with x.nlines := v }

/-- `x[NLINES] <- v` (R230). -/
def setNlines (v : BitVec 4) : Micro Unit := modify fun s => s.withNlines v

/-- `x[SWEEP]` set to `v`. -/
def State.withSweep (s : State) (v : BitVec 3) : State := { s with x.sweep := v }

/-- `x[SWEEP] <- v` (R230). -/
def setSweep (v : BitVec 3) : Micro Unit := modify fun s => s.withSweep v

/-- `x[ROW]` set to `v`. -/
def State.withRow (s : State) (v : Line) : State := { s with x.row := v }

/-- `x[ROW] <- v` (R224). -/
def setRow (v : Line) : Micro Unit := modify fun s => s.withRow v

/-- `x[COL]` set to `v`. -/
def State.withCol (s : State) (v : Line) : State := { s with x.col := v }

/-- `x[COL] <- v` (R224). -/
def setCol (v : Line) : Micro Unit := modify fun s => s.withCol v

/-- `x[PAT]` set to `v`. -/
def State.withPat (s : State) (v : Word) : State := { s with x.pat := v }

/-- `x[PAT] <- v` (R221). -/
def setPat (v : Word) : Micro Unit := modify fun s => s.withPat v

/-- The pattern bit of the cell being visited, `x[PAT][0]` (R221). -/
def State.patternBit (s : State) : Bit := s.x.pat.getLsbD 0

/-- The counters cleared at the start of a test (R230). -/
def State.failuresCleared (s : State) : State :=
  { s with x.failCnt := 0#32, x.lfRow := 0#9, x.lfCol := 0#9 }

/-- `x[FAILCNT] <- 0 ; x[LFROW] <- 0 ; x[LFCOL] <- 0` (R230). -/
def clearFailures : Micro Unit := modify State.failuresCleared

/-- One mismatch, at the cell being visited (R225, R228). -/
def State.failureRecorded (s : State) : State :=
  { s with x.failCnt := s.x.failCnt + 1#32, x.lfRow := s.x.row, x.lfCol := s.x.col }

/-- The bookkeeping of a mismatch (R225, R226). -/
def recordFailure : Micro Unit := modify State.failureRecorded

/-- The visit of a cell in `fillSweep` (R224). -/
def fillVisit (K : Params) (col : Line) : Micro Unit := do
  let s ← get
  pageWrite K col s.patternBit

/-- The visit of a cell in `checkComplementSweep` (R225). -/
def checkComplementVisit (K : Params) (col : Line) : Micro Unit := do
  let s ← get
  let g ← pageRead K col
  if g != s.patternBit then
    recordFailure
  else
    pageWrite K col (!s.patternBit)

/-- The visit of a cell in `checkSweep` (R226). -/
def checkVisit (K : Params) (col : Line) : Micro Unit := do
  let s ← get
  let g ← pageRead K col
  if g != !s.patternBit then
    recordFailure
  else
    pure ()

/-- One column step of a sweep: the visit, then one rotation of the pattern (R221, R224 to R226). -/
def columnStep (visit : Line → Micro Unit) (col : Line) : Micro Unit := do
  setCol col
  visit col
  let s ← get
  setPat (rotl32 s.x.pat)

/-- One row of a sweep (R224 to R226, R231). -/
def rowStep (K : Params) (visit : Line → Micro Unit) (cols : List Line) (row : Line) :
    Micro Unit := do
  setRow row
  openRow K row
  forEach (columnStep visit) cols
  closeRow K

/-- A sweep of the `n` by `n` array in one direction (R223 to R226, R231): the pattern is reloaded,
then every row is opened once, all its columns visited in page mode, and it is closed. -/
def sweep (K : Params) (visit : Line → Micro Unit) (dir : Direction) (n : Nat) : Micro Unit := do
  setPat K.patternInit
  forEach (rowStep K visit (indices dir n)) (indices dir n)

/-- Micro-operation `fillSweep(dir)` (R224). -/
def fillSweep (K : Params) (dir : Direction) (n : Nat) : Micro Unit :=
  sweep K (fillVisit K) dir n

/-- Micro-operation `checkComplementSweep(dir)` (R225). -/
def checkComplementSweep (K : Params) (dir : Direction) (n : Nat) : Micro Unit :=
  sweep K (checkComplementVisit K) dir n

/-- Micro-operation `checkSweep(dir)` (R226). -/
def checkSweep (K : Params) (dir : Direction) (n : Nat) : Micro Unit :=
  sweep K (checkVisit K) dir n

/-- `m` only while no failure has been recorded: the early stop (R227). -/
def ifNoFailure (m : Micro Unit) : Micro Unit := do
  let s ← get
  if s.x.failCnt = 0#32 then m else pure ()

/-- The result fields of a test (R229, R230). -/
def State.testResult (s : State) : Result :=
  { outcome := if s.x.failCnt = 0#32 then .pass else .fail
    lastSweep := s.x.sweep }

/-- The body of `RUN_TEST lines` (R230), for an array of side `n`. After it `NLINES`, `SWEEP`, `ROW`,
`COL` and `PAT` keep the values written last, where the spec allows any: DESIGN CHOICE, unsafe
(log 25). -/
def runTestOn (K : Params) (lines : BitVec 4) (n : Nat) : Micro Result := do
  setNlines lines
  clearFailures
  setSweep 1#3
  fillSweep K .ascending n
  setSweep 2#3
  checkComplementSweep K .ascending n
  ifNoFailure do
    setSweep 3#3
    checkSweep K .ascending n
  ifNoFailure do
    setSweep 4#3
    fillSweep K .descending n
    setSweep 5#3
    checkComplementSweep K .descending n
  ifNoFailure do
    setSweep 6#3
    checkSweep K .descending n
  let s ← get
  return s.testResult

/-- The body of `RUN_TEST lines` (R230), `N = 2^lines` (R220). -/
def runTestBody (K : Params) (lines : BitVec 4) : Micro Result :=
  runTestOn K lines (sideOf lines)

/-- `RUN_TEST lines`. A line count other than 8 or 9 is a bad operand (`60_exceptions.md` R263;
log 18); the decoder rejects such a word before it gets here. -/
def execRunTest (lines : BitVec 4) (s : State) : Host.Outcome State Fault Refusal :=
  if legalLines lines then guarded .runTest (runTestBody Config.machine lines) s
  else .next (s.cmdErr .badOperand)

end Sys2Proof.Machine
end

