-- ==== Sys2Proof/Machine/Dispatch.lean ====
section
/-!
DEFINITION. The one dispatch from an operation to its meaning.
-/

namespace Sys2Proof.Machine

def exec (i : Instr) (s : State) : Host.Outcome State Fault Refusal :=
  match i with
  | .delay sel => Sys2Proof.Machine.execDelay sel s
  | .addrSet addr24 => Sys2Proof.Machine.execAddrSet addr24 s
  | .openRow row => Sys2Proof.Machine.execOpenRow row s
  | .strobeCol col => Sys2Proof.Machine.execStrobeCol col s
  | .closeRow => Sys2Proof.Machine.execCloseRow s
  | .pageWrite col b => Sys2Proof.Machine.execPageWrite col b s
  | .pageRead col => Sys2Proof.Machine.execPageRead col s
  | .writeBitEarly row col b => Sys2Proof.Machine.execWriteBitEarly row col b s
  | .readBit row col => Sys2Proof.Machine.execReadBit row col s
  | .init => Sys2Proof.Machine.execInit s
  | .isPresent => Sys2Proof.Machine.execIsPresent s
  | .chipKind => Sys2Proof.Machine.execChipKind s
  | .runTest lines => Sys2Proof.Machine.execRunTest lines s

end Sys2Proof.Machine
end

