-- ==== Sys2Proof/Machine/Step.lean ====
section
/-!
DEFINITION. One step of the machine: the host's next access to its window (`10_state.md` R36, R44).
A write of `CMD` starts an operation and runs it to its end (`00_scope.md` R18, `30_encoding.md`
R117). With no access to come the engine waits (`10_state.md` R32).
-/

namespace Sys2Proof.Machine

def step (s : State) : Host.Outcome State Fault Refusal :=
  match s.nextAccess with
  | .idle => .next s
  | .done t => .next t
  | .operation i t => exec i t

/-- `s` with the host about to write the word of a row of the opcode table to `CMD`, the engine not
busy (log 2, log 22). -/
def State.withFetchWord (s : State) (nbits w : Nat) : State :=
  s.aboutToWrite (tableWord nbits w)

end Sys2Proof.Machine
end

