-- ==== Sys2Proof/Machine/Assembly.lean ====
section
/-!
DEFINITION. The textual form of a command: mnemonics, the source's call names as aliases, operands
in the order `row`, `col`, `b` (`30_encoding.md` R114, R115), and the host's query
`STILL_SAME_CHIP` (`43_init_and_detection.md` R210).
-/

namespace Sys2Proof.Machine

/-- The mnemonic of a row (`30_encoding.md` R108). -/
def mnemonicOf : Opcode → String
  | .delay => "DELAY"
  | .addrSet => "ADDR_SET"
  | .openRow => "OPEN_ROW"
  | .strobeCol => "STROBE_COL"
  | .closeRow => "CLOSE_ROW"
  | .pageWrite => "PAGE_WRITE"
  | .pageRead => "PAGE_READ"
  | .writeBitEarly => "WRITE_BIT_EARLY"
  | .readBit => "READ_BIT"
  | .init => "INIT"
  | .isPresent => "IS_PRESENT"
  | .chipKind => "CHIP_KIND"
  | .runTest => "RUN_TEST"

/-- The call names of the source accepted as other names (`30_encoding.md` R115). -/
def callNames : List (String × Opcode) :=
  [("detectAndReset", .init), ("isWorking", .isPresent), ("isPresent", .isPresent),
   ("isChip41256", .chipKind), ("chipKind", .chipKind), ("runFullTest", .runTest),
   ("write_one_bit_early", .writeBitEarly), ("write_page_mode", .pageWrite),
   ("openRow", .openRow), ("strobeColumn", .strobeCol), ("closeRow", .closeRow)]

/-- Every name a command may be written with. -/
def commandNames : List (String × Opcode) :=
  Opcode.all.map (fun o => (mnemonicOf o, o)) ++ callNames

/-- The row a written name stands for. -/
def opcodeNamed (name : String) : Option Opcode :=
  (commandNames.find? fun entry => entry.1 == name).map Prod.snd

/-- The selector names `DELAY` also accepts (`30_encoding.md` R116). -/
def selectorNames : List (String × Selector) :=
  [("RAS", .ras), ("CAS", .cas), ("RCD", .rcd), ("RP", .rp), ("CP", .cp), ("REST", .rest),
   ("AS", .addrSettle), ("XS", .xcvrSettle)]

/-- A written number as a row or a column, 0 to 511. -/
def lineOperand (n : Nat) : Option Line := if n < 512 then some (BitVec.ofNat 9 n) else none

/-- A written number as a data bit. -/
def bitOperand : Nat → Option Bit
  | 0 => some false
  | 1 => some true
  | _ => none

/-- The operation a row and its written operands stand for (`30_encoding.md` R114). -/
def assembled (o : Opcode) (operands : List Nat) : Option Instr :=
  match o, operands with
  | .delay, [sel] => if sel < 8 then some (.delay (Selector.ofCode (BitVec.ofNat 3 sel))) else none
  | .addrSet, [a] => if a < 2 ^ 24 then some (.addrSet (BitVec.ofNat 24 a)) else none
  | .openRow, [row] => (lineOperand row).map .openRow
  | .strobeCol, [col] => (lineOperand col).map .strobeCol
  | .closeRow, [] => some .closeRow
  | .pageWrite, [col, b] => (lineOperand col).bind fun c => (bitOperand b).map (.pageWrite c)
  | .pageRead, [col] => (lineOperand col).map .pageRead
  | .writeBitEarly, [row, col, b] =>
    (lineOperand row).bind fun r => (lineOperand col).bind fun c =>
      (bitOperand b).map (.writeBitEarly r c)
  | .readBit, [row, col] => (lineOperand row).bind fun r => (lineOperand col).map (.readBit r)
  | .init, [] => some .init
  | .isPresent, [] => some .isPresent
  | .chipKind, [] => some .chipKind
  | .runTest, [lines] => if lines = 8 ∨ lines = 9 then some (.runTest (BitVec.ofNat 4 lines)) else none
  | _, _ => none

/-- A command as written: a name and its operands. -/
def assemble (name : String) (operands : List Nat) : Option Instr :=
  (opcodeNamed name).bind fun o => assembled o operands

/-- The commands `STILL_SAME_CHIP k` expands to (`30_encoding.md` R115). -/
def stillSameChipCommands : List Instr := [.isPresent, .chipKind]

/-- The host's comparison of the two answers with the kind it remembered
(`30_encoding.md` R115, `43_init_and_detection.md` R210). -/
def stillSameChip (k : ChipKind) (first second : Result) : Bool :=
  first.value && second.kind == k

/-- A program: the host writes each word to `CMD` after the previous one's `DONE`
(`30_encoding.md` R114). -/
def State.withProgram (s : State) (program : List Instr) : State :=
  { s with host := program.map fun i => .write .cmd (encode i) }

end Sys2Proof.Machine
end

