-- ==== Sys2Proof/Machine/Timing.lean ====
section
/-!
DEFINITION. What an event list says about time (`70_reset_and_hazards.md` R310 to R312,
`42_protocol_sequencer.md` R191, `40_delay_and_timing_profile.md` R136). Elapsed time is not state
(`00_scope.md` R17); these are lower bounds computed from the events (log 16).
-/

namespace Sys2Proof.Machine

open Sys2Proof.Config (Params)

/-- The argument of a `Wait`, 0 for any other event: the column "waits" of R191. -/
def Event.waitCycles : Event → Nat
  | .wait c => c
  | .pin _ _ => 0
  | .addrToggle _ => 0
  | .sample _ => 0

/-- 1 for an event that is not a `Wait`: the column "other events" of R191. -/
def Event.other : Event → Nat
  | .wait _ => 0
  | .pin _ _ => 1
  | .addrToggle _ => 1
  | .sample _ => 1

/-- The cycles an event lasts at least (R310). -/
def Event.leastCycles (e : Event) : Nat := e.waitCycles + e.other

/-- The wait cycles of an event list. -/
def waitCycles (t : List Event) : Nat := (t.map Event.waitCycles).sum

/-- The number of its events that are not waits. -/
def otherEvents (t : List Event) : Nat := (t.map Event.other).sum

/-- The cycles an event list lasts at least (R310, R312). -/
def leastCycles (t : List Event) : Nat := (t.map Event.leastCycles).sum

/-- The cycles from the start of an event list to its first event of a kind, if there is one (R310). -/
def cyclesUntil (last : Event → Bool) : List Event → Option Nat
  | [] => none
  | e :: rest => if last e then some 0 else (cyclesUntil last rest).map (e.leastCycles + ·)

/-- The lengths of the intervals in an event list from each event of one kind, inclusive, to the next
event of another, exclusive: the lower bounds of R310 for the widths and gaps of R311. -/
def intervals (first last : Event → Bool) : List Event → List Nat
  | [] => []
  | e :: rest =>
    if first e then
      ((cyclesUntil last rest).map (e.leastCycles + ·)).toList ++ intervals first last rest
    else intervals first last rest

/-- An event that drives an output low. -/
def Event.lowers (sig : Signal) (e : Event) : Bool := e == .pin sig false

/-- An event that drives an output high. -/
def Event.raises (sig : Signal) (e : Event) : Bool := e == .pin sig true

/-- An event that drives an output. -/
def Event.drives (sig : Signal) (e : Event) : Bool := e.lowers sig || e.raises sig

/-- An event that lowers a strobe. -/
def Event.strobes (e : Event) : Bool := e.lowers .rasN || e.lowers .casN

/-- An address change. -/
def Event.toggles : Event → Bool
  | .addrToggle _ => true
  | .pin _ _ => false
  | .wait _ => false
  | .sample _ => false

/-- The bit a `Sample` event yielded. -/
def Event.sampled? : Event → Option Bit
  | .sample b => some b
  | .pin _ _ => none
  | .addrToggle _ => none
  | .wait _ => none

/-- A sample. -/
def Event.samples (e : Event) : Bool := e.sampled?.isSome

/-- The bits sampled in an event list, in order. -/
def samples (t : List Event) : List Bit := t.filterMap Event.sampled?

/-- `W_o`, the waits of `openRow` (`44_moving_inversions.md` R238). -/
def openRowWaits (K : Params) : Nat := cAs K + cRcd K

/-- `W_c`, the waits of `closeRow` (`44_moving_inversions.md` R238). -/
def closeRowWaits (K : Params) : Nat := cRp K

/-- `W_w`, the waits of `pageWrite` (`44_moving_inversions.md` R238). -/
def pageWriteWaits (K : Params) : Nat := cAs K + cCas K + cCp K

/-- `W_r`, the waits of `pageRead` (`44_moving_inversions.md` R238). -/
def pageReadWaits (K : Params) : Nat := cAs K + cCas K + cXs K + cCp K

/-- The waits of `writeBitEarly` (`42_protocol_sequencer.md` R191). -/
def writeBitWaits (K : Params) : Nat := 2 * cAs K + cRcd K + cCas K + cRest K + cRp K

/-- The waits of `readBit` (`42_protocol_sequencer.md` R191). -/
def readBitWaits (K : Params) : Nat := 2 * cAs K + cRcd K + cCas K + cXs K + cRest K + cRp K

/-- How many fill sweeps, and as many complementing sweeps, a test runs that ends after sweep `last`
(`44_moving_inversions.md` R223, R227). -/
def fillSweepsRun (last : BitVec 3) : Nat := if last.toNat ≤ 3 then 1 else 2

/-- How many check sweeps such a test runs. -/
def checkSweepsRun (last : BitVec 3) : Nat :=
  if last.toNat ≤ 2 then 0 else if last.toNat ≤ 5 then 1 else 2

/-- How many page writes the mismatches of such a test have left out: one for each mismatch of a
complementing sweep (`44_moving_inversions.md` R238). -/
def skippedWrites (last : BitVec 3) (failCnt : Word) : Nat :=
  if last = 2#3 ∨ last = 5#3 then failCnt.toNat else 0

/-- Whether `c` cycles last at least `ns` nanoseconds: `c * 1000000000 / CLOCK_HZ >= ns` in exact
arithmetic (R136). -/
def lastsAtLeast (K : Params) (c ns : Nat) : Prop := ns * K.clockHz ≤ c * 1000000000

/-- Whether `c` cycles last less than `ns` nanoseconds (R136). -/
def lastsLessThan (K : Params) (c ns : Nat) : Prop := c * 1000000000 < ns * K.clockHz

end Sys2Proof.Machine
end

