-- ==== Sys2Proof/Safety.lean ====
section
/-!
DEFINITION. The terms claims are stated in: the named premises of the spec (`60_exceptions.md` R268,
`70_reset_and_hazards.md` R301 to R308), the protocol states an operation starts in, what a read or
a write of the engine reaches, and the invariant of the machine.
-/

namespace Sys2Proof.Safety

open Sys2Proof.Machine
open Sys2Proof.Config (Params Datasheet DevLines)

/-- The next state of an outcome, if it is one. -/
def nextState? (o : Host.Outcome State Fault Refusal) : Option State :=
  match o with
  | .next t => some t
  | .fault _ => none
  | .refused _ => none

/-- `NoIoFault` (`60_exceptions.md` R268): the environment fails no pin operation. -/
abbrev NoIoFault (s : State) : Prop := s.ioFails = []

/-- Whether an access is a write of `CMD`. -/
def isCommand : HostAccess → Bool
  | .write .cmd _ => true
  | .write _ _ => false
  | .read _ => false

/-- Whether an access is a read. -/
def isRead : HostAccess → Bool
  | .write _ _ => false
  | .read _ => true

/-- `HostWaits` (`70_reset_and_hazards.md` R301): the host writes no `CMD` while the next operation
runs. It may read. -/
abbrev HostWaits (s : State) : Prop := ∀ a ∈ s.overlap, isCommand a = false

/-- The host makes no access at all while the next operation runs. What a host that reads changes
is said once, by `Obligations.OverrunDoesNotDisturbTheOperation`. -/
abbrev HostSilent (s : State) : Prop := s.overlap = []

/-- Neither the environment nor the host interferes with the next operation. -/
abbrev Undisturbed (s : State) : Prop := NoIoFault s ∧ HostSilent s

/-- `AddrInvariant` (`70_reset_and_hazards.md` R303, `10_state.md` R27). -/
abbrev AddrInvariant (s : State) : Prop := s.pin.a = wired s.x.lda

/-- `ClockDivides` (`70_reset_and_hazards.md` R304). -/
abbrev ClockDivides (K : Params) : Prop := (K.clockHz : Nat) ∣ 1000000000

/-- `ProfileFitsDevice` (`70_reset_and_hazards.md` R305), for the minimum widths of the device. -/
abbrev ProfileFitsDevice (K : Params) (least : Datasheet) : Prop :=
  least.tRas ≤ K.ds.tRas ∧ least.tCas ≤ K.ds.tCas ∧ least.tRcd ≤ K.ds.tRcd ∧
    least.tRp ≤ K.ds.tRp ∧ least.tCp ≤ K.ds.tCp

/-- `TimingMet` (`20_memory.md` R71, `70_reset_and_hazards.md` R304, R305). -/
abbrev TimingMet (K : Params) (least : Datasheet) : Prop := ProfileFitsDevice K least ∧ ClockDivides K

/-- `LineCountMatches` (`70_reset_and_hazards.md` R308): `RUN_TEST` is told the line count of the chip
fitted. -/
abbrev LineCountMatches (s : State) (lines : BitVec 4) : Prop := lines.toNat = lineCount s.dev.lines

/-- Whether a sequence of operations keeps the gap of `70_reset_and_hazards.md` R306; `owed` says that
the last column strobe has had no `C_CP` wait yet. -/
def keepsGap (owed : Bool) : List Instr → Bool
  | [] => true
  | .strobeCol _ :: rest => !owed && keepsGap true rest
  | .pageWrite _ _ :: rest => !owed && keepsGap false rest
  | .pageRead _ :: rest => !owed && keepsGap false rest
  | .closeRow :: rest => keepsGap false rest
  | .init :: rest => keepsGap false rest
  | .delay sel :: rest => keepsGap (owed && sel != .cp) rest
  | .addrSet _ :: rest => keepsGap owed rest
  | .openRow _ :: rest => keepsGap owed rest
  | .writeBitEarly _ _ _ :: rest => keepsGap owed rest
  | .readBit _ _ :: rest => keepsGap owed rest
  | .isPresent :: rest => keepsGap owed rest
  | .chipKind :: rest => keepsGap owed rest
  | .runTest _ :: rest => keepsGap owed rest

/-- `StrobeColGap` (`70_reset_and_hazards.md` R306): after `STROBE_COL` the host puts `DELAY 4` before
the next column operation in the same row. -/
abbrev StrobeColGap (program : List Instr) : Prop := keepsGap false program = true

/-- The engine accepts operations and stands in protocol state `q` (`60_exceptions.md` R270). -/
abbrev Accepting (s : State) (q : SeqState) : Prop :=
  s.status.fault = false ∧ s.status.inited = true ∧ s.seq = q

/-- Idle between operations (`42_protocol_sequencer.md` R170): the control pins are high, the device
has no row latched and does not drive. -/
abbrev ReadyIdle (s : State) : Prop :=
  Accepting s .idle ∧ s.pin.rasN = true ∧ s.pin.casN = true ∧ s.pin.weN = true ∧
    s.dev.rowLatch = none ∧ s.dev.drive = none

/-- A row open between operations (`42_protocol_sequencer.md` R170): the row strobe is low, the other
control pins high, a present device has a row latched, and it does not drive. -/
abbrev ReadyOpen (s : State) : Prop :=
  Accepting s .rowOpen ∧ s.pin.rasN = false ∧ s.pin.casN = true ∧ s.pin.weN = true ∧
    s.dev.rowLatch.isSome = s.dev.present ∧ s.dev.drive = none

/-- What lines at level `a` show after `AddrSet(v)` with last driven address `lda`
(`41_address_bus.md` R160). -/
def shown (a : Line) (lda : Word) (v : Line) : Line := a ^^^ wired (lineAddress v ^^^ lda)

/-- What the address lines show after `AddrSet(v)`: the line value itself where `AddrInvariant`
holds, else it exclusive-or the error pattern (`70_reset_and_hazards.md` R303). -/
def presented (s : State) (v : Line) : Line := shown s.pin.a s.x.lda v

/-- The key of the cell a single-bit cycle at `row`, `col` reaches (`20_memory.md` R62, R63). -/
def targetKey (s : State) (row col : Line) : Nat :=
  reachedKey s.dev.lines (presented s row) (presented s col)

/-- The key of the cell a page-mode cycle at `col` reaches in the latched row (`20_memory.md` R66). -/
def pageKey (s : State) (col : Line) : Nat :=
  cellKey (s.dev.rowLatch.getD 0#9) (seenLines s.dev.lines (presented s col))

/-- The bit a read cycle samples at a key: the device's answer, or a draw where no device is present
(`20_memory.md` R66, R68, R69). -/
def sampledBit (s : State) (key : Nat) : Bit :=
  if s.dev.present then s.dev.memReadBit s.freeBit key else s.freeBit

/-- The cells an operation may store to, by their keys (`20_memory.md` R74): the cell of a write
cycle, the probe cells of the two detections, the cells of the array a test covers. -/
def Stores (s : State) : Instr → Nat → Prop
  | .pageWrite col _, key => key = pageKey s col
  | .writeBitEarly row col _, key => key = targetKey s row col
  | .isPresent, key => key = targetKey s 0#9 0#9
  | .chipKind, key => key = targetKey s 8#9 8#9 ∨ key = targetKey s 264#9 264#9
  | .runTest lines, key => ∃ r < sideOf lines, ∃ c < sideOf lines,
      key = targetKey s (BitVec.ofNat 9 r) (BitVec.ofNat 9 c)
  | .delay _, _ => False
  | .addrSet _, _ => False
  | .openRow _, _ => False
  | .strobeCol _, _ => False
  | .closeRow, _ => False
  | .pageRead _, _ => False
  | .readBit _ _, _ => False
  | .init, _ => False

/-- The free values taken by one read cycle: none where a present, reliable device answers. -/
def drawsOfRead (s : State) : Nat := if s.dev.present && s.dev.reliable then 0 else 1

/-- The cells after one write cycle at a key: unchanged where no device is present. -/
def cellsAfterWrite (s : State) (key : Nat) (b : Bit) : Cells :=
  if s.dev.present then Cells.store s.dev.cells key (s.dev.memWriteBit s.freeBit b) else s.dev.cells

/-- The free values taken by one column strobe that is not sampled: one where a present device is not
reliable (`20_memory.md` R71). -/
def drawsOfStrobe (s : State) : Nat := if s.dev.present && !s.dev.reliable then 1 else 0

/-- A present device whose cell accesses have their specified result (`20_memory.md` R71). -/
abbrev Answers (s : State) : Prop := s.dev.present = true ∧ s.dev.reliable = true

/-- The cell with this key is not stuck (`20_memory.md` R70). -/
abbrev NotStuck (d : Device) (key : Nat) : Prop := Cells.lookup d.stuck key = none

/-- A key names a cell of a chip: its row and its column are below `2^DEV_LINES` (`20_memory.md` R61). -/
abbrev InChip (l : DevLines) (key : Nat) : Prop :=
  key / 512 < 2 ^ lineCount l ∧ key % 512 < 2 ^ lineCount l

/-- `patbit(k)` of `44_moving_inversions.md` R222: the pattern bit at visit index `k`. -/
def patBit (init : Word) (k : Nat) : Bit := init.getLsbD ((32 - k % 32) % 32)

/-- The bit the first read of the presence probe samples (`43_init_and_detection.md` R203, R204): what
a cell just written 0 reads as, or a free bit where no reliable device answers. -/
def firstAnswer (s : State) : Bit :=
  if s.dev.present && s.dev.reliable then
    (Cells.lookup s.dev.stuck (targetKey s 0#9 0#9)).getD false
  else (Config.freeWord (s.freeNo + drawsOfStrobe s)).getLsbD 0

/-- The bit its second read samples, where there is one. -/
def secondAnswer (s : State) : Bit :=
  if s.dev.present && s.dev.reliable then
    (Cells.lookup s.dev.stuck (targetKey s 0#9 0#9)).getD true
  else (Config.freeWord (s.freeNo + 2 * drawsOfStrobe s + drawsOfRead s)).getLsbD 0

/-- The bit the read of the kind probe samples (`43_init_and_detection.md` R205): 1 where the second
write reached the same cell. -/
def kindAnswer (s : State) : Bit :=
  if s.dev.present && s.dev.reliable then
    (Cells.lookup s.dev.stuck (targetKey s 8#9 8#9)).getD
      (decide (targetKey s 264#9 264#9 = targetKey s 8#9 8#9))
  else (Config.freeWord (s.freeNo + 2 * drawsOfStrobe s)).getLsbD 0

/-! ### The test at the level of cells

What `RUN_TEST` does to the cells and to the failure record, told without pins, addresses or a
pattern register: visit by visit, with the closed forms of `44_moving_inversions.md` R222 and R231. -/

/-- The cells and the failure record. -/
structure TestView where
  cells : Cells
  failCnt : Word
  lfRow : Line
  lfCol : Line
  deriving DecidableEq, Repr

/-- The row and the column of visit `k` of an `n` by `n` array (R231). -/
def visited (dir : Direction) (n k : Nat) : Line × Line :=
  match dir with
  | .ascending => (BitVec.ofNat 9 (k / n), BitVec.ofNat 9 (k % n))
  | .descending => (BitVec.ofNat 9 (n - 1 - k / n), BitVec.ofNat 9 (n - 1 - k % n))

/-- What a cell reads as in a view (`20_memory.md` R66, R70). -/
def TestView.read (v : TestView) (d : Device) (key : Nat) : Bit :=
  { d with cells := v.cells }.readCell key

/-- A write to a cell. -/
def TestView.write (v : TestView) (key : Nat) (b : Bit) : TestView :=
  { v with cells := Cells.store v.cells key b }

/-- A mismatch at a cell (R225, R228). -/
def TestView.record (v : TestView) (cell : Line × Line) : TestView :=
  { v with failCnt := v.failCnt + 1#32, lfRow := cell.1, lfCol := cell.2 }

/-- The kinds of a sweep (R223). -/
inductive SweepKind where
  | fill
  | checkComplement
  | check
  deriving DecidableEq, Repr

/-- One visit of a cell, with the key it is reached by and the pattern bit `e` (R223). -/
def TestView.visit (v : TestView) (d : Device) (kind : SweepKind) (cell : Line × Line) (key : Nat)
    (e : Bit) : TestView :=
  match kind with
  | .fill => v.write key e
  | .checkComplement => if v.read d key = e then v.write key (!e) else v.record cell
  | .check => if v.read d key = !e then v else v.record cell

/-- The first `k` visits of a sweep of the `n` by `n` array, seen from state `s` (R222, R231). -/
def TestView.visits (s : State) (init : Word) (kind : SweepKind) (dir : Direction) (n : Nat) :
    Nat → TestView → TestView
  | 0, v => v
  | k + 1, v => (TestView.visits s init kind dir n k v).visit s.dev kind (visited dir n k)
      (targetKey s (visited dir n k).1 (visited dir n k).2) (patBit init k)

/-- A whole sweep. -/
def TestView.sweep (s : State) (init : Word) (kind : SweepKind) (dir : Direction) (n : Nat)
    (v : TestView) : TestView := TestView.visits s init kind dir n (n * n) v

/-- The view a test starts from: no failure recorded (R230). -/
def TestView.start (s : State) : TestView where
  cells := s.dev.cells
  failCnt := 0#32
  lfRow := 0#9
  lfCol := 0#9

/-- The six sweeps with their early stops: the final view and the number of the last sweep that ran
(R223, R227, R230). -/
def cellTest (s : State) (init : Word) (n : Nat) : TestView × BitVec 3 :=
  let v2 := ((TestView.start s).sweep s init .fill .ascending n).sweep s init .checkComplement
    .ascending n
  if v2.failCnt = 0#32 then
    let v3 := v2.sweep s init .check .ascending n
    if v3.failCnt = 0#32 then
      let v5 := (v3.sweep s init .fill .descending n).sweep s init .checkComplement .descending n
      if v5.failCnt = 0#32 then (v5.sweep s init .check .descending n, 6#3) else (v5, 5#3)
    else (v3, 3#3)
  else (v2, 2#3)

/-! ### The test as its samples tell it

The failure record of a test as a function of the bits it sampled, whatever answered them
(`44_moving_inversions.md` R225 to R230). -/

/-- The failure record of a test, with the number of its last sweep. -/
structure TestRecord where
  failCnt : Word
  lfRow : Line
  lfCol : Line
  lastSweep : BitVec 3
  deriving DecidableEq, Repr

/-- The visits of a checking sweep of an `n` by `n` array whose answer is not the expected bit, in
their order. -/
def mismatches (n : Nat) (answer expected : Nat → Bit) : List Nat :=
  (List.range (n * n)).filter fun k => answer k != expected k

/-- The record of a test that ended with a sweep of these mismatches: how many there were, and the
place of the last one (R228). -/
def recordOf (dir : Direction) (n : Nat) (failed : List Nat) (last : BitVec 3) : TestRecord where
  failCnt := BitVec.ofNat 32 failed.length
  lfRow := failed.getLast?.elim 0#9 fun k => (visited dir n k).1
  lfCol := failed.getLast?.elim 0#9 fun k => (visited dir n k).2
  lastSweep := last

/-- The record of a test that sampled these bits: sweeps 2, 3, 5 and 6 sample one bit for each visit,
sweeps 2 and 5 expect the pattern bit and sweeps 3 and 6 its complement, and the first sweep with a
mismatch is the last one (R223, R225 to R228). -/
def sampledTest (init : Word) (n : Nat) (bits : List Bit) : TestRecord :=
  let answer (sweeps k : Nat) : Bit := bits.getD (sweeps * (n * n) + k) false
  let two := mismatches n (answer 0) (patBit init)
  let three := mismatches n (answer 1) fun k => !patBit init k
  let five := mismatches n (answer 2) (patBit init)
  let six := mismatches n (answer 3) fun k => !patBit init k
  if two ≠ [] then recordOf .ascending n two 2#3
  else if three ≠ [] then recordOf .ascending n three 3#3
  else if five ≠ [] then recordOf .descending n five 5#3
  else recordOf .descending n six 6#3

/-- Operation `i` from state `s` answers a next state, with new events that have property `P`. -/
def Emits (i : Instr) (s : State) (P : List Event → Prop) : Prop :=
  ∃ (t : State) (new : List Event), exec i s = .next t ∧ t.events = s.events ++ new ∧ P new

/-- Operation `i` and then operation `j` do, and their events together have property `P`. -/
def EmitBoth (i j : Instr) (s : State) (P : List Event → Prop) : Prop :=
  ∃ (t u : State) (new : List Event), exec i s = .next t ∧ exec j t = .next u ∧
    u.events = s.events ++ new ∧ P new

/-- The state of an outcome changed by `f`, the other outcomes left alone. -/
def mapNext (f : State → State) (o : Host.Outcome State Fault Refusal) :
    Host.Outcome State Fault Refusal :=
  match o with
  | .next t => .next (f t)
  | .fault r => .fault r
  | .refused r => .refused r

/-! ### The invariant of the machine -/

/-- Between steps no operation runs and no wait is in progress (`10_state.md` R30, R38). -/
abbrev AtRest (s : State) : Prop := s.status.busy = false ∧ s.x.dcnt = 0

/-- The device's cells are in canonical form and are cells of the chip, a latched row is a row of
the chip, and an absent device latches and drives nothing (`20_memory.md` R61, R64, R69). -/
abbrev DeviceInv (d : Device) : Prop :=
  Cells.wf d.cells = true ∧ (∀ e ∈ d.cells, InChip d.lines e.1) ∧
    (∀ r, d.rowLatch = some r → r.toNat < 2 ^ lineCount d.lines) ∧
    (d.present = false → d.rowLatch = none ∧ d.drive = none)

/-- The records of errors agree with each other (`10_state.md` R38, `60_exceptions.md` R268, R271). -/
abbrev RecordInv (s : State) : Prop :=
  (s.status.errCode.isSome = s.status.cmdErr) ∧
    (s.status.faultCode.isSome = s.status.faultSeen) ∧
    (s.status.fault = true → s.status.faultSeen = true) ∧
    (s.dev.upset = true → s.status.faultSeen = true)

/-- `AddrInvariant` holds as long as no fault has occurred (`10_state.md` R27,
`70_reset_and_hazards.md` R303). -/
abbrev AddrInv (s : State) : Prop := s.status.faultSeen = false → AddrInvariant s

/-- The protocol between operations, while no fault is pending (`10_state.md` R28,
`42_protocol_sequencer.md` R170): before the first `INIT` the device is at rest, after it the pins,
`seq` and the device agree. -/
abbrev ProtocolInv (s : State) : Prop :=
  s.status.fault = false →
    (s.status.inited = false →
      s.seq = .idle ∧ s.dev.rowLatch = none ∧ s.dev.drive = none) ∧
    (s.status.inited = true → ReadyIdle s ∨ ReadyOpen s)

/-- The invariant of the machine but for the timing of its chip. -/
abbrev CoreInv (s : State) : Prop :=
  AtRest s ∧ DeviceInv s.dev ∧ RecordInv s ∧ AddrInv s ∧ ProtocolInv s

/-- The device's verdict on its timing is that of its own least widths and of the machine's
parameters (`70_reset_and_hazards.md` R304, R305). -/
abbrev TimingInv (d : Device) : Prop := d.timingMet = true ↔ TimingMet Config.machine d.least

/-- The invariant of the machine. -/
abbrev Inv (s : State) : Prop := CoreInv s ∧ TimingInv s.dev

end Sys2Proof.Safety
end

