-- ==== Sys2Proof/Certificates/Slice0/Obligations.lean ====
section
/-!
DEFINITION. The statements for the provers, each a rule of the spec or what follows from several.
"Undisturbed" means that the environment fails no pin operation and the host makes no access while
the operation runs (`NoIoFault`, `HostSilent`); what a host that reads meanwhile changes is said once,
by `OverrunDoesNotDisturbTheOperation`. That operations other than `RUN_TEST` leave the hidden test
registers alone is `10_state.md` R31 with assumption log 25. The fields `trace`, `host`, `overlap`,
`readData`, `ioFails` and `freeNo` are the model's, not the spec's (assumption logs 1 to 5); that the
delay counter stands at 0 after a wait is the model's reading (log 17).
-/

open Sys2Proof Sys2Proof.Machine Sys2Proof.Safety
open Sys2Proof.Config (Params Datasheet DevLines)

/-! ### Encoding -/

/-- Words written out bit by bit from the formats of `30_encoding.md` R102 to R106, one per format
and family; the words are those of the vectors V1.1. -/
def Obligations.CommandWordsDecode : Prop :=
  decode 0b00000001000000000000000000000111#32 = .instr (.delay .xcvrSettle) ∧
  decode 0b00000010000000000000000101010101#32 = .instr (.addrSet 0x155#24) ∧
  decode 0b00010000000000000000011000000000#32 = .instr (.openRow 3#9) ∧
  decode 0b00010011000001000000000111111111#32 = .instr (.pageWrite 511#9 true) ∧
  decode 0b00011000000001000000101100101100#32 = .instr (.writeBitEarly 5#9 300#9 true) ∧
  decode 0b00011001000000000001000000001000#32 = .instr (.readBit 8#9 8#9) ∧
  decode 0b00100000000000000000000000000000#32 = .instr .init ∧
  decode 0b00110000000000000000000000001001#32 = .instr (.runTest 9#4)

/-- Decoding the word of a well-formed operation gives that operation back, with every operand at
every value (`30_encoding.md` R102 to R109). -/
def Obligations.DecodeOfEncode : Prop :=
  ∀ i : Instr, i.wellFormed = true → decode (encode i) = .instr i

/-- A word the decoder accepts is the word of the operation it gives, and that operation is well
formed: no bit of a word is ignored (`30_encoding.md` R111). -/
def Obligations.EncodeOfDecode : Prop :=
  ∀ (w : Word) (i : Instr), decode w = .instr i → i.wellFormed = true ∧ encode i = w

/-- `30_encoding.md` R110 and `60_exceptions.md` R262, at a `CMD` write while not busy: every one of
the 243 opcodes outside the map is rejected with `ILLEGAL_OPCODE`, no event, nothing but `STATUS`
(and the `RESULT` every write clears) changed. -/
def Obligations.IllegalOpcodeIsRejected : Prop :=
  (∀ (s : State) (later : List HostAccess) (w : Word), s.status.busy = false →
    s.host = .write .cmd w :: later →
    fieldOpc w ∉ [0x01#8, 0x02#8, 0x10#8, 0x11#8, 0x12#8, 0x13#8, 0x14#8, 0x18#8, 0x19#8, 0x20#8,
      0x21#8, 0x22#8, 0x30#8] →
    step s = .next { s with
      host := later
      status.done := true
      status.cmdErr := true
      status.errCode := some .illegalOpcode
      result := {} }) ∧
  decode 0x00000000#32 = .illegalOpcode ∧ decode 0xFFFFFFFF#32 = .illegalOpcode

/-- `60_exceptions.md` R263, at a `CMD` write while not busy: a legal opcode with a bit outside the
mask of its row is rejected with `BAD_OPERAND`; a `RUN_TEST` word whose count is not 8 or 9 is. -/
def Obligations.ReservedBitsAreRejected : Prop :=
  (∀ (s : State) (later : List HostAccess) (w : Word) (o : Opcode), s.status.busy = false →
    s.host = .write .cmd w :: later → fieldOpc w = o.code → w &&& o.mask ≠ o.pattern →
    step s = .next { s with
      host := later
      status.done := true
      status.cmdErr := true
      status.errCode := some .badOperand
      result := {} }) ∧
  (∀ w : Word, fieldOpc w = 0x30#8 → fieldLines w ≠ 8#4 → fieldLines w ≠ 9#4 →
    decode w = .badOperand)

/-! ### The step -/

/-- A `CMD` write while not busy, whose word decodes to an operation, runs that operation: the step
takes the access off the queue, clears what the write clears (`30_encoding.md` R117) and is then the
operation's `exec`. -/
def Obligations.StepRunsTheDecodedOperation : Prop :=
  ∀ (s : State) (later : List HostAccess) (w : Word) (i : Instr), s.status.busy = false →
    s.host = .write .cmd w :: later → decode w = .instr i →
    step s = exec i { s with
      host := later
      status.done := false
      status.cmdErr := false
      status.errCode := none
      result := {} }

/-- `10_state.md` R32, R44: with no access to come the engine waits and nothing changes; a write to a
read-only register is ignored; a read returns the register's word and has no side effect on the
engine, the device or the events. A read of `PINS` may take a draw, which is the model's counter
`freeNo` only (assumption log 5). -/
def Obligations.HostAccessesHaveNoSideEffect : Prop :=
  (∀ s : State, s.host = [] → step s = .next s) ∧
  ∀ (s : State) (later : List HostAccess) (r : HostReg), s.status.busy = false →
    (∀ w : Word, s.host = .write r w :: later → r ≠ .cmd → step s = .next { s with host := later }) ∧
    (s.host = .read r :: later → ∃ n : Nat,
      step s = .next { s with host := later, readData := s.idleReadWord r, freeNo := n })

/-- The layout of the `STATUS` word (`10_state.md` R38): each field at its bits, all others 0; and the
codes of the protocol states (R28), the command errors (`60_exceptions.md` R261) and the fault
(R268). -/
def Obligations.StatusWordLayout : Prop :=
  (SeqState.idle.code = 0#2 ∧ SeqState.rowOpen.code = 1#2 ∧ SeqState.columnStrobe.code = 2#2 ∧
    SeqState.rowClose.code = 3#2) ∧
  (CmdErr.illegalOpcode.code = 1#4 ∧ CmdErr.badOperand.code = 2#4 ∧ CmdErr.seqViolation.code = 3#4 ∧
    CmdErr.notInitialised.code = 4#4 ∧ CmdErr.faultLocked.code = 5#4) ∧
  FaultCode.ioFault.code = 1#4 ∧
  ∀ s : State,
    (s.idleReadWord .status).getLsbD 0 = s.status.busy ∧
    (s.idleReadWord .status).getLsbD 1 = s.status.done ∧
    (s.idleReadWord .status).getLsbD 2 = s.status.cmdErr ∧
    (s.idleReadWord .status).getLsbD 3 = s.status.fault ∧
    (s.idleReadWord .status).getLsbD 4 = s.status.faultSeen ∧
    (s.idleReadWord .status).getLsbD 5 = s.status.inited ∧
    (s.idleReadWord .status).extractLsb' 6 2 = s.seq.code ∧
    (s.idleReadWord .status).extractLsb' 8 4 = s.status.errCode.elim 0#4 CmdErr.code ∧
    (s.idleReadWord .status).extractLsb' 12 4 = s.status.faultCode.elim 0#4 FaultCode.code ∧
    (s.idleReadWord .status).getLsbD 16 = s.status.overrun ∧
    (s.idleReadWord .status).extractLsb' 17 15 = 0#15

/-- The words the other registers read as while no operation runs: the layouts of `RESULT`, `FAILLOC`
and `PINS` (`10_state.md` R39, R41, R43), the words of `CMD`, `FAILCNT` and `LDA` (R37, R40, R42), and
the codes of the chip kinds (R33) and the test outcomes (R34). -/
def Obligations.ResultAndMirrorLayouts : Prop :=
  (ChipKind.unknown.code = 0#2 ∧ ChipKind.dram4164.code = 1#2 ∧ ChipKind.dram41256.code = 2#2) ∧
  (TestOutcome.absent.code = 0#2 ∧ TestOutcome.pass.code = 1#2 ∧ TestOutcome.fail.code = 2#2) ∧
  ∀ s : State,
    s.idleReadWord .cmd = 0#32 ∧
    s.idleReadWord .failCnt = s.x.failCnt ∧
    s.idleReadWord .lda = s.x.lda ∧
    (s.idleReadWord .result).getLsbD 0 = s.result.value ∧
    (s.idleReadWord .result).extractLsb' 1 2 = s.result.kind.code ∧
    (s.idleReadWord .result).getLsbD 3 = false ∧
    (s.idleReadWord .result).extractLsb' 4 2 = s.result.outcome.code ∧
    (s.idleReadWord .result).extractLsb' 6 2 = 0#2 ∧
    (s.idleReadWord .result).extractLsb' 8 3 = s.result.lastSweep ∧
    (s.idleReadWord .result).extractLsb' 11 21 = 0#21 ∧
    (s.idleReadWord .failLoc).extractLsb' 0 9 = s.x.lfCol ∧
    (s.idleReadWord .failLoc).extractLsb' 9 7 = 0#7 ∧
    (s.idleReadWord .failLoc).extractLsb' 16 9 = s.x.lfRow ∧
    (s.idleReadWord .failLoc).extractLsb' 25 7 = 0#7 ∧
    (s.idleReadWord .pins).getLsbD 0 = s.pin.rasN ∧
    (s.idleReadWord .pins).getLsbD 1 = s.pin.casN ∧
    (s.idleReadWord .pins).getLsbD 2 = s.pin.weN ∧
    (s.idleReadWord .pins).getLsbD 3 = s.pin.din ∧
    (s.idleReadWord .pins).getLsbD 4 = s.doutLevel ∧
    (s.idleReadWord .pins).extractLsb' 5 11 = 0#11 ∧
    (s.idleReadWord .pins).extractLsb' 16 9 = s.pin.a ∧
    (s.idleReadWord .pins).extractLsb' 25 7 = 0#7

/-- `60_exceptions.md` R267 at the step: a `CMD` write that finds the engine busy is dropped and sets
`OVERRUN`. -/
def Obligations.WriteWhileBusyIsDropped : Prop :=
  ∀ (s : State) (later : List HostAccess) (w : Word), s.status.busy = true →
    s.host = .write .cmd w :: later →
    step s = .next { s with host := later, status.overrun := true }

/-- `60_exceptions.md` R267 and `70_reset_and_hazards.md` R301 inside an operation: accesses the host
makes while an accepted operation runs do not disturb it. A `CMD` write is dropped and sets `OVERRUN`;
any accesses at all change `OVERRUN`, the word read and the supply of free values, and a host that
only reads (`HostWaits`) does not change `OVERRUN`. Accesses during an operation are the field
`overlap` (assumption log 3), free values and their counter are log 5. -/
def Obligations.OverrunDoesNotDisturbTheOperation : Prop :=
  ∀ (i : Instr) (s : State), i.wellFormed = true →
    (i = .init ∨
      (s.status.fault = false ∧ s.status.inited = true ∧ legalIn i.opcode s.seq = true)) →
    (∀ w : Word, s.overlap = [] →
      exec i { s with overlap := [.write .cmd w] } = mapNext State.overrun (exec i s)) ∧
    (∃ rd : Word, exec i s = mapNext
      (fun t => { t with
        status.overrun := t.status.overrun || s.overlap.any isCommand
        readData := rd })
      (exec i { s with overlap := [], freeNo := s.freeNo + s.overlap.countP isRead })) ∧
    (HostWaits s → ∃ rd : Word, exec i s = mapNext (fun t => { t with readData := rd })
      (exec i { s with overlap := [], freeNo := s.freeNo + s.overlap.countP isRead }))

/-- `10_state.md` R44, R37, R38: what a read during an operation returns, for an operation accepted by
the `CMD` write that cleared `DONE`, `CMD_ERR` and `ERR_CODE`. `STATUS` shows `BUSY` 1, `DONE` 0, the
other bits as they stand, and a free `SEQ`; `CMD` reads 0; every other register reads any value. The
read itself changes nothing but the word read. The read is in the field `overlap` (assumption log 3);
the free values are those of log 5. -/
def Obligations.StatusWhileBusy : Prop :=
  ∀ (i : Instr) (s : State) (r : HostReg), i.wellFormed = true →
    (i = .init ∨
      (s.status.fault = false ∧ s.status.inited = true ∧ legalIn i.opcode s.seq = true)) →
    ∃ w : Word,
      exec i { s with
        status.done := false
        status.cmdErr := false
        status.errCode := none
        result := {}
        overlap := [.read r] } =
      mapNext (fun t => { t with readData := w }) (exec i { s with
        status.done := false
        status.cmdErr := false
        status.errCode := none
        result := {}
        overlap := []
        freeNo := s.freeNo + 1 }) ∧
      (r = .status →
        w.getLsbD 0 = true ∧ w.getLsbD 1 = false ∧ w.getLsbD 2 = false ∧
        w.getLsbD 3 = s.status.fault ∧ w.getLsbD 4 = s.status.faultSeen ∧
        w.getLsbD 5 = s.status.inited ∧
        w.extractLsb' 6 2 = (Config.freeWord s.freeNo).extractLsb' 0 2 ∧
        w.extractLsb' 8 4 = 0#4 ∧
        w.extractLsb' 12 4 = s.status.faultCode.elim 0#4 FaultCode.code ∧
        w.getLsbD 16 = s.status.overrun ∧ w.extractLsb' 17 15 = 0#15) ∧
      (r = .cmd → w = 0#32) ∧
      (r ∈ [.result, .failCnt, .failLoc, .lda, .pins] → w = Config.freeWord s.freeNo)

/-! ### The delay engine and the timing profile -/

/-- `40_delay_and_timing_profile.md` R130: the whole-nanosecond cycle time is at least 1, is 1 from
1 GHz on, and has the four values the rule gives. -/
def Obligations.NsPerCycleIsRoundedUp : Prop :=
  (∀ K : Params, nsPerCycle K = (1000000000 + (K.clockHz : Nat) - 1) / K.clockHz ∧
    1 ≤ nsPerCycle K ∧ (1000000000 ≤ (K.clockHz : Nat) → nsPerCycle K = 1)) ∧
  ceilDiv 1000000000 125000000 = 8 ∧ ceilDiv 1000000000 133000000 = 8 ∧
  ceilDiv 1000000000 48000000 = 21 ∧ ceilDiv 1000000000 10000000 = 100

/-- `40_delay_and_timing_profile.md` R132: the algorithm of R131 is the rounded-up quotient, with the
rule's consequences. -/
def Obligations.CyclesIsTheRoundedUpQuotient : Prop :=
  ∀ p : Nat, 0 < p →
    (∀ ns : Nat, cyclesAt p ns = ceilDiv ns p) ∧ cyclesAt p 0 = 0 ∧
    (∀ ns : Nat, 1 ≤ ns → ns ≤ p → cyclesAt p ns = 1) ∧
    (∀ ns ms : Nat, ns ≤ ms → cyclesAt p ns ≤ cyclesAt p ms) ∧
    (∀ ns : Nat, ns ≤ cyclesAt p ns * p ∧ cyclesAt p ns * p < ns + p)

/-- `40_delay_and_timing_profile.md` R136: under `ClockDivides` a configured wait lasts at least its
nanoseconds and less than one rounded cycle more; at 133 MHz, 80 ns get 10 cycles, which are too
short. -/
def Obligations.DelayContractUnderClockDivides : Prop :=
  (∀ (K : Params) (ns : Nat), ClockDivides K →
    lastsAtLeast K (cycles K ns) ns ∧ lastsLessThan K (cycles K ns) (ns + nsPerCycle K)) ∧
  (∀ K : Params, K.clockHz = 133000000 →
    cycles K 80 = 10 ∧ lastsLessThan K (cycles K 80) 80)

/-- `40_delay_and_timing_profile.md` R137 to R139: each profile duration is the datasheet figure
less the overhead, floored at zero, and the rest is the floored difference over the integers. The
overhead is one rounded cycle (R137). -/
def Obligations.ProfileIsFlooredAtZero : Prop :=
  ∀ K : Params,
    (rowStrobePulse K : Int) = max 0 ((K.ds.tRas : Int) - nsPerCycle K) ∧
    (colStrobePulse K : Int) = max 0 ((K.ds.tCas : Int) - nsPerCycle K) ∧
    (strobeToStrobeDelay K : Int) = max 0 ((K.ds.tRcd : Int) - nsPerCycle K) ∧
    (rowPrecharge K : Int) = max 0 ((K.ds.tRp : Int) - nsPerCycle K) ∧
    (colPrecharge K : Int) = max 0 ((K.ds.tCp : Int) - nsPerCycle K) ∧
    (rowStrobeRest K : Int) =
      max 0 ((rowStrobePulse K : Int) - colStrobePulse K - strobeToStrobeDelay K)

/-- `40_delay_and_timing_profile.md` R144: `DELAY` waits the selected count and does nothing else. Its
selector codes are those of `30_encoding.md` R116, and the eight counts are those of R142, in terms of
the parameters: the rounded-up quotients of the durations of R138, R139 and R143. Subtraction is that
of the naturals, floored at zero. The counter at 0 is assumption log 17. -/
def Obligations.DelayWaitsTheSelectedCount : Prop :=
  (∀ (sel : Selector) (s : State), Undisturbed s →
    (Accepting s .idle ∨ Accepting s .rowOpen) →
    exec (.delay sel) s = .next { s with
      x.dcnt := 0
      status.busy := false
      status.done := true
      result := {}
      trace := .wait (selected Config.machine sel) :: s.trace }) ∧
  (decode 0x01000000#32 = .instr (.delay .ras) ∧ decode 0x01000001#32 = .instr (.delay .cas) ∧
    decode 0x01000002#32 = .instr (.delay .rcd) ∧ decode 0x01000003#32 = .instr (.delay .rp) ∧
    decode 0x01000004#32 = .instr (.delay .cp) ∧ decode 0x01000005#32 = .instr (.delay .rest) ∧
    decode 0x01000006#32 = .instr (.delay .addrSettle) ∧
    decode 0x01000007#32 = .instr (.delay .xcvrSettle)) ∧
  (∀ K : Params,
    selected K .ras = cRas K ∧ selected K .cas = cCas K ∧ selected K .rcd = cRcd K ∧
    selected K .rp = cRp K ∧ selected K .cp = cCp K ∧ selected K .rest = cRest K ∧
    selected K .addrSettle = cAs K ∧ selected K .xcvrSettle = cXs K ∧
    cRas K = ceilDiv (K.ds.tRas - nsPerCycle K) (nsPerCycle K) ∧
    cCas K = ceilDiv (K.ds.tCas - nsPerCycle K) (nsPerCycle K) ∧
    cRcd K = ceilDiv (K.ds.tRcd - nsPerCycle K) (nsPerCycle K) ∧
    cRp K = ceilDiv (K.ds.tRp - nsPerCycle K) (nsPerCycle K) ∧
    cCp K = ceilDiv (K.ds.tCp - nsPerCycle K) (nsPerCycle K) ∧
    cRest K = ceilDiv ((K.ds.tRas - nsPerCycle K) - (K.ds.tCas - nsPerCycle K) -
      (K.ds.tRcd - nsPerCycle K)) (nsPerCycle K) ∧
    cAs K = ceilDiv K.addrSettleNs (nsPerCycle K) ∧
    cXs K = ceilDiv K.xcvrSettleNs (nsPerCycle K))

/-! ### The address bus -/

/-- `41_address_bus.md` R160, R165: `ADDR_SET` writes one toggle mask, drives the nine low bits and
remembers all 32. The counter at 0 is assumption log 17. -/
def Obligations.AddrSetDrivesTheAddress : Prop :=
  ∀ (addr24 : BitVec 24) (s : State), Undisturbed s →
    (Accepting s .idle ∨ Accepting s .rowOpen) →
    exec (.addrSet addr24) s = .next { s with
      pin.a := s.pin.a ^^^ wired (wideAddress addr24 ^^^ s.x.lda)
      x.lda := wideAddress addr24
      x.dcnt := 0
      status.busy := false
      status.done := true
      result := {}
      trace := .wait (cAs Config.machine) :: .addrToggle (wideAddress addr24 ^^^ s.x.lda)
        :: s.trace } ∧
    (AddrInvariant s → s.pin.a ^^^ wired (wideAddress addr24 ^^^ s.x.lda) = wired (wideAddress addr24))

/-- `41_address_bus.md` R162: a second `ADDR_SET` to the same address writes the zero mask, changes no
pin and leaves the address remembered. -/
def Obligations.RepeatedAddrSetTogglesNothing : Prop :=
  ∀ (addr24 : BitVec 24) (s : State), Undisturbed s →
    (Accepting s .idle ∨ Accepting s .rowOpen) →
    ∃ t u : State, exec (.addrSet addr24) s = .next t ∧ exec (.addrSet addr24) t = .next u ∧
      u.events = t.events ++ [.addrToggle 0#32, .wait (cAs Config.machine)] ∧
      u.pin = t.pin ∧ u.x.lda = wideAddress addr24

/-- `20_memory.md` R63: on an 8-line chip the four addresses that differ in bit 8 of the row or the
column reach the cell (`r mod 256`, `c mod 256`); on a 9-line chip all addresses are distinct. -/
def Obligations.AddressLineAliasing : Prop :=
  (∀ r c : Line,
    reachedKey .eight r c = (r.toNat % 256) * 512 + c.toNat % 256 ∧
    reachedKey .eight (r ^^^ 256#9) (c ^^^ 256#9) = reachedKey .eight r c ∧
    reachedKey .eight r (c ^^^ 256#9) = reachedKey .eight r c ∧
    reachedKey .eight (r ^^^ 256#9) c = reachedKey .eight r c) ∧
  (∀ r c r' c' : Line, reachedKey .nine r c = reachedKey .nine r' c' → r = r' ∧ c = c')

/-! ### The protocol sequencer -/

/-- `42_protocol_sequencer.md` R173, R174: `OPEN_ROW`. The counter at 0 is assumption log 17. -/
def Obligations.OpenRowOpensTheRow : Prop :=
  ∀ (row : Line) (s : State), Undisturbed s → ReadyIdle s →
    exec (.openRow row) s = .next { s with
      pin.a := presented s row
      pin.rasN := false
      x.lda := lineAddress row
      x.dcnt := 0
      seq := .rowOpen
      status.busy := false
      status.done := true
      result := {}
      dev.rowLatch :=
        if s.dev.present then some (seenLines s.dev.lines (presented s row)) else none
      trace := [.addrToggle (lineAddress row ^^^ s.x.lda), .wait (cAs Config.machine),
        .pin .rasN false, .wait (cRcd Config.machine)].reverse ++ s.trace }

/-- `42_protocol_sequencer.md` R175, R176: `STROBE_COL` is a read cycle nobody samples. The supply
of free values is assumption log 5, the counter at 0 log 17. -/
def Obligations.StrobeColChangesNoCell : Prop :=
  ∀ (col : Line) (s : State), Undisturbed s → ReadyOpen s →
    exec (.strobeCol col) s = .next { s with
      pin.a := presented s col
      x.lda := lineAddress col
      x.dcnt := 0
      status.busy := false
      status.done := true
      result := {}
      freeNo := s.freeNo + drawsOfStrobe s
      trace := [.addrToggle (lineAddress col ^^^ s.x.lda), .wait (cAs Config.machine),
        .pin .casN false, .wait (cCas Config.machine), .pin .casN true].reverse ++ s.trace }

/-- `42_protocol_sequencer.md` R177, R178: `CLOSE_ROW`. The counter at 0 is assumption log 17. -/
def Obligations.CloseRowReleasesTheRow : Prop :=
  ∀ s : State, Undisturbed s → ReadyOpen s →
    exec .closeRow s = .next { s with
      pin.rasN := true
      x.dcnt := 0
      seq := .idle
      status.busy := false
      status.done := true
      result := {}
      dev.rowLatch := none
      trace := [.pin .rasN true, .wait (cRp Config.machine)].reverse ++ s.trace }

/-- `42_protocol_sequencer.md` R179, R180: `PAGE_WRITE` writes the bit in the open row. The supply
of free values is assumption log 5, the counter at 0 log 17. Where the profile does not fit the chip
or the clock does not divide the second, the bit stored in a present chip is free (`20_memory.md`
R71, `70_reset_and_hazards.md` R304, R305; log 9). -/
def Obligations.PageWriteWritesTheCell : Prop :=
  (∀ (col : Line) (b : Bit) (s : State), Undisturbed s → ReadyOpen s →
    exec (.pageWrite col b) s = .next { s with
      pin.a := presented s col
      pin.din := b
      x.lda := lineAddress col
      x.dcnt := 0
      status.busy := false
      status.done := true
      result := {}
      dev.cells := cellsAfterWrite s (pageKey s col) b
      freeNo := s.freeNo + drawsOfStrobe s
      trace := [.pin .weN false, .pin .din b, .addrToggle (lineAddress col ^^^ s.x.lda),
        .wait (cAs Config.machine), .pin .casN false, .wait (cCas Config.machine), .pin .casN true,
        .pin .weN true, .wait (cCp Config.machine)].reverse ++ s.trace }) ∧
  (∀ (col : Line) (b : Bit) (s : State), Inv s → s.dev.present = true →
    ¬ TimingMet Config.machine s.dev.least →
    cellsAfterWrite s (pageKey s col) b =
      Cells.store s.dev.cells (pageKey s col) ((Config.freeWord s.freeNo).getLsbD 0))

/-- `42_protocol_sequencer.md` R181, R182, R187: `PAGE_READ` samples the cell while the column
strobe is low, and no cell changes. The supply of free values is assumption log 5, the counter at 0
log 17. Where the profile does not fit the chip or the clock does not divide the second, the bit a
present chip yields is free (`20_memory.md` R71, `70_reset_and_hazards.md` R304, R305; log 9). -/
def Obligations.PageReadSamplesTheCell : Prop :=
  (∀ (col : Line) (s : State), Undisturbed s → ReadyOpen s →
    exec (.pageRead col) s = .next { s with
      pin.a := presented s col
      x.lda := lineAddress col
      x.dcnt := 0
      status.busy := false
      status.done := true
      result := { value := sampledBit s (pageKey s col) }
      freeNo := s.freeNo + drawsOfRead s
      trace := [.addrToggle (lineAddress col ^^^ s.x.lda), .wait (cAs Config.machine),
        .pin .casN false, .wait (cCas Config.machine), .wait (cXs Config.machine),
        .sample (sampledBit s (pageKey s col)), .pin .casN true,
        .wait (cCp Config.machine)].reverse ++ s.trace }) ∧
  (∀ (col : Line) (s : State), Inv s → s.dev.present = true →
    ¬ TimingMet Config.machine s.dev.least →
    sampledBit s (pageKey s col) = (Config.freeWord s.freeNo).getLsbD 0)

/-- `42_protocol_sequencer.md` R183, R184: `WRITE_BIT_EARLY`, fifteen events, one cell written. The
supply of free values is assumption log 5, the counter at 0 log 17. Where the profile does not fit
the chip or the clock does not divide the second, the bit stored in a present chip is free
(`20_memory.md` R71, `70_reset_and_hazards.md` R304, R305; log 9). -/
def Obligations.WriteBitEarlyWritesTheCell : Prop :=
  (∀ (row col : Line) (b : Bit) (s : State), Undisturbed s → ReadyIdle s →
    exec (.writeBitEarly row col b) s = .next { s with
      pin.a := presented s col
      pin.din := b
      x.lda := lineAddress col
      x.dcnt := 0
      status.busy := false
      status.done := true
      result := {}
      dev.cells := cellsAfterWrite s (targetKey s row col) b
      freeNo := s.freeNo + drawsOfStrobe s
      trace := [.pin .weN false, .pin .din b, .addrToggle (lineAddress row ^^^ s.x.lda),
        .wait (cAs Config.machine), .pin .rasN false, .wait (cRcd Config.machine),
        .addrToggle (lineAddress col ^^^ lineAddress row), .wait (cAs Config.machine),
        .pin .casN false, .wait (cCas Config.machine), .pin .casN true,
        .wait (cRest Config.machine), .pin .rasN true, .wait (cRp Config.machine),
        .pin .weN true].reverse ++ s.trace }) ∧
  (∀ (row col : Line) (b : Bit) (s : State), Inv s → s.dev.present = true →
    ¬ TimingMet Config.machine s.dev.least →
    cellsAfterWrite s (targetKey s row col) b =
      Cells.store s.dev.cells (targetKey s row col) ((Config.freeWord s.freeNo).getLsbD 0))

/-- `42_protocol_sequencer.md` R185, R186: `READ_BIT`, fourteen events, no cell changed. The supply
of free values is assumption log 5, the counter at 0 log 17. Where the profile does not fit the chip
or the clock does not divide the second, the bit a present chip yields is free (`20_memory.md` R71,
`70_reset_and_hazards.md` R304, R305; log 9). -/
def Obligations.ReadBitSamplesTheCell : Prop :=
  (∀ (row col : Line) (s : State), Undisturbed s → ReadyIdle s →
    exec (.readBit row col) s = .next { s with
      pin.a := presented s col
      x.lda := lineAddress col
      x.dcnt := 0
      status.busy := false
      status.done := true
      result := { value := sampledBit s (targetKey s row col) }
      freeNo := s.freeNo + drawsOfRead s
      trace := [.addrToggle (lineAddress row ^^^ s.x.lda), .wait (cAs Config.machine),
        .pin .rasN false, .wait (cRcd Config.machine),
        .addrToggle (lineAddress col ^^^ lineAddress row), .wait (cAs Config.machine),
        .pin .casN false, .wait (cCas Config.machine), .wait (cXs Config.machine),
        .sample (sampledBit s (targetKey s row col)), .pin .casN true,
        .wait (cRest Config.machine), .pin .rasN true, .wait (cRp Config.machine)].reverse
        ++ s.trace }) ∧
  (∀ (row col : Line) (s : State), Inv s → s.dev.present = true →
    ¬ TimingMet Config.machine s.dev.least →
    sampledBit s (targetKey s row col) = (Config.freeWord s.freeNo).getLsbD 0)

/-- `42_protocol_sequencer.md` R188: a bit written to a healthy cell is read back at once, by the
single-bit pair and by the page-mode pair. -/
def Obligations.WrittenBitReadsBack : Prop :=
  (∀ (row col : Line) (b : Bit) (s : State), Undisturbed s → ReadyIdle s → Answers s →
    NotStuck s.dev (targetKey s row col) →
    ∃ t u : State, exec (.writeBitEarly row col b) s = .next t ∧
      exec (.readBit row col) t = .next u ∧ u.result.value = b) ∧
  (∀ (col : Line) (b : Bit) (s : State), Undisturbed s → ReadyOpen s → Answers s →
    NotStuck s.dev (pageKey s col) →
    ∃ t u : State, exec (.pageWrite col b) s = .next t ∧
      exec (.pageRead col) t = .next u ∧ u.result.value = b) ∧
  (∀ (row col : Line) (s : State), AddrInvariant s →
    targetKey s row col = reachedKey s.dev.lines row col)

/-- `42_protocol_sequencer.md` R191: the events, other events and wait cycles of the single-bit and
page-mode cycles. -/
def Obligations.CycleTotals : Prop :=
  (∀ (col : Line) (b : Bit) (s : State), Undisturbed s → ReadyOpen s →
    ∃ (t u : State) (new more : List Event),
      exec (.pageWrite col b) s = .next t ∧ t.events = s.events ++ new ∧ new.length = 9 ∧
      otherEvents new = 6 ∧
      waitCycles new = cAs Config.machine + cCas Config.machine + cCp Config.machine ∧
      exec (.pageRead col) s = .next u ∧ u.events = s.events ++ more ∧ more.length = 8 ∧
      otherEvents more = 4 ∧
      waitCycles more =
        cAs Config.machine + cCas Config.machine + cXs Config.machine + cCp Config.machine) ∧
  (∀ (row col : Line) (b : Bit) (s : State), Undisturbed s → ReadyIdle s →
    ∃ (t u : State) (new more : List Event),
      exec (.writeBitEarly row col b) s = .next t ∧ t.events = s.events ++ new ∧
      new.length = 15 ∧ otherEvents new = 9 ∧
      waitCycles new = 2 * cAs Config.machine + cRcd Config.machine + cCas Config.machine +
        cRest Config.machine + cRp Config.machine ∧
      exec (.readBit row col) s = .next u ∧ u.events = s.events ++ more ∧ more.length = 14 ∧
      otherEvents more = 7 ∧
      waitCycles more = 2 * cAs Config.machine + cRcd Config.machine + cCas Config.machine +
        cXs Config.machine + cRest Config.machine + cRp Config.machine)

/-! ### Initialisation and detection -/

/-- `43_init_and_detection.md` R200, R201, `70_reset_and_hazards.md` R296: `INIT` completes from
every state, its 36 events and what it establishes. The counter at 0 is assumption log 17. -/
def Obligations.InitAlwaysCompletes : Prop :=
  ∀ s : State, Undisturbed s →
    exec .init s = .next { s with
      pin.rasN := true
      pin.casN := true
      pin.weN := true
      pin.din := false
      x.dcnt := 0
      seq := .idle
      status.busy := false
      status.done := true
      status.inited := true
      status.fault := false
      result := {}
      dev.rowLatch := if s.dev.present then none else s.dev.rowLatch
      dev.drive := if s.dev.present then none else s.dev.drive
      trace := (([.pin .weN true, .pin .casN true, .pin .rasN true, .pin .din false] : List Event) ++
        (List.replicate 8 ([.pin .rasN false, .wait (cRas Config.machine), .pin .rasN true,
          .wait (cRp Config.machine)] : List Event)).flatten).reverse ++ s.trace }

/-- `43_init_and_detection.md` R202: what `INIT` does not touch, whatever the environment answers.
That a failed pin event at an edge outside the protocol leaves the cells alone is the model's choice
(assumption log 10), that the hidden test registers keep their values is log 25. -/
def Obligations.InitLeavesTheRest : Prop :=
  ∀ s t : State, Inv s → HostWaits s → exec .init s = .next t →
    t.pin.a = s.pin.a ∧ t.x = s.x ∧ t.dev.cells = s.dev.cells ∧
    t.status.overrun = s.status.overrun ∧
    (t.status.fault = false →
      t.status.faultSeen = s.status.faultSeen ∧ t.status.faultCode = s.status.faultCode)

/-- `43_init_and_detection.md` R203, R204: `IS_PRESENT`, its two answers, its early return, and what
it stores. The supply of free values is assumption log 5, the counter at 0 log 17. -/
def Obligations.IsPresentRunsTheProbe : Prop :=
  ∀ s : State, Undisturbed s → ReadyIdle s →
    ∃ (new : List Event) (cells : Cells) (n : Nat),
      exec .isPresent s = .next { s with
        pin.a := presented s 0#9
        pin.din := !firstAnswer s
        x.lda := 0#32
        x.dcnt := 0
        status.busy := false
        status.done := true
        result := { value := !firstAnswer s && secondAnswer s }
        dev.cells := cells
        freeNo := n
        trace := new.reverse ++ s.trace } ∧
      new.length = (if firstAnswer s then 29 else 58) ∧
      otherEvents new = (if firstAnswer s then 16 else 32) ∧
      waitCycles new = (if firstAnswer s then 1 else 2) *
        (writeBitWaits Config.machine + readBitWaits Config.machine) ∧
      (∀ key, key ≠ targetKey s 0#9 0#9 → Cells.lookup cells key = Cells.lookup s.dev.cells key) ∧
      (Answers s → Cells.lookup cells (targetKey s 0#9 0#9) = some (!firstAnswer s)) ∧
      (s.dev.present = false → cells = s.dev.cells)

/-- The table of `43_init_and_detection.md` R204: the answer of `IS_PRESENT` by environment. With no
device the two samples are draws: the free words `freeNo` and `freeNo + 1` (assumption log 5). -/
def Obligations.PresenceByEnvironment : Prop :=
  ∀ s : State, Undisturbed s → ReadyIdle s →
    ∃ (t : State) (new : List Event), exec .isPresent s = .next t ∧ t.events = s.events ++ new ∧
      (Answers s →
        (NotStuck s.dev (targetKey s 0#9 0#9) →
          t.result.value = true ∧ new.length = 58 ∧ t.dev.cell (targetKey s 0#9 0#9) = true) ∧
        (Cells.lookup s.dev.stuck (targetKey s 0#9 0#9) = some false →
          t.result.value = false ∧ new.length = 58) ∧
        (Cells.lookup s.dev.stuck (targetKey s 0#9 0#9) = some true →
          t.result.value = false ∧ new.length = 29)) ∧
      (s.dev.present = false →
        ((Config.freeWord s.freeNo).getLsbD 0 = true →
          t.result.value = false ∧ new.length = 29) ∧
        ((Config.freeWord s.freeNo).getLsbD 0 = false →
          t.result.value = (Config.freeWord (s.freeNo + 1)).getLsbD 0 ∧ new.length = 58))

/-- `43_init_and_detection.md` R205, R206: `CHIP_KIND`, its answer, its events and what it stores.
The supply of free values is assumption log 5, the counter at 0 log 17. -/
def Obligations.ChipKindRunsTheProbe : Prop :=
  ∀ s : State, Undisturbed s → ReadyIdle s →
    ∃ (new : List Event) (cells : Cells) (n : Nat),
      exec .chipKind s = .next { s with
        pin.a := presented s 8#9
        pin.din := true
        x.lda := 8#32
        x.dcnt := 0
        status.busy := false
        status.done := true
        result :=
          { value := !kindAnswer s, kind := if kindAnswer s then .dram4164 else .dram41256 }
        dev.cells := cells
        freeNo := n
        trace := new.reverse ++ s.trace } ∧
      new.length = 44 ∧ otherEvents new = 25 ∧
      waitCycles new = 2 * writeBitWaits Config.machine + readBitWaits Config.machine ∧
      (∀ key, key ≠ targetKey s 8#9 8#9 → key ≠ targetKey s 264#9 264#9 →
        Cells.lookup cells key = Cells.lookup s.dev.cells key) ∧
      (Answers s → Cells.lookup cells (targetKey s 264#9 264#9) = some true) ∧
      (Answers s → targetKey s 264#9 264#9 ≠ targetKey s 8#9 8#9 →
        Cells.lookup cells (targetKey s 8#9 8#9) = some false) ∧
      (s.dev.present = false → cells = s.dev.cells)

/-- `43_init_and_detection.md` R206, R207: the kind probe tells the two chips apart where cell (8, 8)
is healthy, and is misled where it is stuck. It needs no intact address bus. -/
def Obligations.ChipKindTellsTheChip : Prop :=
  ∀ s : State, Undisturbed s → ReadyIdle s → Answers s →
    ∃ t : State, exec .chipKind s = .next t ∧
      (NotStuck s.dev (targetKey s 8#9 8#9) →
        (s.dev.lines = .eight → t.result.value = false ∧ t.result.kind = .dram4164) ∧
        (s.dev.lines = .nine → t.result.value = true ∧ t.result.kind = .dram41256)) ∧
      (Cells.lookup s.dev.stuck (targetKey s 8#9 8#9) = some true → t.result.kind = .dram4164) ∧
      (Cells.lookup s.dev.stuck (targetKey s 8#9 8#9) = some false → t.result.kind = .dram41256)

/-- `43_init_and_detection.md` R209: what detection leaves in the cells of a healthy device. -/
def Obligations.DetectionSideEffects : Prop :=
  ∀ s : State, Undisturbed s → ReadyIdle s → Answers s → AddrInvariant s →
    NotStuck s.dev (cellKey 0#9 0#9) →
    ∃ t u : State, exec .isPresent s = .next t ∧ exec .chipKind s = .next u ∧
      t.dev.cell (cellKey 0#9 0#9) = true ∧
      (∀ key, key ≠ cellKey 0#9 0#9 → t.dev.cell key = s.dev.cell key) ∧
      (s.dev.lines = .eight → u.dev.cell (cellKey 8#9 8#9) = true) ∧
      (s.dev.lines = .nine →
        u.dev.cell (cellKey 8#9 8#9) = false ∧ u.dev.cell (cellKey 264#9 264#9) = true) ∧
      (∀ key, key ≠ cellKey 8#9 8#9 → (s.dev.lines = .nine → key ≠ cellKey 264#9 264#9) →
        u.dev.cell key = s.dev.cell key)

/-! ### The moving-inversions test -/

/-- `44_moving_inversions.md` R221, R222: the rotating register shows the pattern bit of the closed
form at every visit index, by columns in both directions, and the bits of the rule's example. -/
def Obligations.PatternClosedForm : Prop :=
  (∀ (init : Word) (k : Nat), (rotl32^[k] init).getLsbD 0 = patBit init k) ∧
  (∀ (init : Word) (k : Nat), patBit init (k + 32) = patBit init k) ∧
  (∀ (init : Word) (n r c : Nat), 32 ∣ n → c < n →
    patBit init (r * n + c) = patBit init c ∧
      patBit init (n - 1 - c) = init.getLsbD ((c + 1) % 32)) ∧
  (List.range 32).map (patBit 0x3CA5960F#32) =
    [true, false, false, true, true, true, true, false,
     false, true, false, true, false, false, true, false,
     true, true, false, false, true, false, true, true,
     false, false, false, false, false, true, true, true]

/-- `44_moving_inversions.md` R225 to R230, R233, R234: `RUN_TEST` completes, on any device or none. It
ends after sweep 2, 3, 5 or 6, passes exactly where no failure was counted, and leaves the last column
driven. Its record is the one its own samples give, compared visit by visit with the pattern: it counts
the mismatches of the last sweep, and keeps the place of the last one. The counter at 0 is assumption
log 17; that `NLINES` and `SWEEP` keep their values when the test is over, where the spec allows any, is
the model's choice (log 25). -/
def Obligations.RunTestCompletes : Prop :=
  ∀ (lines : BitVec 4) (s : State), legalLines lines = true → Undisturbed s → ReadyIdle s →
    ∃ (t : State) (new : List Event), exec (.runTest lines) s = .next t ∧ ReadyIdle t ∧
      t.events = s.events ++ new ∧
      (samples new).length = (fillSweepsRun t.result.lastSweep + checkSweepsRun t.result.lastSweep) *
        (sideOf lines * sideOf lines) ∧
      sampledTest Config.machine.patternInit (sideOf lines) (samples new) =
        { failCnt := t.x.failCnt
          lfRow := t.x.lfRow
          lfCol := t.x.lfCol
          lastSweep := t.result.lastSweep } ∧
      t.status = { s.status with busy := false, done := true } ∧
      t.x.nlines = lines ∧ t.x.sweep = t.result.lastSweep ∧ t.x.dcnt = 0 ∧
      t.result.value = false ∧ t.result.kind = .unknown ∧
      t.result.outcome = (if t.x.failCnt = 0#32 then .pass else .fail) ∧
      t.result.lastSweep ∈ [2#3, 3#3, 5#3, 6#3] ∧
      (t.x.failCnt = 0#32 → t.result.lastSweep = 6#3 ∧ t.x.lfRow = 0#9 ∧ t.x.lfCol = 0#9) ∧
      t.x.failCnt.toNat ≤ sideOf lines * sideOf lines ∧
      t.x.lfRow.toNat < sideOf lines ∧ t.x.lfCol.toNat < sideOf lines ∧
      t.x.lda = (if t.result.lastSweep.toNat ≤ 3 then BitVec.ofNat 32 (sideOf lines - 1) else 0#32) ∧
      t.pin.a = shown s.pin.a s.x.lda (wired t.x.lda) ∧
      t.host = s.host ∧ t.readData = s.readData

/-- `44_moving_inversions.md` R223 to R230: where a device answers, `RUN_TEST` does to the cells and to
the failure record what the six sweeps of the rules do to cells, by visit index and closed form. -/
def Obligations.RunTestRefinesTheCellTest : Prop :=
  ∀ (lines : BitVec 4) (s : State), legalLines lines = true → Undisturbed s → ReadyIdle s →
    Answers s →
    ∃ t : State, exec (.runTest lines) s = .next t ∧
      t.dev = { s.dev with
        cells := (cellTest s Config.machine.patternInit (sideOf lines)).1.cells } ∧
      t.x.failCnt = (cellTest s Config.machine.patternInit (sideOf lines)).1.failCnt ∧
      t.x.lfRow = (cellTest s Config.machine.patternInit (sideOf lines)).1.lfRow ∧
      t.x.lfCol = (cellTest s Config.machine.patternInit (sideOf lines)).1.lfCol ∧
      t.result.lastSweep = (cellTest s Config.machine.patternInit (sideOf lines)).2 ∧
      t.freeNo = s.freeNo

/-- `44_moving_inversions.md` R235 and the second half of R237: on a device none of whose covered
cells is stuck, and which has at least as many lines as the test is told, the test passes, and the
covered cells hold the complemented descending pattern. -/
def Obligations.RunTestPassesOnAHealthyDevice : Prop :=
  ∀ (lines : BitVec 4) (s : State), legalLines lines = true → Undisturbed s → ReadyIdle s →
    Answers s → AddrInvariant s → lines.toNat ≤ lineCount s.dev.lines →
    (∀ r < sideOf lines, ∀ c < sideOf lines, NotStuck s.dev (r * 512 + c)) →
    ∃ t : State, exec (.runTest lines) s = .next t ∧
      t.result = { outcome := .pass, lastSweep := 6#3 } ∧
      t.x.failCnt = 0#32 ∧ t.x.failLocWord = 0#32 ∧ t.x.lda = 0#32 ∧
      (∀ r < sideOf lines, ∀ c < sideOf lines, t.dev.cell (r * 512 + c) =
        !Config.machine.patternInit.getLsbD ((c + 1) % 32)) ∧
      (∀ key, (∀ r < sideOf lines, ∀ c < sideOf lines, key ≠ r * 512 + c) →
        t.dev.cell key = s.dev.cell key)

/-- `44_moving_inversions.md` R236: exactly one covered cell is stuck. The test fails with one
failure, at that cell, in sweep 2 or 3 by the stuck value, and every other cell was complemented. -/
def Obligations.RunTestFindsOneStuckCell : Prop :=
  ∀ (lines : BitVec 4) (s : State) (row col : Nat) (v : Bit), legalLines lines = true →
    Undisturbed s → ReadyIdle s → Answers s → AddrInvariant s →
    LineCountMatches s lines → row < sideOf lines → col < sideOf lines →
    Cells.lookup s.dev.stuck (row * 512 + col) = some v →
    (∀ r < sideOf lines, ∀ c < sideOf lines, (r, c) ≠ (row, col) → NotStuck s.dev (r * 512 + c)) →
    ∃ t : State, exec (.runTest lines) s = .next t ∧
      t.result.outcome = .fail ∧ t.x.failCnt = 1#32 ∧
      t.x.lfRow = BitVec.ofNat 9 row ∧ t.x.lfCol = BitVec.ofNat 9 col ∧
      t.result.lastSweep = (if v = patBit Config.machine.patternInit col then 3#3 else 2#3) ∧
      (∀ r < sideOf lines, ∀ c < sideOf lines, (r, c) ≠ (row, col) →
        t.dev.cell (r * 512 + c) = !patBit Config.machine.patternInit c)

/-- `44_moving_inversions.md` R237, first half: `RUN_TEST 9` on a healthy 8-line device. -/
def Obligations.RunTestWithTooManyLines : Prop :=
  ∀ s : State, Undisturbed s → ReadyIdle s → Answers s → s.dev.lines = .eight →
    (∀ key, NotStuck s.dev key) →
    ∃ t : State, exec (.runTest 9#4) s = .next t ∧
      t.result = { outcome := .fail, lastSweep := 2#3 } ∧ t.x.failCnt = 196608#32 ∧
      t.x.failLocWord = 0x01FF01FF#32

/-- `44_moving_inversions.md` R238: the events, the other events and the wait cycles of a test, on any
device or none, by the sweeps it ran and the page writes its mismatches left out. A passing test ran
two sweeps of each kind and left out none. -/
def Obligations.RunTestEventTotals : Prop :=
  ∀ (lines : BitVec 4) (s : State), legalLines lines = true → Undisturbed s → ReadyIdle s →
    ∃ (t : State) (new : List Event), exec (.runTest lines) s = .next t ∧
      t.events = s.events ++ new ∧
      new.length + 9 * skippedWrites t.result.lastSweep t.x.failCnt = sideOf lines *
        (fillSweepsRun t.result.lastSweep * (6 + 9 * sideOf lines) +
          fillSweepsRun t.result.lastSweep * (6 + 17 * sideOf lines) +
          checkSweepsRun t.result.lastSweep * (6 + 8 * sideOf lines)) ∧
      otherEvents new + 6 * skippedWrites t.result.lastSweep t.x.failCnt = sideOf lines *
        (fillSweepsRun t.result.lastSweep * (3 + 6 * sideOf lines) +
          fillSweepsRun t.result.lastSweep * (3 + 10 * sideOf lines) +
          checkSweepsRun t.result.lastSweep * (3 + 4 * sideOf lines)) ∧
      waitCycles new +
          pageWriteWaits Config.machine * skippedWrites t.result.lastSweep t.x.failCnt =
        sideOf lines *
          ((2 * fillSweepsRun t.result.lastSweep + checkSweepsRun t.result.lastSweep) *
              (openRowWaits Config.machine + closeRowWaits Config.machine) +
            sideOf lines * (2 * fillSweepsRun t.result.lastSweep * pageWriteWaits Config.machine +
              (fillSweepsRun t.result.lastSweep + checkSweepsRun t.result.lastSweep) *
                pageReadWaits Config.machine))

/-! ### Errors and faults -/

/-- `60_exceptions.md` R264 to R266, R270, R271: the checks of a decoded operation other than
`INIT`, the first failing one wins; and a line count that is neither 8 nor 9 (assumption log 18).
That `RESULT` is 0 in `exec` taken alone is log 24. -/
def Obligations.StateChecksInOrder : Prop :=
  ∀ (i : Instr) (s : State),
    (i.wellFormed = true → i ≠ .init →
      (s.status.fault = true → exec i s = .next { s with
        status.cmdErr := true
        status.errCode := some .faultLocked
        status.done := true
        result := {} }) ∧
      (s.status.fault = false → s.status.inited = false → exec i s = .next { s with
        status.cmdErr := true
        status.errCode := some .notInitialised
        status.done := true
        result := {} }) ∧
      (s.status.fault = false → s.status.inited = true →
        (s.seq = .idle ∧ i.opcode ∈ [.strobeCol, .pageWrite, .pageRead, .closeRow]) ∨
        (s.seq = .rowOpen ∧ i.opcode ∈
          [.openRow, .writeBitEarly, .readBit, .isPresent, .chipKind, .runTest]) →
        exec i s = .next { s with
          status.cmdErr := true
          status.errCode := some .seqViolation
          status.done := true
          result := {} })) ∧
    (i.wellFormed = false → exec i s = .next { s with
      status.cmdErr := true
      status.errCode := some .badOperand
      status.done := true
      result := {} })

/-- `60_exceptions.md` R261, R271 at the step: a `CMD` write that ends with `CMD_ERR` has emitted no
event and changed no pin, register or device state: only `STATUS`, and the `RESULT` every write
clears. That `RESULT` is 0 is log 24. -/
def Obligations.CommandErrorsChangeOnlyStatus : Prop :=
  ∀ (s t : State) (later : List HostAccess) (w : Word), s.status.busy = false →
    s.host = .write .cmd w :: later → step s = .next t → t.status.cmdErr = true →
    ∃ e : CmdErr, t = { s with
      host := later
      status.done := true
      status.cmdErr := true
      status.errCode := some e
      result := {} }

/-- `60_exceptions.md` R272 at the two failing points of `OPEN_ROW`: a failed toggle leaves the
lines and the remembered address free; a failed row strobe leaves the pin at a free level, to which
the device reacts (assumption logs 10 and 11). The free values are those of assumption log 5. That
`RESULT` is 0 in `exec` taken alone is log 24, the counter at 0 log 17. -/
def Obligations.FailedEventsOfOpenRow : Prop :=
  ∀ (row : Line) (s : State) (later : List Nat), HostSilent s → ReadyIdle s →
    (s.ioFails = 0 :: later → exec (.openRow row) s = .next { s with
      pin.a := wired (Config.freeWord s.freeNo)
      x.lda := Config.freeWord (s.freeNo + 1)
      seq := SeqState.ofCode ((Config.freeWord (s.freeNo + 2)).extractLsb' 0 2)
      status.busy := false
      status.done := true
      status.fault := true
      status.faultSeen := true
      status.faultCode := some .ioFault
      result := {}
      ioFails := later
      freeNo := s.freeNo + 3 }) ∧
    (s.ioFails = 1 :: later → exec (.openRow row) s = .next { s with
      pin.a := presented s row
      pin.rasN := (Config.freeWord s.freeNo).getLsbD 0
      x.lda := lineAddress row
      x.dcnt := 0
      seq := SeqState.ofCode ((Config.freeWord (s.freeNo + 1)).extractLsb' 0 2)
      status.busy := false
      status.done := true
      status.fault := true
      status.faultSeen := true
      status.faultCode := some .ioFault
      result := {}
      dev.rowLatch :=
        if s.dev.present && !(Config.freeWord s.freeNo).getLsbD 0 then
          some (seenLines s.dev.lines (presented s row))
        else none
      ioFails := later
      freeNo := s.freeNo + 2
      trace := .wait (cAs Config.machine) :: .addrToggle (lineAddress row ^^^ s.x.lda)
        :: s.trace })

/-- `60_exceptions.md` R272: an operation that ends with a hardware-signal fault delivers no result,
records the fault, is over, and, unless it is `RUN_TEST`, leaves the test registers alone. Failures
are the field `ioFails` (assumption log 4); that `RESULT` is 0 is log 24, that the hidden test registers keep
their values log 25. -/
def Obligations.FaultEntry : Prop :=
  ∀ (i : Instr) (s t : State), (i = .init ∨ s.status.fault = false) → HostWaits s →
    exec i s = .next t → t.status.fault = true →
    t.result = {} ∧
    t.status = { s.status with
      busy := false
      done := true
      fault := true
      faultSeen := true
      faultCode := some .ioFault } ∧
    ((∀ lines, i ≠ .runTest lines) →
      t.x = { s.x with lda := t.x.lda, dcnt := t.x.dcnt })

/-- `60_exceptions.md` R272, `42_protocol_sequencer.md` R190: where the environment fails an event,
the events before it are those of the operation that nothing fails, and none follows. Failures are
the field `ioFails` (assumption log 4); that the failed event is not listed, and an edge outside the
protocol it may reach is not refused, is log 10. -/
def Obligations.FailedOperationEmitsAPrefix : Prop :=
  ∀ (i : Instr) (s t u : State) (n : Nat) (later : List Nat), Undisturbed s →
    exec i s = .next t → exec i { s with ioFails := n :: later } = .next u →
    (∃ rest, t.events = u.events ++ rest) ∧
    (u.status.fault = t.status.fault → u = { t with ioFails := u.ioFails })

/-- `60_exceptions.md` R267, R273, `10_state.md` R29, R38: `FAULT_SEEN`, `FAULT_CODE`, `OVERRUN` and
`INITED` are never cleared by a step, and `FAULT` by a command word of `INIT` only. -/
def Obligations.FaultRecordIsKept : Prop :=
  ∀ s t : State, step s = .next t →
    (s.status.faultSeen = true → t.status.faultSeen = true) ∧
    (s.status.faultCode.isSome = true → t.status.faultCode.isSome = true) ∧
    (s.status.overrun = true → t.status.overrun = true) ∧
    (s.status.inited = true → t.status.inited = true) ∧
    (s.status.fault = true → t.status.fault = false →
      ∃ later, s.host = .write .cmd 0x20000000#32 :: later)

/-! ### Invariants and frames -/

/-- `10_state.md` R47: the values reset gives. The levels and test registers the rule leaves
unspecified are the model's opaque `Config.powerUp` (assumption log 6) and are not stated here. -/
def Obligations.ResetValues : Prop :=
  State.reset.pin.a = 0#9 ∧ State.reset.x.lda = 0#32 ∧ State.reset.seq = .idle ∧
  State.reset.x.dcnt = 0 ∧ State.reset.x.failCnt = 0#32 ∧ State.reset.x.lfRow = 0#9 ∧
  State.reset.x.lfCol = 0#9 ∧ State.reset.idleReadWord .status = 0#32 ∧
  State.reset.idleReadWord .result = 0#32 ∧ State.reset.dev.rowLatch = none ∧
  State.reset.dev.drive = none ∧ (∀ key, State.reset.dev.cell key = Config.cells0 key)

/-- The machine's invariant holds at reset. -/
def Obligations.InvariantAtReset : Prop := Inv State.reset

/-- Every step keeps the machine's invariant: at rest between steps, sound device, consistent error
records, a verdict on the chip's timing that is the one of its widths (log 9), address invariant
until a fault, protocol phase. What a failed pin event leaves of the device is the model's choice
(log 10). -/
def Obligations.StepKeepsTheInvariant : Prop :=
  ∀ s t : State, Inv s → step s = .next t → Inv t

/-- `20_memory.md` R72, `60_exceptions.md` R271, R272: from a state of the invariant a step always
gives a next state, whatever the host writes and the environment answers: no event outside the
protocol is ever emitted, and neither a command error nor a fault stops the machine. Where the
environment fails a pin event and its free level is an edge outside the protocol, which R72 would
refuse, that the step goes on with the device upset and the event not emitted is the model's choice
(assumption log 10). -/
def Obligations.InvariantStatesAlwaysStep : Prop :=
  ∀ s : State, Inv s → ∃ t, step s = .next t

/-- `10_state.md` R27, `41_address_bus.md` R166, `70_reset_and_hazards.md` R303: where no event fails,
a step keeps the error pattern of the address lines, in every state. So `AddrInvariant` is kept, and
a lost one is never restored. -/
def Obligations.AddressErrorIsKept : Prop :=
  ∀ s t : State, NoIoFault s → step s = .next t →
    t.pin.a ^^^ wired t.x.lda = s.pin.a ^^^ wired s.x.lda ∧ (AddrInvariant s ↔ AddrInvariant t)

/-- `00_scope.md` R6: no step changes a parameter of the device. That no step swaps the chip is the
model's choice (assumption log 8); the widths it needs and the verdict on its timing are fields of
log 9. -/
def Obligations.DeviceParametersNeverChange : Prop :=
  ∀ s t : State, step s = .next t →
    t.dev.present = s.dev.present ∧ t.dev.lines = s.dev.lines ∧ t.dev.stuck = s.dev.stuck ∧
      t.dev.least = s.dev.least ∧ t.dev.timingMet = s.dev.timingMet

/-- `20_memory.md` R80, `40_delay_and_timing_profile.md` R133, R135: a step only adds events after
those emitted, and every wait among them is one of the eight configured counts. -/
def Obligations.OnlyConfiguredWaits : Prop :=
  ∀ s t : State, step s = .next t →
    ∃ new, t.events = s.events ++ new ∧
      ∀ c, Event.wait c ∈ new → ∃ sel, c = selected Config.machine sel

/-- `10_state.md` R31, R40, `30_encoding.md` R117: only `RUN_TEST` writes the test registers. That
the hidden ones keep their values between tests is the model's choice (log 25). -/
def Obligations.TestRegistersBelongToRunTest : Prop :=
  ∀ (i : Instr) (s t : State), (∀ lines, i ≠ .runTest lines) → exec i s = .next t →
    t.x = { s.x with lda := t.x.lda, dcnt := t.x.dcnt }

/-- `20_memory.md` R74, the operations with no effect on cells: they leave every cell as it was,
whatever the environment answers. That a failed pin event at an edge outside the protocol keeps the
cells is the model's choice (assumption log 10). -/
def Obligations.NonStoringOperationsKeepEveryCell : Prop :=
  ∀ (i : Instr) (s t : State), Inv s →
    i.opcode ∈ [.delay, .addrSet, .openRow, .strobeCol, .closeRow, .pageRead, .readBit, .init] →
    exec i s = .next t → ∀ key, t.dev.cell key = s.dev.cell key

/-- `20_memory.md` R74, the operations that store: every cell keeps its bit but the ones they store
to, computed as the operation computes them, whatever the environment answers. That a chip whose
timing is not met or that is upset, and a failed event, change no other cell is the model's choice
(assumption logs 9 and 10). -/
def Obligations.StoresReachOnlyTheirCells : Prop :=
  (∀ (col : Line) (b : Bit) (s t : State), Inv s → exec (.pageWrite col b) s = .next t →
    ∀ key, key ≠ pageKey s col → t.dev.cell key = s.dev.cell key) ∧
  (∀ (row col : Line) (b : Bit) (s t : State), Inv s → exec (.writeBitEarly row col b) s = .next t →
    ∀ key, key ≠ targetKey s row col → t.dev.cell key = s.dev.cell key) ∧
  (∀ s t : State, Inv s → exec .isPresent s = .next t →
    ∀ key, key ≠ targetKey s 0#9 0#9 → t.dev.cell key = s.dev.cell key) ∧
  (∀ s t : State, Inv s → exec .chipKind s = .next t →
    ∀ key, key ≠ targetKey s 8#9 8#9 → key ≠ targetKey s 264#9 264#9 →
      t.dev.cell key = s.dev.cell key) ∧
  (∀ (lines : BitVec 4) (s t : State), Inv s → exec (.runTest lines) s = .next t →
    ∀ key, (∀ r < sideOf lines, ∀ c < sideOf lines,
      key ≠ targetKey s (BitVec.ofNat 9 r) (BitVec.ofNat 9 c)) →
      t.dev.cell key = s.dev.cell key)

/-! ### Timing -/

/-- `70_reset_and_hazards.md` R310 to R312. Each pulse and gap of the first twelve rows of R311, by
its lower bound in cycles, lasts at least the figure it must cover: the chip's own least width, where
the profile fits the chip and the clock divides the second (R305, R304). For the datasheet constants
themselves the second alone is needed. No figure is covered by row 13, the gap after `STROBE_COL`
(R306), or by the first gap of `INIT`, which are stated by their length only; the last five rows have
none. The bounds of all eighteen rows are the lengths of the intervals in the events the operations
emit. What an event list lasts at least is its wait cycles and one cycle for each other event
(log 16). -/
def Obligations.PulsesCoverTheDatasheet : Prop :=
  (∀ (K : Params) (least : Datasheet), TimingMet K least →
    lastsAtLeast K (cRas K + 1) least.tRas ∧
    lastsAtLeast K (cRcd K + cAs K + cCas K + cRest K + 4) least.tRas ∧
    lastsAtLeast K (cRcd K + cAs K + cCas K + cXs K + cRest K + 5) least.tRas ∧
    lastsAtLeast K (cRp K + 1) least.tRp ∧
    lastsAtLeast K (cRp K + cAs K + 2) least.tRp ∧
    lastsAtLeast K (cRcd K + cAs K + 2) least.tRcd ∧
    lastsAtLeast K (cCas K + 1) least.tCas ∧
    lastsAtLeast K (cCas K + cXs K + 2) least.tCas ∧
    lastsAtLeast K (cCp K + cAs K + 2) least.tCp ∧
    lastsAtLeast K (cCp K + cAs K + 3) least.tCp ∧
    lastsAtLeast K (cCp K + cAs K + 4) least.tCp ∧
    lastsAtLeast K (cCp K + cAs K + 5) least.tCp) ∧
  (∀ K : Params, TimingMet K K.ds ↔ ClockDivides K) ∧
  (∀ s : State, Undisturbed s → Emits .init s fun new =>
    intervals (Event.lowers .rasN) (Event.raises .rasN) new =
      List.replicate 8 (cRas Config.machine + 1) ∧
    intervals (Event.raises .rasN) (Event.lowers .rasN) new =
      2 :: List.replicate 7 (cRp Config.machine + 1)) ∧
  (∀ (row col : Line) (b : Bit) (s : State), Undisturbed s → ReadyIdle s →
    (Emits (.writeBitEarly row col b) s fun new =>
      intervals (Event.lowers .rasN) (Event.raises .rasN) new = [cRcd Config.machine +
        cAs Config.machine + cCas Config.machine + cRest Config.machine + 4] ∧
      intervals (Event.lowers .rasN) (Event.lowers .casN) new =
        [cRcd Config.machine + cAs Config.machine + 2] ∧
      intervals (Event.lowers .casN) (Event.raises .casN) new = [cCas Config.machine + 1] ∧
      intervals Event.toggles Event.strobes new =
        [cAs Config.machine + 1, cAs Config.machine + 1]) ∧
    (Emits (.readBit row col) s fun new =>
      intervals (Event.lowers .rasN) (Event.raises .rasN) new = [cRcd Config.machine +
        cAs Config.machine + cCas Config.machine + cXs Config.machine + cRest Config.machine + 5] ∧
      intervals (Event.lowers .rasN) (Event.lowers .casN) new =
        [cRcd Config.machine + cAs Config.machine + 2] ∧
      intervals (Event.lowers .casN) (Event.raises .casN) new =
        [cCas Config.machine + cXs Config.machine + 2] ∧
      intervals (Event.lowers .casN) Event.samples new =
        [cCas Config.machine + cXs Config.machine + 1] ∧
      intervals (Event.lowers .rasN) Event.samples new = [cRcd Config.machine +
        cAs Config.machine + cCas Config.machine + cXs Config.machine + 3]) ∧
    (EmitBoth (.openRow row) (.strobeCol col) s fun new =>
      intervals (Event.lowers .rasN) (Event.lowers .casN) new =
        [cRcd Config.machine + cAs Config.machine + 2])) ∧
  (∀ (row c d : Line) (b e : Bit) (s : State), Undisturbed s → ReadyOpen s →
    (EmitBoth .closeRow (.openRow row) s fun new =>
      intervals (Event.raises .rasN) (Event.lowers .rasN) new =
        [cRp Config.machine + cAs Config.machine + 2]) ∧
    (EmitBoth (.pageRead c) (.pageRead d) s fun new =>
      intervals (Event.raises .casN) (Event.lowers .casN) new =
        [cCp Config.machine + cAs Config.machine + 2]) ∧
    (EmitBoth (.pageWrite c b) (.pageRead d) s fun new =>
      intervals (Event.raises .casN) (Event.lowers .casN) new =
        [cCp Config.machine + cAs Config.machine + 3]) ∧
    (EmitBoth (.pageRead c) (.pageWrite d e) s fun new =>
      intervals (Event.raises .casN) (Event.lowers .casN) new =
        [cCp Config.machine + cAs Config.machine + 4]) ∧
    (EmitBoth (.pageWrite c b) (.pageWrite d e) s fun new =>
      intervals (Event.raises .casN) (Event.lowers .casN) new =
        [cCp Config.machine + cAs Config.machine + 5]) ∧
    (EmitBoth (.strobeCol c) (.pageRead d) s fun new =>
      intervals (Event.raises .casN) (Event.lowers .casN) new = [cAs Config.machine + 2]) ∧
    (Emits (.pageWrite c b) s fun new =>
      intervals (Event.lowers .weN) (Event.lowers .casN) new = [cAs Config.machine + 3] ∧
      intervals (Event.drives .din) (Event.lowers .casN) new = [cAs Config.machine + 2])) ∧
  (∀ l : List Event, leastCycles l = waitCycles l + otherEvents l)
end

