-- ==== Sys2Proof/Laws/Cells.lean ====
section
/-!
SUPPORT. The cells of the device as a memory: a read after a write, the canonical form, and which
keys name a cell of a chip.
-/

namespace Sys2Proof.Machine

open Sys2Proof.Safety
open Sys2Proof.Config (DevLines)

/-- A read after a write of the same cell gives the bit written. -/
@[simp] theorem Cells.lookup_store_same (cs : Cells) (k : Nat) (b : Bit) :
    Cells.lookup (Cells.store cs k b) k = some b := by
  induction cs with
  | nil => simp [Cells.store, Cells.lookup]
  | cons e rest ih =>
    obtain ⟨k', v⟩ := e
    by_cases h1 : k < k'
    · simp [Cells.store, Cells.lookup, h1]
    · by_cases h2 : k = k'
      · simp [Cells.store, Cells.lookup, h2]
      · simp [Cells.store, Cells.lookup, h1, h2, Ne.symm h2, ih]

/-- A write leaves every other cell alone. -/
theorem Cells.lookup_store_other (cs : Cells) {k j : Nat} (b : Bit) (h : j ≠ k) :
    Cells.lookup (Cells.store cs k b) j = Cells.lookup cs j := by
  induction cs with
  | nil => simp [Cells.store, Cells.lookup, Ne.symm h]
  | cons e rest ih =>
    obtain ⟨k', v⟩ := e
    by_cases h1 : k < k'
    · simp [Cells.store, Cells.lookup, h1, Ne.symm h]
    · by_cases h2 : k = k'
      · subst h2
        simp [Cells.store, Cells.lookup, Ne.symm h]
      · simp [Cells.store, Cells.lookup, h1, h2, ih]

/-- The second of two writes of one cell stands. -/
@[simp] theorem Cells.store_store (cs : Cells) (k : Nat) (a b : Bit) :
    Cells.store (Cells.store cs k a) k b = Cells.store cs k b := by
  induction cs with
  | nil => simp [Cells.store]
  | cons e rest ih =>
    obtain ⟨k', v⟩ := e
    by_cases h1 : k < k'
    · simp [Cells.store, h1]
    · by_cases h2 : k = k'
      · simp [Cells.store, h2]
      · simp [Cells.store, h1, h2, ih]

/-- An entry after a write is the one written or was there before. -/
theorem Cells.mem_store {cs : Cells} {k : Nat} {b : Bit} {e : Nat × Bit}
    (h : e ∈ Cells.store cs k b) : e = (k, b) ∨ e ∈ cs := by
  induction cs with
  | nil => simpa [Cells.store] using h
  | cons e' rest ih =>
    obtain ⟨k', v⟩ := e'
    by_cases h1 : k < k'
    · simpa [Cells.store, h1] using h
    · by_cases h2 : k = k'
      · subst h2
        simp only [Cells.store, lt_irrefl, if_false, if_true, List.mem_cons] at h
        rcases h with h | h
        · exact .inl h
        · exact .inr (List.mem_cons_of_mem _ h)
      · simp only [Cells.store, h1, h2, if_false, List.mem_cons] at h
        rcases h with h | h
        · exact .inr (by simp [h])
        · exact (ih h).imp id (List.mem_cons_of_mem _)

/-- The canonical form says that the keys rise strictly. -/
theorem Cells.wf_iff (cs : Cells) : Cells.wf cs = true ↔ (cs.map Prod.fst).Pairwise (· < ·) := by
  induction cs with
  | nil => simp [Cells.wf]
  | cons e rest ih =>
    obtain ⟨k, v⟩ := e
    cases rest with
    | nil => simp [Cells.wf]
    | cons e' rest' =>
      obtain ⟨k', v'⟩ := e'
      rw [Cells.wf, Bool.and_eq_true, ih, decide_eq_true_iff]
      simp only [List.map_cons, List.pairwise_cons, List.mem_cons, forall_eq_or_imp]
      constructor
      · rintro ⟨h, h1, h2⟩
        exact ⟨⟨h, fun a ha => lt_trans h (h1 a ha)⟩, h1, h2⟩
      · rintro ⟨⟨h, _⟩, h1, h2⟩
        exact ⟨h, h1, h2⟩

/-- A write keeps the canonical form. -/
theorem Cells.store_wf {cs : Cells} (k : Nat) (b : Bit) (h : Cells.wf cs = true) :
    Cells.wf (Cells.store cs k b) = true := by
  rw [Cells.wf_iff] at h ⊢
  induction cs with
  | nil => simp [Cells.store]
  | cons e rest ih =>
    obtain ⟨k', v⟩ := e
    simp only [List.map_cons, List.pairwise_cons, List.forall_mem_map] at h
    by_cases h1 : k < k'
    · simp only [Cells.store, h1, if_true, List.map_cons, List.pairwise_cons, List.mem_cons,
        List.forall_mem_map]
      refine ⟨?_, h.1, h.2⟩
      rintro a (rfl | ha)
      · exact h1
      · obtain ⟨e, he, rfl⟩ := List.mem_map.mp ha
        exact lt_trans h1 (h.1 e he)
    · by_cases h2 : k = k'
      · subst h2
        simp only [Cells.store, lt_irrefl, if_false, if_true, List.map_cons, List.pairwise_cons,
          List.forall_mem_map]
        exact h
      · simp only [Cells.store, h1, h2, if_false, List.map_cons, List.pairwise_cons,
          List.forall_mem_map]
        refine ⟨fun a ha => ?_, ih h.2⟩
        rcases Cells.mem_store ha with rfl | ha
        · exact lt_of_le_of_ne (not_lt.mp h1) (Ne.symm h2)
        · exact h.1 a ha

/-- A key gives back its row and its column. -/
@[simp] theorem cellKey_div (r c : Line) : cellKey r c / 512 = r.toNat := by
  have := c.isLt
  simp only [cellKey]; omega

@[simp] theorem cellKey_mod (r c : Line) : cellKey r c % 512 = c.toNat := by
  have := c.isLt
  simp only [cellKey]; omega

/-- What a chip sees of nine lines is one of its own addresses. -/
theorem seenLines_lt (l : DevLines) (v : Line) : (seenLines l v).toNat < 2 ^ lineCount l := by
  cases l with
  | eight =>
    have h : (v &&& 0x0FF#9).toNat ≤ (0x0FF#9).toNat := by
      rw [BitVec.toNat_and]; exact Nat.and_le_right
    have h2 : (0x0FF#9).toNat = 255 := rfl
    simp only [seenLines, lineCount]; omega
  | nine => exact v.isLt

end Sys2Proof.Machine
end

