-- ==== Sys2Proof/Laws/State.lean ====
section
/-!
SUPPORT. One lemma per field of the state per named update of it, true by unfolding the update once.
-/

namespace Sys2Proof.Machine

/-! ### `State.emit` -/

@[simp] theorem State.emit_pin (s : State) (e : Event) : (s.emit e).pin = s.pin := rfl
@[simp] theorem State.emit_x (s : State) (e : Event) : (s.emit e).x = s.x := rfl
@[simp] theorem State.emit_seq (s : State) (e : Event) : (s.emit e).seq = s.seq := rfl
@[simp] theorem State.emit_status (s : State) (e : Event) : (s.emit e).status = s.status := rfl
@[simp] theorem State.emit_result (s : State) (e : Event) : (s.emit e).result = s.result := rfl
@[simp] theorem State.emit_dev (s : State) (e : Event) : (s.emit e).dev = s.dev := rfl
@[simp] theorem State.emit_trace (s : State) (e : Event) : (s.emit e).trace = e :: s.trace := rfl
@[simp] theorem State.emit_host (s : State) (e : Event) : (s.emit e).host = s.host := rfl
@[simp] theorem State.emit_overlap (s : State) (e : Event) : (s.emit e).overlap = s.overlap := rfl
@[simp] theorem State.emit_readData (s : State) (e : Event) : (s.emit e).readData = s.readData := rfl
@[simp] theorem State.emit_ioFails (s : State) (e : Event) : (s.emit e).ioFails = s.ioFails := rfl
@[simp] theorem State.emit_freeNo (s : State) (e : Event) : (s.emit e).freeNo = s.freeNo := rfl

/-! ### `State.withSeq` -/

@[simp] theorem State.withSeq_pin (s : State) (q : SeqState) : (s.withSeq q).pin = s.pin := rfl
@[simp] theorem State.withSeq_x (s : State) (q : SeqState) : (s.withSeq q).x = s.x := rfl
@[simp] theorem State.withSeq_seq (s : State) (q : SeqState) : (s.withSeq q).seq = q := rfl
@[simp] theorem State.withSeq_status (s : State) (q : SeqState) : (s.withSeq q).status = s.status := rfl
@[simp] theorem State.withSeq_result (s : State) (q : SeqState) : (s.withSeq q).result = s.result := rfl
@[simp] theorem State.withSeq_dev (s : State) (q : SeqState) : (s.withSeq q).dev = s.dev := rfl
@[simp] theorem State.withSeq_trace (s : State) (q : SeqState) : (s.withSeq q).trace = s.trace := rfl
@[simp] theorem State.withSeq_host (s : State) (q : SeqState) : (s.withSeq q).host = s.host := rfl
@[simp] theorem State.withSeq_overlap (s : State) (q : SeqState) : (s.withSeq q).overlap = s.overlap := rfl
@[simp] theorem State.withSeq_readData (s : State) (q : SeqState) : (s.withSeq q).readData = s.readData := rfl
@[simp] theorem State.withSeq_ioFails (s : State) (q : SeqState) : (s.withSeq q).ioFails = s.ioFails := rfl
@[simp] theorem State.withSeq_freeNo (s : State) (q : SeqState) : (s.withSeq q).freeNo = s.freeNo := rfl

/-! ### `State.withIoFails` -/

@[simp] theorem State.withIoFails_pin (s : State) (l : List Nat) : (s.withIoFails l).pin = s.pin := rfl
@[simp] theorem State.withIoFails_x (s : State) (l : List Nat) : (s.withIoFails l).x = s.x := rfl
@[simp] theorem State.withIoFails_seq (s : State) (l : List Nat) : (s.withIoFails l).seq = s.seq := rfl
@[simp] theorem State.withIoFails_status (s : State) (l : List Nat) : (s.withIoFails l).status = s.status := rfl
@[simp] theorem State.withIoFails_result (s : State) (l : List Nat) : (s.withIoFails l).result = s.result := rfl
@[simp] theorem State.withIoFails_dev (s : State) (l : List Nat) : (s.withIoFails l).dev = s.dev := rfl
@[simp] theorem State.withIoFails_trace (s : State) (l : List Nat) : (s.withIoFails l).trace = s.trace := rfl
@[simp] theorem State.withIoFails_host (s : State) (l : List Nat) : (s.withIoFails l).host = s.host := rfl
@[simp] theorem State.withIoFails_overlap (s : State) (l : List Nat) : (s.withIoFails l).overlap = s.overlap := rfl
@[simp] theorem State.withIoFails_readData (s : State) (l : List Nat) : (s.withIoFails l).readData = s.readData := rfl
@[simp] theorem State.withIoFails_ioFails (s : State) (l : List Nat) : (s.withIoFails l).ioFails = l := rfl
@[simp] theorem State.withIoFails_freeNo (s : State) (l : List Nat) : (s.withIoFails l).freeNo = s.freeNo := rfl

/-! ### `State.withLda` -/

@[simp] theorem State.withLda_pin (s : State) (a : Word) : (s.withLda a).pin = s.pin := rfl
@[simp] theorem State.withLda_x_lda (s : State) (a : Word) :
    (s.withLda a).x.lda = a := rfl
@[simp] theorem State.withLda_x_dcnt (s : State) (a : Word) :
    (s.withLda a).x.dcnt = s.x.dcnt := rfl
@[simp] theorem State.withLda_x_nlines (s : State) (a : Word) :
    (s.withLda a).x.nlines = s.x.nlines := rfl
@[simp] theorem State.withLda_x_sweep (s : State) (a : Word) :
    (s.withLda a).x.sweep = s.x.sweep := rfl
@[simp] theorem State.withLda_x_row (s : State) (a : Word) :
    (s.withLda a).x.row = s.x.row := rfl
@[simp] theorem State.withLda_x_col (s : State) (a : Word) :
    (s.withLda a).x.col = s.x.col := rfl
@[simp] theorem State.withLda_x_pat (s : State) (a : Word) :
    (s.withLda a).x.pat = s.x.pat := rfl
@[simp] theorem State.withLda_x_failCnt (s : State) (a : Word) :
    (s.withLda a).x.failCnt = s.x.failCnt := rfl
@[simp] theorem State.withLda_x_lfRow (s : State) (a : Word) :
    (s.withLda a).x.lfRow = s.x.lfRow := rfl
@[simp] theorem State.withLda_x_lfCol (s : State) (a : Word) :
    (s.withLda a).x.lfCol = s.x.lfCol := rfl
@[simp] theorem State.withLda_seq (s : State) (a : Word) : (s.withLda a).seq = s.seq := rfl
@[simp] theorem State.withLda_status (s : State) (a : Word) : (s.withLda a).status = s.status := rfl
@[simp] theorem State.withLda_result (s : State) (a : Word) : (s.withLda a).result = s.result := rfl
@[simp] theorem State.withLda_dev (s : State) (a : Word) : (s.withLda a).dev = s.dev := rfl
@[simp] theorem State.withLda_trace (s : State) (a : Word) : (s.withLda a).trace = s.trace := rfl
@[simp] theorem State.withLda_host (s : State) (a : Word) : (s.withLda a).host = s.host := rfl
@[simp] theorem State.withLda_overlap (s : State) (a : Word) : (s.withLda a).overlap = s.overlap := rfl
@[simp] theorem State.withLda_readData (s : State) (a : Word) : (s.withLda a).readData = s.readData := rfl
@[simp] theorem State.withLda_ioFails (s : State) (a : Word) : (s.withLda a).ioFails = s.ioFails := rfl
@[simp] theorem State.withLda_freeNo (s : State) (a : Word) : (s.withLda a).freeNo = s.freeNo := rfl

/-! ### `State.waited` -/

@[simp] theorem State.waited_pin (s : State) : (s.waited).pin = s.pin := rfl
@[simp] theorem State.waited_x_lda (s : State) :
    (s.waited).x.lda = s.x.lda := rfl
@[simp] theorem State.waited_x_dcnt (s : State) :
    (s.waited).x.dcnt = 0 := rfl
@[simp] theorem State.waited_x_nlines (s : State) :
    (s.waited).x.nlines = s.x.nlines := rfl
@[simp] theorem State.waited_x_sweep (s : State) :
    (s.waited).x.sweep = s.x.sweep := rfl
@[simp] theorem State.waited_x_row (s : State) :
    (s.waited).x.row = s.x.row := rfl
@[simp] theorem State.waited_x_col (s : State) :
    (s.waited).x.col = s.x.col := rfl
@[simp] theorem State.waited_x_pat (s : State) :
    (s.waited).x.pat = s.x.pat := rfl
@[simp] theorem State.waited_x_failCnt (s : State) :
    (s.waited).x.failCnt = s.x.failCnt := rfl
@[simp] theorem State.waited_x_lfRow (s : State) :
    (s.waited).x.lfRow = s.x.lfRow := rfl
@[simp] theorem State.waited_x_lfCol (s : State) :
    (s.waited).x.lfCol = s.x.lfCol := rfl
@[simp] theorem State.waited_seq (s : State) : (s.waited).seq = s.seq := rfl
@[simp] theorem State.waited_status (s : State) : (s.waited).status = s.status := rfl
@[simp] theorem State.waited_result (s : State) : (s.waited).result = s.result := rfl
@[simp] theorem State.waited_dev (s : State) : (s.waited).dev = s.dev := rfl
@[simp] theorem State.waited_trace (s : State) : (s.waited).trace = s.trace := rfl
@[simp] theorem State.waited_host (s : State) : (s.waited).host = s.host := rfl
@[simp] theorem State.waited_overlap (s : State) : (s.waited).overlap = s.overlap := rfl
@[simp] theorem State.waited_readData (s : State) : (s.waited).readData = s.readData := rfl
@[simp] theorem State.waited_ioFails (s : State) : (s.waited).ioFails = s.ioFails := rfl
@[simp] theorem State.waited_freeNo (s : State) : (s.waited).freeNo = s.freeNo := rfl

/-! ### `State.withNlines` -/

@[simp] theorem State.withNlines_pin (s : State) (v : BitVec 4) : (s.withNlines v).pin = s.pin := rfl
@[simp] theorem State.withNlines_x_lda (s : State) (v : BitVec 4) :
    (s.withNlines v).x.lda = s.x.lda := rfl
@[simp] theorem State.withNlines_x_dcnt (s : State) (v : BitVec 4) :
    (s.withNlines v).x.dcnt = s.x.dcnt := rfl
@[simp] theorem State.withNlines_x_nlines (s : State) (v : BitVec 4) :
    (s.withNlines v).x.nlines = v := rfl
@[simp] theorem State.withNlines_x_sweep (s : State) (v : BitVec 4) :
    (s.withNlines v).x.sweep = s.x.sweep := rfl
@[simp] theorem State.withNlines_x_row (s : State) (v : BitVec 4) :
    (s.withNlines v).x.row = s.x.row := rfl
@[simp] theorem State.withNlines_x_col (s : State) (v : BitVec 4) :
    (s.withNlines v).x.col = s.x.col := rfl
@[simp] theorem State.withNlines_x_pat (s : State) (v : BitVec 4) :
    (s.withNlines v).x.pat = s.x.pat := rfl
@[simp] theorem State.withNlines_x_failCnt (s : State) (v : BitVec 4) :
    (s.withNlines v).x.failCnt = s.x.failCnt := rfl
@[simp] theorem State.withNlines_x_lfRow (s : State) (v : BitVec 4) :
    (s.withNlines v).x.lfRow = s.x.lfRow := rfl
@[simp] theorem State.withNlines_x_lfCol (s : State) (v : BitVec 4) :
    (s.withNlines v).x.lfCol = s.x.lfCol := rfl
@[simp] theorem State.withNlines_seq (s : State) (v : BitVec 4) : (s.withNlines v).seq = s.seq := rfl
@[simp] theorem State.withNlines_status (s : State) (v : BitVec 4) : (s.withNlines v).status = s.status := rfl
@[simp] theorem State.withNlines_result (s : State) (v : BitVec 4) : (s.withNlines v).result = s.result := rfl
@[simp] theorem State.withNlines_dev (s : State) (v : BitVec 4) : (s.withNlines v).dev = s.dev := rfl
@[simp] theorem State.withNlines_trace (s : State) (v : BitVec 4) : (s.withNlines v).trace = s.trace := rfl
@[simp] theorem State.withNlines_host (s : State) (v : BitVec 4) : (s.withNlines v).host = s.host := rfl
@[simp] theorem State.withNlines_overlap (s : State) (v : BitVec 4) : (s.withNlines v).overlap = s.overlap := rfl
@[simp] theorem State.withNlines_readData (s : State) (v : BitVec 4) : (s.withNlines v).readData = s.readData := rfl
@[simp] theorem State.withNlines_ioFails (s : State) (v : BitVec 4) : (s.withNlines v).ioFails = s.ioFails := rfl
@[simp] theorem State.withNlines_freeNo (s : State) (v : BitVec 4) : (s.withNlines v).freeNo = s.freeNo := rfl

/-! ### `State.withSweep` -/

@[simp] theorem State.withSweep_pin (s : State) (v : BitVec 3) : (s.withSweep v).pin = s.pin := rfl
@[simp] theorem State.withSweep_x_lda (s : State) (v : BitVec 3) :
    (s.withSweep v).x.lda = s.x.lda := rfl
@[simp] theorem State.withSweep_x_dcnt (s : State) (v : BitVec 3) :
    (s.withSweep v).x.dcnt = s.x.dcnt := rfl
@[simp] theorem State.withSweep_x_nlines (s : State) (v : BitVec 3) :
    (s.withSweep v).x.nlines = s.x.nlines := rfl
@[simp] theorem State.withSweep_x_sweep (s : State) (v : BitVec 3) :
    (s.withSweep v).x.sweep = v := rfl
@[simp] theorem State.withSweep_x_row (s : State) (v : BitVec 3) :
    (s.withSweep v).x.row = s.x.row := rfl
@[simp] theorem State.withSweep_x_col (s : State) (v : BitVec 3) :
    (s.withSweep v).x.col = s.x.col := rfl
@[simp] theorem State.withSweep_x_pat (s : State) (v : BitVec 3) :
    (s.withSweep v).x.pat = s.x.pat := rfl
@[simp] theorem State.withSweep_x_failCnt (s : State) (v : BitVec 3) :
    (s.withSweep v).x.failCnt = s.x.failCnt := rfl
@[simp] theorem State.withSweep_x_lfRow (s : State) (v : BitVec 3) :
    (s.withSweep v).x.lfRow = s.x.lfRow := rfl
@[simp] theorem State.withSweep_x_lfCol (s : State) (v : BitVec 3) :
    (s.withSweep v).x.lfCol = s.x.lfCol := rfl
@[simp] theorem State.withSweep_seq (s : State) (v : BitVec 3) : (s.withSweep v).seq = s.seq := rfl
@[simp] theorem State.withSweep_status (s : State) (v : BitVec 3) : (s.withSweep v).status = s.status := rfl
@[simp] theorem State.withSweep_result (s : State) (v : BitVec 3) : (s.withSweep v).result = s.result := rfl
@[simp] theorem State.withSweep_dev (s : State) (v : BitVec 3) : (s.withSweep v).dev = s.dev := rfl
@[simp] theorem State.withSweep_trace (s : State) (v : BitVec 3) : (s.withSweep v).trace = s.trace := rfl
@[simp] theorem State.withSweep_host (s : State) (v : BitVec 3) : (s.withSweep v).host = s.host := rfl
@[simp] theorem State.withSweep_overlap (s : State) (v : BitVec 3) : (s.withSweep v).overlap = s.overlap := rfl
@[simp] theorem State.withSweep_readData (s : State) (v : BitVec 3) : (s.withSweep v).readData = s.readData := rfl
@[simp] theorem State.withSweep_ioFails (s : State) (v : BitVec 3) : (s.withSweep v).ioFails = s.ioFails := rfl
@[simp] theorem State.withSweep_freeNo (s : State) (v : BitVec 3) : (s.withSweep v).freeNo = s.freeNo := rfl

/-! ### `State.withRow` -/

@[simp] theorem State.withRow_pin (s : State) (v : Line) : (s.withRow v).pin = s.pin := rfl
@[simp] theorem State.withRow_x_lda (s : State) (v : Line) :
    (s.withRow v).x.lda = s.x.lda := rfl
@[simp] theorem State.withRow_x_dcnt (s : State) (v : Line) :
    (s.withRow v).x.dcnt = s.x.dcnt := rfl
@[simp] theorem State.withRow_x_nlines (s : State) (v : Line) :
    (s.withRow v).x.nlines = s.x.nlines := rfl
@[simp] theorem State.withRow_x_sweep (s : State) (v : Line) :
    (s.withRow v).x.sweep = s.x.sweep := rfl
@[simp] theorem State.withRow_x_row (s : State) (v : Line) :
    (s.withRow v).x.row = v := rfl
@[simp] theorem State.withRow_x_col (s : State) (v : Line) :
    (s.withRow v).x.col = s.x.col := rfl
@[simp] theorem State.withRow_x_pat (s : State) (v : Line) :
    (s.withRow v).x.pat = s.x.pat := rfl
@[simp] theorem State.withRow_x_failCnt (s : State) (v : Line) :
    (s.withRow v).x.failCnt = s.x.failCnt := rfl
@[simp] theorem State.withRow_x_lfRow (s : State) (v : Line) :
    (s.withRow v).x.lfRow = s.x.lfRow := rfl
@[simp] theorem State.withRow_x_lfCol (s : State) (v : Line) :
    (s.withRow v).x.lfCol = s.x.lfCol := rfl
@[simp] theorem State.withRow_seq (s : State) (v : Line) : (s.withRow v).seq = s.seq := rfl
@[simp] theorem State.withRow_status (s : State) (v : Line) : (s.withRow v).status = s.status := rfl
@[simp] theorem State.withRow_result (s : State) (v : Line) : (s.withRow v).result = s.result := rfl
@[simp] theorem State.withRow_dev (s : State) (v : Line) : (s.withRow v).dev = s.dev := rfl
@[simp] theorem State.withRow_trace (s : State) (v : Line) : (s.withRow v).trace = s.trace := rfl
@[simp] theorem State.withRow_host (s : State) (v : Line) : (s.withRow v).host = s.host := rfl
@[simp] theorem State.withRow_overlap (s : State) (v : Line) : (s.withRow v).overlap = s.overlap := rfl
@[simp] theorem State.withRow_readData (s : State) (v : Line) : (s.withRow v).readData = s.readData := rfl
@[simp] theorem State.withRow_ioFails (s : State) (v : Line) : (s.withRow v).ioFails = s.ioFails := rfl
@[simp] theorem State.withRow_freeNo (s : State) (v : Line) : (s.withRow v).freeNo = s.freeNo := rfl

/-! ### `State.withCol` -/

@[simp] theorem State.withCol_pin (s : State) (v : Line) : (s.withCol v).pin = s.pin := rfl
@[simp] theorem State.withCol_x_lda (s : State) (v : Line) :
    (s.withCol v).x.lda = s.x.lda := rfl
@[simp] theorem State.withCol_x_dcnt (s : State) (v : Line) :
    (s.withCol v).x.dcnt = s.x.dcnt := rfl
@[simp] theorem State.withCol_x_nlines (s : State) (v : Line) :
    (s.withCol v).x.nlines = s.x.nlines := rfl
@[simp] theorem State.withCol_x_sweep (s : State) (v : Line) :
    (s.withCol v).x.sweep = s.x.sweep := rfl
@[simp] theorem State.withCol_x_row (s : State) (v : Line) :
    (s.withCol v).x.row = s.x.row := rfl
@[simp] theorem State.withCol_x_col (s : State) (v : Line) :
    (s.withCol v).x.col = v := rfl
@[simp] theorem State.withCol_x_pat (s : State) (v : Line) :
    (s.withCol v).x.pat = s.x.pat := rfl
@[simp] theorem State.withCol_x_failCnt (s : State) (v : Line) :
    (s.withCol v).x.failCnt = s.x.failCnt := rfl
@[simp] theorem State.withCol_x_lfRow (s : State) (v : Line) :
    (s.withCol v).x.lfRow = s.x.lfRow := rfl
@[simp] theorem State.withCol_x_lfCol (s : State) (v : Line) :
    (s.withCol v).x.lfCol = s.x.lfCol := rfl
@[simp] theorem State.withCol_seq (s : State) (v : Line) : (s.withCol v).seq = s.seq := rfl
@[simp] theorem State.withCol_status (s : State) (v : Line) : (s.withCol v).status = s.status := rfl
@[simp] theorem State.withCol_result (s : State) (v : Line) : (s.withCol v).result = s.result := rfl
@[simp] theorem State.withCol_dev (s : State) (v : Line) : (s.withCol v).dev = s.dev := rfl
@[simp] theorem State.withCol_trace (s : State) (v : Line) : (s.withCol v).trace = s.trace := rfl
@[simp] theorem State.withCol_host (s : State) (v : Line) : (s.withCol v).host = s.host := rfl
@[simp] theorem State.withCol_overlap (s : State) (v : Line) : (s.withCol v).overlap = s.overlap := rfl
@[simp] theorem State.withCol_readData (s : State) (v : Line) : (s.withCol v).readData = s.readData := rfl
@[simp] theorem State.withCol_ioFails (s : State) (v : Line) : (s.withCol v).ioFails = s.ioFails := rfl
@[simp] theorem State.withCol_freeNo (s : State) (v : Line) : (s.withCol v).freeNo = s.freeNo := rfl

/-! ### `State.withPat` -/

@[simp] theorem State.withPat_pin (s : State) (v : Word) : (s.withPat v).pin = s.pin := rfl
@[simp] theorem State.withPat_x_lda (s : State) (v : Word) :
    (s.withPat v).x.lda = s.x.lda := rfl
@[simp] theorem State.withPat_x_dcnt (s : State) (v : Word) :
    (s.withPat v).x.dcnt = s.x.dcnt := rfl
@[simp] theorem State.withPat_x_nlines (s : State) (v : Word) :
    (s.withPat v).x.nlines = s.x.nlines := rfl
@[simp] theorem State.withPat_x_sweep (s : State) (v : Word) :
    (s.withPat v).x.sweep = s.x.sweep := rfl
@[simp] theorem State.withPat_x_row (s : State) (v : Word) :
    (s.withPat v).x.row = s.x.row := rfl
@[simp] theorem State.withPat_x_col (s : State) (v : Word) :
    (s.withPat v).x.col = s.x.col := rfl
@[simp] theorem State.withPat_x_pat (s : State) (v : Word) :
    (s.withPat v).x.pat = v := rfl
@[simp] theorem State.withPat_x_failCnt (s : State) (v : Word) :
    (s.withPat v).x.failCnt = s.x.failCnt := rfl
@[simp] theorem State.withPat_x_lfRow (s : State) (v : Word) :
    (s.withPat v).x.lfRow = s.x.lfRow := rfl
@[simp] theorem State.withPat_x_lfCol (s : State) (v : Word) :
    (s.withPat v).x.lfCol = s.x.lfCol := rfl
@[simp] theorem State.withPat_seq (s : State) (v : Word) : (s.withPat v).seq = s.seq := rfl
@[simp] theorem State.withPat_status (s : State) (v : Word) : (s.withPat v).status = s.status := rfl
@[simp] theorem State.withPat_result (s : State) (v : Word) : (s.withPat v).result = s.result := rfl
@[simp] theorem State.withPat_dev (s : State) (v : Word) : (s.withPat v).dev = s.dev := rfl
@[simp] theorem State.withPat_trace (s : State) (v : Word) : (s.withPat v).trace = s.trace := rfl
@[simp] theorem State.withPat_host (s : State) (v : Word) : (s.withPat v).host = s.host := rfl
@[simp] theorem State.withPat_overlap (s : State) (v : Word) : (s.withPat v).overlap = s.overlap := rfl
@[simp] theorem State.withPat_readData (s : State) (v : Word) : (s.withPat v).readData = s.readData := rfl
@[simp] theorem State.withPat_ioFails (s : State) (v : Word) : (s.withPat v).ioFails = s.ioFails := rfl
@[simp] theorem State.withPat_freeNo (s : State) (v : Word) : (s.withPat v).freeNo = s.freeNo := rfl

/-! ### `State.failuresCleared` -/

@[simp] theorem State.failuresCleared_pin (s : State) : (s.failuresCleared).pin = s.pin := rfl
@[simp] theorem State.failuresCleared_x_lda (s : State) :
    (s.failuresCleared).x.lda = s.x.lda := rfl
@[simp] theorem State.failuresCleared_x_dcnt (s : State) :
    (s.failuresCleared).x.dcnt = s.x.dcnt := rfl
@[simp] theorem State.failuresCleared_x_nlines (s : State) :
    (s.failuresCleared).x.nlines = s.x.nlines := rfl
@[simp] theorem State.failuresCleared_x_sweep (s : State) :
    (s.failuresCleared).x.sweep = s.x.sweep := rfl
@[simp] theorem State.failuresCleared_x_row (s : State) :
    (s.failuresCleared).x.row = s.x.row := rfl
@[simp] theorem State.failuresCleared_x_col (s : State) :
    (s.failuresCleared).x.col = s.x.col := rfl
@[simp] theorem State.failuresCleared_x_pat (s : State) :
    (s.failuresCleared).x.pat = s.x.pat := rfl
@[simp] theorem State.failuresCleared_x_failCnt (s : State) :
    (s.failuresCleared).x.failCnt = 0#32 := rfl
@[simp] theorem State.failuresCleared_x_lfRow (s : State) :
    (s.failuresCleared).x.lfRow = 0#9 := rfl
@[simp] theorem State.failuresCleared_x_lfCol (s : State) :
    (s.failuresCleared).x.lfCol = 0#9 := rfl
@[simp] theorem State.failuresCleared_seq (s : State) : (s.failuresCleared).seq = s.seq := rfl
@[simp] theorem State.failuresCleared_status (s : State) : (s.failuresCleared).status = s.status := rfl
@[simp] theorem State.failuresCleared_result (s : State) : (s.failuresCleared).result = s.result := rfl
@[simp] theorem State.failuresCleared_dev (s : State) : (s.failuresCleared).dev = s.dev := rfl
@[simp] theorem State.failuresCleared_trace (s : State) : (s.failuresCleared).trace = s.trace := rfl
@[simp] theorem State.failuresCleared_host (s : State) : (s.failuresCleared).host = s.host := rfl
@[simp] theorem State.failuresCleared_overlap (s : State) : (s.failuresCleared).overlap = s.overlap := rfl
@[simp] theorem State.failuresCleared_readData (s : State) : (s.failuresCleared).readData = s.readData := rfl
@[simp] theorem State.failuresCleared_ioFails (s : State) : (s.failuresCleared).ioFails = s.ioFails := rfl
@[simp] theorem State.failuresCleared_freeNo (s : State) : (s.failuresCleared).freeNo = s.freeNo := rfl

/-! ### `State.failureRecorded` -/

@[simp] theorem State.failureRecorded_pin (s : State) : (s.failureRecorded).pin = s.pin := rfl
@[simp] theorem State.failureRecorded_x_lda (s : State) :
    (s.failureRecorded).x.lda = s.x.lda := rfl
@[simp] theorem State.failureRecorded_x_dcnt (s : State) :
    (s.failureRecorded).x.dcnt = s.x.dcnt := rfl
@[simp] theorem State.failureRecorded_x_nlines (s : State) :
    (s.failureRecorded).x.nlines = s.x.nlines := rfl
@[simp] theorem State.failureRecorded_x_sweep (s : State) :
    (s.failureRecorded).x.sweep = s.x.sweep := rfl
@[simp] theorem State.failureRecorded_x_row (s : State) :
    (s.failureRecorded).x.row = s.x.row := rfl
@[simp] theorem State.failureRecorded_x_col (s : State) :
    (s.failureRecorded).x.col = s.x.col := rfl
@[simp] theorem State.failureRecorded_x_pat (s : State) :
    (s.failureRecorded).x.pat = s.x.pat := rfl
@[simp] theorem State.failureRecorded_x_failCnt (s : State) :
    (s.failureRecorded).x.failCnt = s.x.failCnt + 1#32 := rfl
@[simp] theorem State.failureRecorded_x_lfRow (s : State) :
    (s.failureRecorded).x.lfRow = s.x.row := rfl
@[simp] theorem State.failureRecorded_x_lfCol (s : State) :
    (s.failureRecorded).x.lfCol = s.x.col := rfl
@[simp] theorem State.failureRecorded_seq (s : State) : (s.failureRecorded).seq = s.seq := rfl
@[simp] theorem State.failureRecorded_status (s : State) : (s.failureRecorded).status = s.status := rfl
@[simp] theorem State.failureRecorded_result (s : State) : (s.failureRecorded).result = s.result := rfl
@[simp] theorem State.failureRecorded_dev (s : State) : (s.failureRecorded).dev = s.dev := rfl
@[simp] theorem State.failureRecorded_trace (s : State) : (s.failureRecorded).trace = s.trace := rfl
@[simp] theorem State.failureRecorded_host (s : State) : (s.failureRecorded).host = s.host := rfl
@[simp] theorem State.failureRecorded_overlap (s : State) : (s.failureRecorded).overlap = s.overlap := rfl
@[simp] theorem State.failureRecorded_readData (s : State) : (s.failureRecorded).readData = s.readData := rfl
@[simp] theorem State.failureRecorded_ioFails (s : State) : (s.failureRecorded).ioFails = s.ioFails := rfl
@[simp] theorem State.failureRecorded_freeNo (s : State) : (s.failureRecorded).freeNo = s.freeNo := rfl

/-! ### `State.toggled` -/

@[simp] theorem State.toggled_pin_rasN (s : State) (m : Word) :
    (s.toggled m).pin.rasN = s.pin.rasN := rfl
@[simp] theorem State.toggled_pin_casN (s : State) (m : Word) :
    (s.toggled m).pin.casN = s.pin.casN := rfl
@[simp] theorem State.toggled_pin_weN (s : State) (m : Word) :
    (s.toggled m).pin.weN = s.pin.weN := rfl
@[simp] theorem State.toggled_pin_din (s : State) (m : Word) :
    (s.toggled m).pin.din = s.pin.din := rfl
@[simp] theorem State.toggled_pin_a (s : State) (m : Word) :
    (s.toggled m).pin.a = s.pin.a ^^^ wired m := rfl
@[simp] theorem State.toggled_x (s : State) (m : Word) : (s.toggled m).x = s.x := rfl
@[simp] theorem State.toggled_seq (s : State) (m : Word) : (s.toggled m).seq = s.seq := rfl
@[simp] theorem State.toggled_status (s : State) (m : Word) : (s.toggled m).status = s.status := rfl
@[simp] theorem State.toggled_result (s : State) (m : Word) : (s.toggled m).result = s.result := rfl
@[simp] theorem State.toggled_dev (s : State) (m : Word) : (s.toggled m).dev = s.dev := rfl
@[simp] theorem State.toggled_trace (s : State) (m : Word) : (s.toggled m).trace = s.trace := rfl
@[simp] theorem State.toggled_host (s : State) (m : Word) : (s.toggled m).host = s.host := rfl
@[simp] theorem State.toggled_overlap (s : State) (m : Word) : (s.toggled m).overlap = s.overlap := rfl
@[simp] theorem State.toggled_readData (s : State) (m : Word) : (s.toggled m).readData = s.readData := rfl
@[simp] theorem State.toggled_ioFails (s : State) (m : Word) : (s.toggled m).ioFails = s.ioFails := rfl
@[simp] theorem State.toggled_freeNo (s : State) (m : Word) : (s.toggled m).freeNo = s.freeNo := rfl

/-! ### `State.pinAt` -/

@[simp] theorem State.pinAt_pin (s : State) (sig : Signal) (v : Bit) : (s.pinAt sig v).pin = s.pin.drive sig v := rfl
@[simp] theorem State.pinAt_x (s : State) (sig : Signal) (v : Bit) : (s.pinAt sig v).x = s.x := rfl
@[simp] theorem State.pinAt_seq (s : State) (sig : Signal) (v : Bit) : (s.pinAt sig v).seq = s.seq := rfl
@[simp] theorem State.pinAt_status (s : State) (sig : Signal) (v : Bit) : (s.pinAt sig v).status = s.status := rfl
@[simp] theorem State.pinAt_result (s : State) (sig : Signal) (v : Bit) : (s.pinAt sig v).result = s.result := rfl
@[simp] theorem State.pinAt_dev (s : State) (sig : Signal) (v : Bit) : (s.pinAt sig v).dev = s.dev.react s.pin s.freeBit sig v := rfl
@[simp] theorem State.pinAt_trace (s : State) (sig : Signal) (v : Bit) : (s.pinAt sig v).trace = s.trace := rfl
@[simp] theorem State.pinAt_host (s : State) (sig : Signal) (v : Bit) : (s.pinAt sig v).host = s.host := rfl
@[simp] theorem State.pinAt_overlap (s : State) (sig : Signal) (v : Bit) : (s.pinAt sig v).overlap = s.overlap := rfl
@[simp] theorem State.pinAt_readData (s : State) (sig : Signal) (v : Bit) : (s.pinAt sig v).readData = s.readData := rfl
@[simp] theorem State.pinAt_ioFails (s : State) (sig : Signal) (v : Bit) : (s.pinAt sig v).ioFails = s.ioFails := rfl
@[simp] theorem State.pinAt_freeNo (s : State) (sig : Signal) (v : Bit) : (s.pinAt sig v).freeNo = s.freeNo + s.dev.reactDraws s.pin sig v := rfl

/-! ### `State.tookFree` -/

@[simp] theorem State.tookFree_pin (s : State) : (s.tookFree).pin = s.pin := rfl
@[simp] theorem State.tookFree_x (s : State) : (s.tookFree).x = s.x := rfl
@[simp] theorem State.tookFree_seq (s : State) : (s.tookFree).seq = s.seq := rfl
@[simp] theorem State.tookFree_status (s : State) : (s.tookFree).status = s.status := rfl
@[simp] theorem State.tookFree_result (s : State) : (s.tookFree).result = s.result := rfl
@[simp] theorem State.tookFree_dev (s : State) : (s.tookFree).dev = s.dev := rfl
@[simp] theorem State.tookFree_trace (s : State) : (s.tookFree).trace = s.trace := rfl
@[simp] theorem State.tookFree_host (s : State) : (s.tookFree).host = s.host := rfl
@[simp] theorem State.tookFree_overlap (s : State) : (s.tookFree).overlap = s.overlap := rfl
@[simp] theorem State.tookFree_readData (s : State) : (s.tookFree).readData = s.readData := rfl
@[simp] theorem State.tookFree_ioFails (s : State) : (s.tookFree).ioFails = s.ioFails := rfl
@[simp] theorem State.tookFree_freeNo (s : State) : (s.tookFree).freeNo = s.freeNo + 1 := rfl

/-! ### `State.tookDout` -/

@[simp] theorem State.tookDout_pin (s : State) : (s.tookDout).pin = s.pin := rfl
@[simp] theorem State.tookDout_x (s : State) : (s.tookDout).x = s.x := rfl
@[simp] theorem State.tookDout_seq (s : State) : (s.tookDout).seq = s.seq := rfl
@[simp] theorem State.tookDout_status (s : State) : (s.tookDout).status = s.status := rfl
@[simp] theorem State.tookDout_result (s : State) : (s.tookDout).result = s.result := rfl
@[simp] theorem State.tookDout_dev (s : State) : (s.tookDout).dev = s.dev := rfl
@[simp] theorem State.tookDout_trace (s : State) : (s.tookDout).trace = s.trace := rfl
@[simp] theorem State.tookDout_host (s : State) : (s.tookDout).host = s.host := rfl
@[simp] theorem State.tookDout_overlap (s : State) : (s.tookDout).overlap = s.overlap := rfl
@[simp] theorem State.tookDout_readData (s : State) : (s.tookDout).readData = s.readData := rfl
@[simp] theorem State.tookDout_ioFails (s : State) : (s.tookDout).ioFails = s.ioFails := rfl
@[simp] theorem State.tookDout_freeNo (s : State) : (s.tookDout).freeNo = s.freeNo + s.dev.doutDraws := rfl

/-! ### `State.toggleFailed` -/

@[simp] theorem State.toggleFailed_pin_rasN (s : State) :
    (s.toggleFailed).pin.rasN = s.pin.rasN := rfl
@[simp] theorem State.toggleFailed_pin_casN (s : State) :
    (s.toggleFailed).pin.casN = s.pin.casN := rfl
@[simp] theorem State.toggleFailed_pin_weN (s : State) :
    (s.toggleFailed).pin.weN = s.pin.weN := rfl
@[simp] theorem State.toggleFailed_pin_din (s : State) :
    (s.toggleFailed).pin.din = s.pin.din := rfl
@[simp] theorem State.toggleFailed_pin_a (s : State) :
    (s.toggleFailed).pin.a = wired s.freeWord := rfl
@[simp] theorem State.toggleFailed_x_lda (s : State) :
    (s.toggleFailed).x.lda = s.tookFree.freeWord := rfl
@[simp] theorem State.toggleFailed_x_dcnt (s : State) :
    (s.toggleFailed).x.dcnt = s.x.dcnt := rfl
@[simp] theorem State.toggleFailed_x_nlines (s : State) :
    (s.toggleFailed).x.nlines = s.x.nlines := rfl
@[simp] theorem State.toggleFailed_x_sweep (s : State) :
    (s.toggleFailed).x.sweep = s.x.sweep := rfl
@[simp] theorem State.toggleFailed_x_row (s : State) :
    (s.toggleFailed).x.row = s.x.row := rfl
@[simp] theorem State.toggleFailed_x_col (s : State) :
    (s.toggleFailed).x.col = s.x.col := rfl
@[simp] theorem State.toggleFailed_x_pat (s : State) :
    (s.toggleFailed).x.pat = s.x.pat := rfl
@[simp] theorem State.toggleFailed_x_failCnt (s : State) :
    (s.toggleFailed).x.failCnt = s.x.failCnt := rfl
@[simp] theorem State.toggleFailed_x_lfRow (s : State) :
    (s.toggleFailed).x.lfRow = s.x.lfRow := rfl
@[simp] theorem State.toggleFailed_x_lfCol (s : State) :
    (s.toggleFailed).x.lfCol = s.x.lfCol := rfl
@[simp] theorem State.toggleFailed_seq (s : State) : (s.toggleFailed).seq = s.seq := rfl
@[simp] theorem State.toggleFailed_status (s : State) : (s.toggleFailed).status = s.status := rfl
@[simp] theorem State.toggleFailed_result (s : State) : (s.toggleFailed).result = s.result := rfl
@[simp] theorem State.toggleFailed_dev (s : State) : (s.toggleFailed).dev = s.dev := rfl
@[simp] theorem State.toggleFailed_trace (s : State) : (s.toggleFailed).trace = s.trace := rfl
@[simp] theorem State.toggleFailed_host (s : State) : (s.toggleFailed).host = s.host := rfl
@[simp] theorem State.toggleFailed_overlap (s : State) : (s.toggleFailed).overlap = s.overlap := rfl
@[simp] theorem State.toggleFailed_readData (s : State) : (s.toggleFailed).readData = s.readData := rfl
@[simp] theorem State.toggleFailed_ioFails (s : State) : (s.toggleFailed).ioFails = s.ioFails := rfl
@[simp] theorem State.toggleFailed_freeNo (s : State) : (s.toggleFailed).freeNo = s.freeNo + 1 + 1 := rfl

/-! ### `State.nowBusy` -/

@[simp] theorem State.nowBusy_pin (s : State) : (s.nowBusy).pin = s.pin := rfl
@[simp] theorem State.nowBusy_x (s : State) : (s.nowBusy).x = s.x := rfl
@[simp] theorem State.nowBusy_seq (s : State) : (s.nowBusy).seq = s.seq := rfl
@[simp] theorem State.nowBusy_status_busy (s : State) :
    (s.nowBusy).status.busy = true := rfl
@[simp] theorem State.nowBusy_status_done (s : State) :
    (s.nowBusy).status.done = s.status.done := rfl
@[simp] theorem State.nowBusy_status_cmdErr (s : State) :
    (s.nowBusy).status.cmdErr = s.status.cmdErr := rfl
@[simp] theorem State.nowBusy_status_fault (s : State) :
    (s.nowBusy).status.fault = s.status.fault := rfl
@[simp] theorem State.nowBusy_status_faultSeen (s : State) :
    (s.nowBusy).status.faultSeen = s.status.faultSeen := rfl
@[simp] theorem State.nowBusy_status_inited (s : State) :
    (s.nowBusy).status.inited = s.status.inited := rfl
@[simp] theorem State.nowBusy_status_errCode (s : State) :
    (s.nowBusy).status.errCode = s.status.errCode := rfl
@[simp] theorem State.nowBusy_status_faultCode (s : State) :
    (s.nowBusy).status.faultCode = s.status.faultCode := rfl
@[simp] theorem State.nowBusy_status_overrun (s : State) :
    (s.nowBusy).status.overrun = s.status.overrun := rfl
@[simp] theorem State.nowBusy_result (s : State) : (s.nowBusy).result = s.result := rfl
@[simp] theorem State.nowBusy_dev (s : State) : (s.nowBusy).dev = s.dev := rfl
@[simp] theorem State.nowBusy_trace (s : State) : (s.nowBusy).trace = s.trace := rfl
@[simp] theorem State.nowBusy_host (s : State) : (s.nowBusy).host = s.host := rfl
@[simp] theorem State.nowBusy_overlap (s : State) : (s.nowBusy).overlap = [] := rfl
@[simp] theorem State.nowBusy_readData (s : State) : (s.nowBusy).readData = s.readData := rfl
@[simp] theorem State.nowBusy_ioFails (s : State) : (s.nowBusy).ioFails = s.ioFails := rfl
@[simp] theorem State.nowBusy_freeNo (s : State) : (s.nowBusy).freeNo = s.freeNo := rfl

/-! ### `State.finished` -/

@[simp] theorem State.finished_pin (s : State) (r : Result) : (s.finished r).pin = s.pin := rfl
@[simp] theorem State.finished_x (s : State) (r : Result) : (s.finished r).x = s.x := rfl
@[simp] theorem State.finished_seq (s : State) (r : Result) : (s.finished r).seq = s.seq := rfl
@[simp] theorem State.finished_status_busy (s : State) (r : Result) :
    (s.finished r).status.busy = false := rfl
@[simp] theorem State.finished_status_done (s : State) (r : Result) :
    (s.finished r).status.done = true := rfl
@[simp] theorem State.finished_status_cmdErr (s : State) (r : Result) :
    (s.finished r).status.cmdErr = s.status.cmdErr := rfl
@[simp] theorem State.finished_status_fault (s : State) (r : Result) :
    (s.finished r).status.fault = s.status.fault := rfl
@[simp] theorem State.finished_status_faultSeen (s : State) (r : Result) :
    (s.finished r).status.faultSeen = s.status.faultSeen := rfl
@[simp] theorem State.finished_status_inited (s : State) (r : Result) :
    (s.finished r).status.inited = s.status.inited := rfl
@[simp] theorem State.finished_status_errCode (s : State) (r : Result) :
    (s.finished r).status.errCode = s.status.errCode := rfl
@[simp] theorem State.finished_status_faultCode (s : State) (r : Result) :
    (s.finished r).status.faultCode = s.status.faultCode := rfl
@[simp] theorem State.finished_status_overrun (s : State) (r : Result) :
    (s.finished r).status.overrun = s.status.overrun := rfl
@[simp] theorem State.finished_result (s : State) (r : Result) : (s.finished r).result = r := rfl
@[simp] theorem State.finished_dev (s : State) (r : Result) : (s.finished r).dev = s.dev := rfl
@[simp] theorem State.finished_trace (s : State) (r : Result) : (s.finished r).trace = s.trace := rfl
@[simp] theorem State.finished_host (s : State) (r : Result) : (s.finished r).host = s.host := rfl
@[simp] theorem State.finished_overlap (s : State) (r : Result) : (s.finished r).overlap = s.overlap := rfl
@[simp] theorem State.finished_readData (s : State) (r : Result) : (s.finished r).readData = s.readData := rfl
@[simp] theorem State.finished_ioFails (s : State) (r : Result) : (s.finished r).ioFails = s.ioFails := rfl
@[simp] theorem State.finished_freeNo (s : State) (r : Result) : (s.finished r).freeNo = s.freeNo := rfl

/-! ### `State.cmdErr` -/

@[simp] theorem State.cmdErr_pin (s : State) (e : CmdErr) : (s.cmdErr e).pin = s.pin := rfl
@[simp] theorem State.cmdErr_x (s : State) (e : CmdErr) : (s.cmdErr e).x = s.x := rfl
@[simp] theorem State.cmdErr_seq (s : State) (e : CmdErr) : (s.cmdErr e).seq = s.seq := rfl
@[simp] theorem State.cmdErr_status_busy (s : State) (e : CmdErr) :
    (s.cmdErr e).status.busy = s.status.busy := rfl
@[simp] theorem State.cmdErr_status_done (s : State) (e : CmdErr) :
    (s.cmdErr e).status.done = true := rfl
@[simp] theorem State.cmdErr_status_cmdErr (s : State) (e : CmdErr) :
    (s.cmdErr e).status.cmdErr = true := rfl
@[simp] theorem State.cmdErr_status_fault (s : State) (e : CmdErr) :
    (s.cmdErr e).status.fault = s.status.fault := rfl
@[simp] theorem State.cmdErr_status_faultSeen (s : State) (e : CmdErr) :
    (s.cmdErr e).status.faultSeen = s.status.faultSeen := rfl
@[simp] theorem State.cmdErr_status_inited (s : State) (e : CmdErr) :
    (s.cmdErr e).status.inited = s.status.inited := rfl
@[simp] theorem State.cmdErr_status_errCode (s : State) (e : CmdErr) :
    (s.cmdErr e).status.errCode = some e := rfl
@[simp] theorem State.cmdErr_status_faultCode (s : State) (e : CmdErr) :
    (s.cmdErr e).status.faultCode = s.status.faultCode := rfl
@[simp] theorem State.cmdErr_status_overrun (s : State) (e : CmdErr) :
    (s.cmdErr e).status.overrun = s.status.overrun := rfl
@[simp] theorem State.cmdErr_result (s : State) (e : CmdErr) : (s.cmdErr e).result = {} := rfl
@[simp] theorem State.cmdErr_dev (s : State) (e : CmdErr) : (s.cmdErr e).dev = s.dev := rfl
@[simp] theorem State.cmdErr_trace (s : State) (e : CmdErr) : (s.cmdErr e).trace = s.trace := rfl
@[simp] theorem State.cmdErr_host (s : State) (e : CmdErr) : (s.cmdErr e).host = s.host := rfl
@[simp] theorem State.cmdErr_overlap (s : State) (e : CmdErr) : (s.cmdErr e).overlap = s.overlap := rfl
@[simp] theorem State.cmdErr_readData (s : State) (e : CmdErr) : (s.cmdErr e).readData = s.readData := rfl
@[simp] theorem State.cmdErr_ioFails (s : State) (e : CmdErr) : (s.cmdErr e).ioFails = s.ioFails := rfl
@[simp] theorem State.cmdErr_freeNo (s : State) (e : CmdErr) : (s.cmdErr e).freeNo = s.freeNo := rfl

/-! ### `State.clearedForCommand` -/

@[simp] theorem State.clearedForCommand_pin (s : State) : (s.clearedForCommand).pin = s.pin := rfl
@[simp] theorem State.clearedForCommand_x (s : State) : (s.clearedForCommand).x = s.x := rfl
@[simp] theorem State.clearedForCommand_seq (s : State) : (s.clearedForCommand).seq = s.seq := rfl
@[simp] theorem State.clearedForCommand_status_busy (s : State) :
    (s.clearedForCommand).status.busy = s.status.busy := rfl
@[simp] theorem State.clearedForCommand_status_done (s : State) :
    (s.clearedForCommand).status.done = false := rfl
@[simp] theorem State.clearedForCommand_status_cmdErr (s : State) :
    (s.clearedForCommand).status.cmdErr = false := rfl
@[simp] theorem State.clearedForCommand_status_fault (s : State) :
    (s.clearedForCommand).status.fault = s.status.fault := rfl
@[simp] theorem State.clearedForCommand_status_faultSeen (s : State) :
    (s.clearedForCommand).status.faultSeen = s.status.faultSeen := rfl
@[simp] theorem State.clearedForCommand_status_inited (s : State) :
    (s.clearedForCommand).status.inited = s.status.inited := rfl
@[simp] theorem State.clearedForCommand_status_errCode (s : State) :
    (s.clearedForCommand).status.errCode = none := rfl
@[simp] theorem State.clearedForCommand_status_faultCode (s : State) :
    (s.clearedForCommand).status.faultCode = s.status.faultCode := rfl
@[simp] theorem State.clearedForCommand_status_overrun (s : State) :
    (s.clearedForCommand).status.overrun = s.status.overrun := rfl
@[simp] theorem State.clearedForCommand_result (s : State) : (s.clearedForCommand).result = {} := rfl
@[simp] theorem State.clearedForCommand_dev (s : State) : (s.clearedForCommand).dev = s.dev := rfl
@[simp] theorem State.clearedForCommand_trace (s : State) : (s.clearedForCommand).trace = s.trace := rfl
@[simp] theorem State.clearedForCommand_host (s : State) : (s.clearedForCommand).host = s.host := rfl
@[simp] theorem State.clearedForCommand_overlap (s : State) : (s.clearedForCommand).overlap = s.overlap := rfl
@[simp] theorem State.clearedForCommand_readData (s : State) : (s.clearedForCommand).readData = s.readData := rfl
@[simp] theorem State.clearedForCommand_ioFails (s : State) : (s.clearedForCommand).ioFails = s.ioFails := rfl
@[simp] theorem State.clearedForCommand_freeNo (s : State) : (s.clearedForCommand).freeNo = s.freeNo := rfl

/-! ### `State.overrun` -/

@[simp] theorem State.overrun_pin (s : State) : (s.overrun).pin = s.pin := rfl
@[simp] theorem State.overrun_x (s : State) : (s.overrun).x = s.x := rfl
@[simp] theorem State.overrun_seq (s : State) : (s.overrun).seq = s.seq := rfl
@[simp] theorem State.overrun_status_busy (s : State) :
    (s.overrun).status.busy = s.status.busy := rfl
@[simp] theorem State.overrun_status_done (s : State) :
    (s.overrun).status.done = s.status.done := rfl
@[simp] theorem State.overrun_status_cmdErr (s : State) :
    (s.overrun).status.cmdErr = s.status.cmdErr := rfl
@[simp] theorem State.overrun_status_fault (s : State) :
    (s.overrun).status.fault = s.status.fault := rfl
@[simp] theorem State.overrun_status_faultSeen (s : State) :
    (s.overrun).status.faultSeen = s.status.faultSeen := rfl
@[simp] theorem State.overrun_status_inited (s : State) :
    (s.overrun).status.inited = s.status.inited := rfl
@[simp] theorem State.overrun_status_errCode (s : State) :
    (s.overrun).status.errCode = s.status.errCode := rfl
@[simp] theorem State.overrun_status_faultCode (s : State) :
    (s.overrun).status.faultCode = s.status.faultCode := rfl
@[simp] theorem State.overrun_status_overrun (s : State) :
    (s.overrun).status.overrun = true := rfl
@[simp] theorem State.overrun_result (s : State) : (s.overrun).result = s.result := rfl
@[simp] theorem State.overrun_dev (s : State) : (s.overrun).dev = s.dev := rfl
@[simp] theorem State.overrun_trace (s : State) : (s.overrun).trace = s.trace := rfl
@[simp] theorem State.overrun_host (s : State) : (s.overrun).host = s.host := rfl
@[simp] theorem State.overrun_overlap (s : State) : (s.overrun).overlap = s.overlap := rfl
@[simp] theorem State.overrun_readData (s : State) : (s.overrun).readData = s.readData := rfl
@[simp] theorem State.overrun_ioFails (s : State) : (s.overrun).ioFails = s.ioFails := rfl
@[simp] theorem State.overrun_freeNo (s : State) : (s.overrun).freeNo = s.freeNo := rfl

/-! ### `State.recovered` -/

@[simp] theorem State.recovered_pin (s : State) : (s.recovered).pin = s.pin := rfl
@[simp] theorem State.recovered_x (s : State) : (s.recovered).x = s.x := rfl
@[simp] theorem State.recovered_seq (s : State) : (s.recovered).seq = s.seq := rfl
@[simp] theorem State.recovered_status_busy (s : State) :
    (s.recovered).status.busy = s.status.busy := rfl
@[simp] theorem State.recovered_status_done (s : State) :
    (s.recovered).status.done = s.status.done := rfl
@[simp] theorem State.recovered_status_cmdErr (s : State) :
    (s.recovered).status.cmdErr = s.status.cmdErr := rfl
@[simp] theorem State.recovered_status_fault (s : State) :
    (s.recovered).status.fault = false := rfl
@[simp] theorem State.recovered_status_faultSeen (s : State) :
    (s.recovered).status.faultSeen = s.status.faultSeen := rfl
@[simp] theorem State.recovered_status_inited (s : State) :
    (s.recovered).status.inited = true := rfl
@[simp] theorem State.recovered_status_errCode (s : State) :
    (s.recovered).status.errCode = s.status.errCode := rfl
@[simp] theorem State.recovered_status_faultCode (s : State) :
    (s.recovered).status.faultCode = s.status.faultCode := rfl
@[simp] theorem State.recovered_status_overrun (s : State) :
    (s.recovered).status.overrun = s.status.overrun := rfl
@[simp] theorem State.recovered_result (s : State) : (s.recovered).result = s.result := rfl
@[simp] theorem State.recovered_dev (s : State) : (s.recovered).dev = s.dev := rfl
@[simp] theorem State.recovered_trace (s : State) : (s.recovered).trace = s.trace := rfl
@[simp] theorem State.recovered_host (s : State) : (s.recovered).host = s.host := rfl
@[simp] theorem State.recovered_overlap (s : State) : (s.recovered).overlap = s.overlap := rfl
@[simp] theorem State.recovered_readData (s : State) : (s.recovered).readData = s.readData := rfl
@[simp] theorem State.recovered_ioFails (s : State) : (s.recovered).ioFails = s.ioFails := rfl
@[simp] theorem State.recovered_freeNo (s : State) : (s.recovered).freeNo = s.freeNo := rfl

/-! ### `State.ioFault` -/

@[simp] theorem State.ioFault_pin (s : State) : (s.ioFault).pin = s.pin := rfl
@[simp] theorem State.ioFault_x (s : State) : (s.ioFault).x = s.x := rfl
@[simp] theorem State.ioFault_seq (s : State) : (s.ioFault).seq = SeqState.ofCode (s.freeWord.extractLsb' 0 2) := rfl
@[simp] theorem State.ioFault_status_busy (s : State) :
    (s.ioFault).status.busy = false := rfl
@[simp] theorem State.ioFault_status_done (s : State) :
    (s.ioFault).status.done = true := rfl
@[simp] theorem State.ioFault_status_cmdErr (s : State) :
    (s.ioFault).status.cmdErr = s.status.cmdErr := rfl
@[simp] theorem State.ioFault_status_fault (s : State) :
    (s.ioFault).status.fault = true := rfl
@[simp] theorem State.ioFault_status_faultSeen (s : State) :
    (s.ioFault).status.faultSeen = true := rfl
@[simp] theorem State.ioFault_status_inited (s : State) :
    (s.ioFault).status.inited = s.status.inited := rfl
@[simp] theorem State.ioFault_status_errCode (s : State) :
    (s.ioFault).status.errCode = s.status.errCode := rfl
@[simp] theorem State.ioFault_status_faultCode (s : State) :
    (s.ioFault).status.faultCode = some .ioFault := rfl
@[simp] theorem State.ioFault_status_overrun (s : State) :
    (s.ioFault).status.overrun = s.status.overrun := rfl
@[simp] theorem State.ioFault_result (s : State) : (s.ioFault).result = {} := rfl
@[simp] theorem State.ioFault_dev (s : State) : (s.ioFault).dev = s.dev := rfl
@[simp] theorem State.ioFault_trace (s : State) : (s.ioFault).trace = s.trace := rfl
@[simp] theorem State.ioFault_host (s : State) : (s.ioFault).host = s.host := rfl
@[simp] theorem State.ioFault_overlap (s : State) : (s.ioFault).overlap = s.overlap := rfl
@[simp] theorem State.ioFault_readData (s : State) : (s.ioFault).readData = s.readData := rfl
@[simp] theorem State.ioFault_ioFails (s : State) : (s.ioFault).ioFails = s.ioFails := rfl
@[simp] theorem State.ioFault_freeNo (s : State) : (s.ioFault).freeNo = s.freeNo + 1 := rfl

end Sys2Proof.Machine
end

