-- ==== Sys2Proof/Laws/Micro.lean ====
section
/-!
SUPPORT. How micro-operations compose, and what each event does where nothing disturbs it.
-/

namespace Sys2Proof.Machine

open Sys2Proof.Safety
open Sys2Proof.Config (Params DevLines)

@[simp] theorem micro_bind {α β : Type} (m : Micro α) (f : α → Micro β) (s : State) :
    (m >>= f) s = match m s with
      | .ok a t => f a t
      | .error e t => .error e t := by
  change EStateM.bind m f s = _
  unfold EStateM.bind
  cases m s <;> rfl

@[simp] theorem micro_map {α β : Type} (f : α → β) (m : Micro α) (s : State) :
    (f <$> m) s = match m s with
      | .ok a t => .ok (f a) t
      | .error e t => .error e t := by
  change EStateM.map f m s = _
  unfold EStateM.map
  cases m s <;> rfl

@[simp] theorem micro_pure {α : Type} (a : α) (s : State) : (pure a : Micro α) s = .ok a s := rfl

@[simp] theorem micro_get (s : State) : (get : Micro State) s = .ok s s := rfl

@[simp] theorem micro_modify (f : State → State) (s : State) :
    (modify f : Micro Unit) s = .ok () (f s) := rfl

/-- A micro-operation that ends well hands its result and state on. -/
theorem micro_bind_ok {α β : Type} {m : Micro α} {s t : State} {a : α} (h : m s = .ok a t)
    (f : α → Micro β) : (m >>= f) s = f a t := by
  simp [h]

@[simp] theorem wait_apply (c : Nat) (s : State) : wait c s = .ok () (s.waited.emit (.wait c)) :=
  rfl

@[simp] theorem setSeq_apply (q : SeqState) (s : State) : setSeq q s = .ok () (s.withSeq q) := rfl

@[simp] theorem setLda_apply (a : Word) (s : State) : setLda a s = .ok () (s.withLda a) := rfl

theorem ioPoint_undisturbed {α : Type} (ok : Micro α) (f : State → State) (s : State)
    (h : s.ioFails = []) : ioPoint ok f s = ok s := by
  simp [ioPoint, h]

/-- A pin event that is not failed and is within the protocol. -/
theorem pin_undisturbed (sig : Signal) (v : Bit) (s : State) (h : s.ioFails = [])
    (hs : s.dev.stray s.pin sig v = none) :
    pin sig v s = .ok () ((s.pinAt sig v).emit (.pin sig v)) := by
  simp [pin, ioPoint_undisturbed _ _ _ h, pinOk, hs]

theorem addrToggle_undisturbed (m : Word) (s : State) (h : s.ioFails = []) :
    addrToggle m s = .ok () ((s.toggled m).emit (.addrToggle m)) := by
  simp [addrToggle, ioPoint_undisturbed _ _ _ h, toggleOk]

theorem sample_undisturbed (s : State) (h : s.ioFails = []) :
    sample s = .ok s.doutLevel (s.tookDout.emit (.sample s.doutLevel)) := by
  simp [sample, ioPoint_undisturbed _ _ _ h, sampleOk]

/-- Raising a pin is never outside the protocol. -/
@[simp] theorem stray_rise (d : Device) (p : Pins) (sig : Signal) : d.stray p sig true = none := by
  cases sig <;> rfl

@[simp] theorem stray_din (d : Device) (p : Pins) (v : Bit) : d.stray p .din v = none := by
  cases v <;> rfl

theorem stray_rasFall (d : Device) (p : Pins) (h : p.casN = true) :
    d.stray p .rasN false = none := by
  simp [Device.stray, h]

theorem stray_weFall (d : Device) (p : Pins) (h : p.casN = true) :
    d.stray p .weN false = none := by
  simp [Device.stray, h]

theorem stray_casFall (d : Device) (p : Pins) (h : d.rowLatch.isSome = d.present) :
    d.stray p .casN false = none := by
  cases hr : d.rowLatch <;> simp_all [Device.stray]

/-- `AddrSet(a)` where nothing disturbs it (`41_address_bus.md` R160). -/
theorem addrSet_undisturbed (K : Params) (a : Word) (s : State) (h : s.ioFails = []) :
    addrSet K a s = .ok () { s with
      pin.a := s.pin.a ^^^ wired (a ^^^ s.x.lda)
      x.lda := a
      x.dcnt := 0
      trace := .wait (cAs K) :: .addrToggle (a ^^^ s.x.lda) :: s.trace } := by
  simp [addrSet, addrToggle_undisturbed _ _ h]
  simp [State.emit, State.toggled, State.withLda, State.waited]

end Sys2Proof.Machine
end

