-- ==== Sys2Proof/Laws/Hoare.lean ====
section
/-!
SUPPORT. Ways to say what a micro-operation can do, whatever the environment answers: `Ends`, a
precondition with the states it may end and fail in; `Stays`, a relation between the state it starts
from and the one it reaches; `Unfailing`. The last two are closed properties: they are shown for the
events and then hold of every micro-operation.
-/

namespace Sys2Proof.Machine

open Sys2Proof.Safety
open Sys2Proof.Config (Params DevLines)

/-! ### `Ends` -/

/-- From a state with `P`, `m` ends well with `Q`, or the environment fails it with `F`; it is never
refused. -/
def Ends {α : Type} (P : State → Prop) (m : Micro α) (Q : α → State → Prop) (F : State → Prop) :
    Prop :=
  ∀ s, P s → match m s with
    | .ok a t => Q a t
    | .error .ioFault t => F t
    | .error (.refused _) _ => False

namespace Ends

variable {α β : Type} {P P' : State → Prop} {Q : α → State → Prop} {F : State → Prop}

theorem weaken {m : Micro α} {Q' : α → State → Prop} {F' : State → Prop} (h : Ends P m Q F)
    (hP : ∀ s, P' s → P s) (hQ : ∀ a s, Q a s → Q' a s) (hF : ∀ s, F s → F' s) :
    Ends P' m Q' F' := by
  intro s hs
  have := h s (hP s hs)
  split at this <;> simp_all

theorem pre {m : Micro α} (h : Ends P m Q F) (hP : ∀ s, P' s → P s) : Ends P' m Q F :=
  h.weaken hP (fun _ _ x => x) (fun _ x => x)

theorem bind {m : Micro α} {f : α → Micro β} {Q' : β → State → Prop} (h : Ends P m Q F)
    (hf : ∀ a, Ends (Q a) (f a) Q' F) : Ends P (m >>= f) Q' F := by
  intro s hs
  have h1 := h s hs
  rw [micro_bind]
  cases hm : m s with
  | ok a t => simp only [hm] at h1 ⊢; exact hf a t h1
  | error e t => cases e <;> simp_all

theorem pure {a : α} (h : ∀ s, P s → Q a s) : Ends P (pure a : Micro α) Q F := fun s hs => h s hs

theorem get {Q : State → State → Prop} (h : ∀ s, P s → Q s s) : Ends P (get : Micro State) Q F :=
  fun s hs => h s hs

theorem modify {f : State → State} {Q : Unit → State → Prop} (h : ∀ s, P s → Q () (f s)) :
    Ends P (modify f : Micro Unit) Q F := fun s hs => h s hs

/-- A point of failure: `P` must not depend on the answers to come. -/
theorem ioPoint {m : Micro α} {f : State → State} (hw : ∀ s l, P s → P (s.withIoFails l))
    (h : Ends P m Q F) (hf : ∀ s, P s → F (f s)) : Ends P (ioPoint m f) Q F := by
  intro s hs
  unfold Machine.ioPoint
  cases s.ioFails with
  | nil => exact h s hs
  | cons n later =>
    cases n with
    | zero => exact hf _ (hw s _ hs)
    | succ n => exact h _ (hw s _ hs)

theorem times {m : Micro Unit} (h : Ends P m (fun _ => P) F) (n : Nat) :
    Ends P (times n m) (fun _ => P) F := by
  induction n with
  | zero => exact fun s hs => hs
  | succ n ih => exact h.bind fun _ => ih

/-- A loop over a list, with a predicate that may depend on what is left of it. -/
theorem forEach {f : Line → Micro Unit} {I : List Line → State → Prop} {F : State → Prop}
    (h : ∀ v rest, Ends (I (v :: rest)) (f v) (fun _ => I rest) F) (vs : List Line) :
    Ends (I vs) (forEach f vs) (fun _ => I []) F := by
  induction vs with
  | nil => exact fun s hs => hs
  | cons v rest ih => exact (h v rest).bind fun _ => ih

end Ends

/-! ### Properties of all micro-operations at once -/

/-- The cycle counts a `Wait` may have (`40_delay_and_timing_profile.md` R135, R142). -/
abbrev Configured (K : Params) (c : Nat) : Prop := ∃ sel, c = selected K sel

/-- A property of micro-operations that every event has and composition keeps, where all they look
at in the state themselves is the working registers; then every micro-operation of the engine has it. -/
structure Closed (K : Params) (Φ : ∀ α : Type, Micro α → Prop) : Prop where
  pure : ∀ {α : Type} (a : α), Φ α (Pure.pure a)
  bind : ∀ {α β : Type} {m : Micro α} {f : α → Micro β}, Φ α m → (∀ a, Φ β (f a)) → Φ β (m >>= f)
  look : ∀ {β : Type} {f : Regs → Micro β}, (∀ x, Φ β (f x)) → Φ β (do let s ← get; f s.x)
  pin : ∀ sig v, Φ Unit (pin sig v)
  addrToggle : ∀ m, Φ Unit (addrToggle m)
  wait : ∀ sel, Φ Unit (wait (selected K sel))
  sample : Φ Bit sample
  setSeq : ∀ q, Φ Unit (setSeq q)
  setLda : ∀ a, Φ Unit (setLda a)

namespace Closed

variable {K : Params} {Φ : ∀ α : Type, Micro α → Prop}

theorem times (T : Closed K Φ) {m : Micro Unit} (h : Φ Unit m) (n : Nat) : Φ Unit (times n m) := by
  induction n with
  | zero => exact T.pure ()
  | succ n ih => exact T.bind h fun _ => ih

theorem forEach (T : Closed K Φ) {f : Line → Micro Unit} (h : ∀ v, Φ Unit (f v)) (vs : List Line) :
    Φ Unit (forEach f vs) := by
  induction vs with
  | nil => exact T.pure ()
  | cons v rest ih => exact T.bind (h v) fun _ => ih

theorem addrSet (T : Closed K Φ) (a : Word) : Φ Unit (addrSet K a) :=
  T.look (f := fun x => do
      Machine.addrToggle (a ^^^ x.lda)
      Machine.setLda a
      Machine.wait (cAs K)) fun _ =>
    T.bind (T.addrToggle _) fun _ => T.bind (T.setLda a) fun _ => T.wait .addrSettle

theorem openRow (T : Closed K Φ) (row : Line) : Φ Unit (openRow K row) :=
  T.bind (T.addrSet _) fun _ => T.bind (T.pin _ _) fun _ => T.bind (T.setSeq _) fun _ => T.wait .rcd

theorem strobeColumn (T : Closed K Φ) (col : Line) : Φ Unit (strobeColumn K col) :=
  T.bind (T.addrSet _) fun _ => T.bind (T.pin _ _) fun _ => T.bind (T.setSeq _) fun _ =>
    T.bind (T.wait .cas) fun _ => T.bind (T.pin _ _) fun _ => T.setSeq _

theorem strobeColumnRead (T : Closed K Φ) (col : Line) : Φ Bit (strobeColumnRead K col) :=
  T.bind (T.addrSet _) fun _ => T.bind (T.pin _ _) fun _ => T.bind (T.setSeq _) fun _ =>
    T.bind (T.wait .cas) fun _ => T.bind (T.wait .xcvrSettle) fun _ => T.bind T.sample fun _ =>
      T.bind (T.pin _ _) fun _ => T.bind (T.setSeq _) fun _ => T.pure _

theorem closeRow (T : Closed K Φ) : Φ Unit (closeRow K) :=
  T.bind (T.pin _ _) fun _ => T.bind (T.setSeq _) fun _ => T.bind (T.wait .rp) fun _ => T.setSeq _

theorem pageWrite (T : Closed K Φ) (col : Line) (b : Bit) : Φ Unit (pageWrite K col b) :=
  T.bind (T.pin _ _) fun _ => T.bind (T.pin _ _) fun _ => T.bind (T.strobeColumn _) fun _ =>
    T.bind (T.pin _ _) fun _ => T.wait .cp

theorem pageRead (T : Closed K Φ) (col : Line) : Φ Bit (pageRead K col) :=
  T.bind (T.strobeColumnRead _) fun _ => T.bind (T.wait .cp) fun _ => T.pure _

theorem writeBitEarly (T : Closed K Φ) (row col : Line) (b : Bit) :
    Φ Unit (writeBitEarly K row col b) :=
  T.bind (T.pin _ _) fun _ => T.bind (T.pin _ _) fun _ => T.bind (T.openRow _) fun _ =>
    T.bind (T.strobeColumn _) fun _ => T.bind (T.wait .rest) fun _ => T.bind T.closeRow fun _ => T.pin _ _

theorem readBit (T : Closed K Φ) (row col : Line) : Φ Bit (readBit K row col) :=
  T.bind (T.openRow _) fun _ => T.bind (T.strobeColumnRead _) fun _ => T.bind (T.wait .rest) fun _ =>
    T.bind T.closeRow fun _ => T.pure _

theorem prechargePulse (T : Closed K Φ) : Φ Unit (prechargePulse K) :=
  T.bind (T.pin _ _) fun _ => T.bind (T.wait .ras) fun _ => T.bind (T.pin _ _) fun _ => T.wait .rp

theorem isWorking (T : Closed K Φ) : Φ Bool (isWorking K) := by
  unfold Machine.isWorking
  refine T.bind (T.writeBitEarly _ _ _) fun _ => T.bind (T.readBit _ _) fun s1 => ?_
  cases s1
  · exact T.bind (T.writeBitEarly _ _ _) fun _ => T.readBit _ _
  · exact T.pure _

theorem isChip41256 (T : Closed K Φ) : Φ Bool (isChip41256 K) :=
  T.bind (T.writeBitEarly _ _ _) fun _ => T.bind (T.writeBitEarly _ _ _) fun _ =>
    T.bind (T.readBit _ _) fun _ => T.pure _

end Closed

/-! ### The bodies of the operations -/

/-- The body of an operation other than `INIT` and `RUN_TEST`, for the other two `pure`. -/
def plainBody (K : Params) : Instr → Micro Result
  | .delay sel => delayBody K sel
  | .addrSet a => addrSetBody K a
  | .openRow row => openRowBody K row
  | .strobeCol col => strobeColBody K col
  | .closeRow => closeRowBody K
  | .pageWrite col b => pageWriteBody K col b
  | .pageRead col => pageReadBody K col
  | .writeBitEarly row col b => writeBitEarlyBody K row col b
  | .readBit row col => readBitBody K row col
  | .isPresent => isPresentBody K
  | .chipKind => chipKindBody K
  | .init => pure {}
  | .runTest _ => pure {}

/-- The plain operations have every closed property. -/
theorem Closed.plainBody {K : Params} {Φ : ∀ α : Type, Micro α → Prop} (T : Closed K Φ) (i : Instr) :
    Φ Result (plainBody K i) := by
  cases i with
  | delay sel => exact T.bind (T.wait sel) fun _ => T.pure _
  | addrSet a => exact T.bind (T.addrSet _) fun _ => T.pure _
  | openRow row => exact T.bind (T.openRow _) fun _ => T.pure _
  | strobeCol col => exact T.bind (T.strobeColumn _) fun _ => T.pure _
  | closeRow => exact T.bind T.closeRow fun _ => T.pure _
  | pageWrite col b => exact T.bind (T.pageWrite _ _) fun _ => T.pure _
  | pageRead col => exact T.bind (T.pageRead _) fun _ => T.pure _
  | writeBitEarly row col b => exact T.bind (T.writeBitEarly _ _ _) fun _ => T.pure _
  | readBit row col => exact T.bind (T.readBit _ _) fun _ => T.pure _
  | isPresent => exact T.bind T.isWorking fun _ => T.pure _
  | chipKind => exact T.bind T.isChip41256 fun _ => T.pure _
  | init => exact T.pure _
  | runTest lines => exact T.pure _

/-- `INIT`, for a property the return from a fault has as well. -/
theorem Closed.initBody {K : Params} {Φ : ∀ α : Type, Micro α → Prop} (T : Closed K Φ)
    (h : Φ Unit (modify State.recovered)) : Φ Result (initBody K) :=
  T.bind (T.pin _ _) fun _ => T.bind (T.pin _ _) fun _ => T.bind (T.pin _ _) fun _ =>
    T.bind (T.pin _ _) fun _ => T.bind (T.setSeq _) fun _ =>
      T.bind (T.times T.prechargePulse 8) fun _ => T.bind h fun _ => T.pure _

/-- A property the updates of the test registers have as well. -/
structure ClosedTest (Φ : ∀ α : Type, Micro α → Prop) : Prop where
  setNlines : ∀ v, Φ Unit (setNlines v)
  setSweep : ∀ v, Φ Unit (setSweep v)
  setRow : ∀ v, Φ Unit (setRow v)
  setCol : ∀ v, Φ Unit (setCol v)
  setPat : ∀ v, Φ Unit (setPat v)
  clearFailures : Φ Unit clearFailures
  recordFailure : Φ Unit recordFailure

section Test

variable {K : Params} {Φ : ∀ α : Type, Micro α → Prop}

/-- A sweep whose visits have the property. -/
theorem Closed.sweep (T : Closed K Φ) (U : ClosedTest Φ) {visit : Line → Micro Unit}
    (h : ∀ col, Φ Unit (visit col)) (dir : Direction) (n : Nat) : Φ Unit (sweep K visit dir n) :=
  T.bind (U.setPat _) fun _ => T.forEach (fun row =>
    T.bind (U.setRow row) fun _ => T.bind (T.openRow row) fun _ =>
      T.bind (T.forEach (fun col => T.bind (U.setCol col) fun _ =>
        T.bind (h col) fun _ => T.look (f := fun x => setPat (rotl32 x.pat)) fun _ => U.setPat _) _)
          fun _ => T.closeRow) _

theorem Closed.fillVisit (T : Closed K Φ) (col : Line) : Φ Unit (fillVisit K col) :=
  T.look (f := fun x => Machine.pageWrite K col (x.pat.getLsbD 0)) fun _ => T.pageWrite _ _

theorem Closed.checkComplementVisit (T : Closed K Φ) (U : ClosedTest Φ) (col : Line) :
    Φ Unit (checkComplementVisit K col) :=
  T.look (f := fun x => do
      let g ← Machine.pageRead K col
      if g != x.pat.getLsbD 0 then recordFailure else Machine.pageWrite K col (!x.pat.getLsbD 0))
    fun x => T.bind (T.pageRead _) fun g => by
      split
      · exact U.recordFailure
      · exact T.pageWrite _ _

theorem Closed.checkVisit (T : Closed K Φ) (U : ClosedTest Φ) (col : Line) :
    Φ Unit (checkVisit K col) :=
  T.look (f := fun x => do
      let g ← Machine.pageRead K col
      if g != !x.pat.getLsbD 0 then recordFailure else Pure.pure ())
    fun x => T.bind (T.pageRead _) fun g => by
      split
      · exact U.recordFailure
      · exact T.pure ()

theorem Closed.ifNoFailure (T : Closed K Φ) {m : Micro Unit} (h : Φ Unit m) :
    Φ Unit (ifNoFailure m) :=
  T.look (f := fun x => if x.failCnt = 0#32 then m else Pure.pure ()) fun x => by
    split
    · exact h
    · exact T.pure ()

/-- `RUN_TEST`, for a property the updates of the test registers have as well. -/
theorem Closed.runTestOn (T : Closed K Φ) (U : ClosedTest Φ) (lines : BitVec 4) (n : Nat) :
    Φ Result (runTestOn K lines n) :=
  T.bind (U.setNlines _) fun _ => T.bind U.clearFailures fun _ =>
    T.bind (U.setSweep _) fun _ => T.bind (T.sweep U T.fillVisit _ n) fun _ =>
    T.bind (U.setSweep _) fun _ => T.bind (T.sweep U (T.checkComplementVisit U) _ n) fun _ =>
    T.bind (T.ifNoFailure (T.bind (U.setSweep _) fun _ => T.sweep U (T.checkVisit U) _ n)) fun _ =>
    T.bind (T.ifNoFailure (T.bind (U.setSweep _) fun _ =>
      T.bind (T.sweep U T.fillVisit _ n) fun _ => T.bind (U.setSweep _) fun _ =>
        T.sweep U (T.checkComplementVisit U) _ n)) fun _ =>
    T.bind (T.ifNoFailure (T.bind (U.setSweep _) fun _ => T.sweep U (T.checkVisit U) _ n)) fun _ =>
    T.look (f := fun x => Pure.pure
      ({ outcome := if x.failCnt = 0#32 then .pass else .fail, lastSweep := x.sweep } : Result))
      fun _ => T.pure _

end Test

/-! ### `Stays` -/

/-- The state a micro-operation reaches, however it ends. -/
def reached {α : Type} (m : Micro α) (s : State) : State :=
  match m s with
  | .ok _ t => t
  | .error _ t => t

/-- Whatever the environment answers, `m` reaches a state related to the one it starts from. -/
def Stays (R : State → State → Prop) (α : Type) (m : Micro α) : Prop := ∀ s, R s (reached m s)

/-- A preorder that every event and every failure respects. -/
structure Tame (K : Params) (R : State → State → Prop) : Prop where
  refl : ∀ s, R s s
  trans : ∀ s t u, R s t → R t u → R s u
  withIoFails : ∀ s l, R s (s.withIoFails l)
  pinAt : ∀ s sig v, R s ((s.pinAt sig v).emit (.pin sig v))
  pinFailed : ∀ s sig, R s (s.pinFailed sig)
  toggled : ∀ s m, R s ((s.toggled m).emit (.addrToggle m))
  toggleFailed : ∀ s, R s s.toggleFailed
  waited : ∀ s c, Configured K c → R s (s.waited.emit (.wait c))
  tookDout : ∀ s, R s (s.tookDout.emit (.sample s.doutLevel))
  withSeq : ∀ s q, R s (s.withSeq q)
  withLda : ∀ s a, R s (s.withLda a)

theorem Tame.ioPoint {K : Params} {R : State → State → Prop} {α : Type} (T : Tame K R) {m : Micro α}
    {f : State → State} (h : Stays R α m) (hf : ∀ s, R s (f s)) : Stays R α (ioPoint m f) := by
  intro s
  unfold reached Machine.ioPoint
  cases hs : s.ioFails with
  | nil => simpa [reached] using h s
  | cons n later =>
    cases n with
    | zero => simpa using T.trans _ _ _ (T.withIoFails s later) (hf _)
    | succ n =>
      simpa [reached] using
        T.trans _ _ _ (T.withIoFails s (n :: later)) (h (s.withIoFails (n :: later)))

/-- Every micro-operation stays within a tame preorder. -/
theorem Tame.closed {K : Params} {R : State → State → Prop} (T : Tame K R) : Closed K (Stays R) where
  pure a := fun s => T.refl s
  bind {α β m f} h hf := by
    intro s
    have h1 := h s
    unfold reached at h1 ⊢
    rw [micro_bind]
    cases hm : m s with
    | ok a t => simp only [hm] at h1 ⊢; exact T.trans _ _ _ h1 (hf a t)
    | error e t => simpa only [hm] using h1
  look h := fun s => h s.x s
  pin sig v := by
    refine T.ioPoint (fun s => ?_) (fun s => T.pinFailed s sig)
    unfold reached pinOk
    cases s.dev.stray s.pin sig v with
    | none => exact T.pinAt s sig v
    | some e => exact T.refl s
  addrToggle m := T.ioPoint (fun s => T.toggled s m) T.toggleFailed
  wait sel := fun s => T.waited s _ ⟨sel, rfl⟩
  sample := T.ioPoint T.tookDout T.refl
  setSeq q := fun s => T.withSeq s q
  setLda a := fun s => T.withLda s a

/-- A preorder that also respects the updates of the test registers. -/
structure TameTest (R : State → State → Prop) : Prop where
  withNlines : ∀ s v, R s (s.withNlines v)
  withSweep : ∀ s v, R s (s.withSweep v)
  withRow : ∀ s v, R s (s.withRow v)
  withCol : ∀ s v, R s (s.withCol v)
  withPat : ∀ s v, R s (s.withPat v)
  failuresCleared : ∀ s, R s s.failuresCleared
  failureRecorded : ∀ s, R s s.failureRecorded

theorem TameTest.closed {R : State → State → Prop} (U : TameTest R) : ClosedTest (Stays R) where
  setNlines v := fun s => U.withNlines s v
  setSweep v := fun s => U.withSweep s v
  setRow v := fun s => U.withRow s v
  setCol v := fun s => U.withCol s v
  setPat v := fun s => U.withPat s v
  clearFailures := U.failuresCleared
  recordFailure := U.failureRecorded

/-! ### `NoIoFault` -/

/-- Where the environment fails nothing, `m` does not fail. -/
def Unfailing (α : Type) (m : Micro α) : Prop :=
  ∀ s, s.ioFails = [] → match m s with
    | .ok _ t => t.ioFails = []
    | .error .ioFault _ => False
    | .error (.refused _) _ => True

/-- Every micro-operation is unfailing. -/
theorem unfailing_closed (K : Params) : Closed K Unfailing where
  pure a := fun s h => h
  bind {α β m f} h hf := by
    intro s hs
    have h1 := h s hs
    rw [micro_bind]
    cases hm : m s with
    | ok a t => simp only [hm] at h1 ⊢; exact hf a t h1
    | error e t => cases e <;> simp_all
  look h := fun s hs => h s.x s hs
  pin sig v := by
    intro s hs
    rw [pin, ioPoint_undisturbed _ _ _ hs, pinOk]
    cases s.dev.stray s.pin sig v with
    | none => exact hs
    | some e => trivial
  addrToggle m := by
    intro s hs
    rw [addrToggle, ioPoint_undisturbed _ _ _ hs]
    exact hs
  wait sel := fun s h => h
  sample := by
    intro s hs
    rw [sample, ioPoint_undisturbed _ _ _ hs]
    exact hs
  setSeq q := fun s h => h
  setLda a := fun s h => h

theorem unfailing_closedTest : ClosedTest Unfailing where
  setNlines _ := fun _ h => h
  setSweep _ := fun _ h => h
  setRow _ := fun _ h => h
  setCol _ := fun _ h => h
  setPat _ := fun _ h => h
  clearFailures := fun _ h => h
  recordFailure := fun _ h => h

/-- An unfailing micro-operation that is never refused ends well. -/
theorem Ends.ok {α : Type} {P : State → Prop} {m : Micro α} {Q : α → State → Prop} {F : State → Prop}
    (h : Ends P m Q F) (hu : Unfailing α m) {s : State} (hs : P s) (hio : s.ioFails = []) :
    ∃ a t, m s = .ok a t ∧ Q a t ∧ t.ioFails = [] := by
  have h1 := h s hs
  have h2 := hu s hio
  split at h1
  · rename_i a t hm
    exact ⟨a, t, hm, h1, by simpa [hm] using h2⟩
  · simp_all
  · exact h1.elim

end Sys2Proof.Machine
end

