-- ==== Sys2Proof/Laws/Operation.lean ====
section
/-!
SUPPORT. What the life cycle of a command does around the body of an operation: the three ways an
operation ends, when it is accepted, and what the accesses made while it runs change.
-/

namespace Sys2Proof.Machine

open Sys2Proof.Safety
open Sys2Proof.Config (Params DevLines)

/-- The body of an operation. -/
def bodyOf (K : Params) : Instr → Micro Result
  | .init => initBody K
  | .runTest lines => runTestBody K lines
  | i => plainBody K i

theorem bodyOf_plain {K : Params} {i : Instr} (h1 : i ≠ .init) (h2 : ∀ lines, i ≠ .runTest lines) :
    bodyOf K i = plainBody K i := by
  cases i <;> simp_all [bodyOf]

/-- The body of every operation has every closed property that the updates of the test registers and
the return from a fault have as well. -/
theorem Closed.bodyOf {K : Params} {Φ : ∀ α : Type, Micro α → Prop} (T : Closed K Φ)
    (U : ClosedTest Φ) (h : Φ Unit (modify State.recovered)) (i : Instr) :
    Φ Result (bodyOf K i) := by
  by_cases h1 : i = .init
  · subst h1; exact T.initBody h
  · by_cases h2 : ∃ lines, i = .runTest lines
    · obtain ⟨lines, rfl⟩ := h2
      exact T.runTestOn U lines _
    · rw [bodyOf_plain h1 fun lines hl => h2 ⟨lines, hl⟩]
      exact T.plainBody i

/-- The state checks let an operation through (`60_exceptions.md` R270). -/
def Accepts (i : Instr) (s : State) : Prop :=
  i.wellFormed = true ∧ (i = .init ∨
    (s.status.fault = false ∧ s.status.inited = true ∧ legalIn i.opcode s.seq = true))

/-- An accepted operation runs its body. -/
theorem exec_accepted {i : Instr} {s : State} (h : Accepts i s) :
    exec i s = runOperation (bodyOf Config.machine i) s := by
  obtain ⟨hw, rfl | ⟨h1, h2, h3⟩⟩ := h
  · rfl
  · cases i <;>
      simp_all [exec, execDelay, execAddrSet, execOpenRow, execStrobeCol, execCloseRow,
        execPageWrite, execPageRead, execWriteBitEarly, execReadBit, execInit, execIsPresent,
        execChipKind, execRunTest, guarded, bodyOf, plainBody, Instr.opcode, Instr.wellFormed]

/-- Any other operation is turned away with a command error. -/
theorem exec_not_accepted {i : Instr} {s : State} (h : ¬ Accepts i s) :
    i ≠ .init ∧ ∃ e, exec i s = .next (s.cmdErr e) := by
  have hi : i ≠ .init := by rintro rfl; exact h ⟨rfl, .inl rfl⟩
  refine ⟨hi, ?_⟩
  have key : ∀ (o : Opcode) (body : Micro Result),
      ¬ (s.status.fault = false ∧ s.status.inited = true ∧ legalIn o s.seq = true) →
      ∃ e, guarded o body s = .next (s.cmdErr e) := by
    intro o body h
    unfold guarded
    split
    · exact ⟨_, rfl⟩
    · split
      · exact ⟨_, rfl⟩
      · split
        · exact ⟨_, rfl⟩
        · simp_all
  cases i with
  | init => exact absurd rfl hi
  | runTest lines =>
    cases hl : legalLines lines
    · exact ⟨_, by simp [exec, execRunTest, hl]; rfl⟩
    · simpa [exec, execRunTest, hl] using key _ _ (by simpa [Accepts, Instr.wellFormed, Instr.opcode, hl] using h)
  | _ => exact key _ _ (by simpa [Accepts, Instr.wellFormed, Instr.opcode] using h)

/-- What an accepted operation comes to, by what its body does. -/
theorem runOperation_next {body : Micro Result} {s t : State}
    (h : runOperation body s = .next t) :
    (∃ r u, body s.started = .ok r u ∧ t = u.finished r) ∨
      (∃ u, body s.started = .error .ioFault u ∧ t = u.ioFault) := by
  unfold runOperation at h
  split at h
  · exact .inl ⟨_, _, ‹_›, by simpa using h.symm⟩
  · exact .inr ⟨_, ‹_›, by simpa using h.symm⟩
  · cases h

/-- The ways an operation leaves a next state. -/
theorem exec_cases {i : Instr} {s t : State} (h : exec i s = .next t) :
    (i ≠ .init ∧ ¬ Accepts i s ∧ ∃ e, t = s.cmdErr e) ∨
      (Accepts i s ∧ ((∃ r u, bodyOf Config.machine i s.started = .ok r u ∧ t = u.finished r) ∨
        (∃ u, bodyOf Config.machine i s.started = .error .ioFault u ∧ t = u.ioFault))) := by
  by_cases ha : Accepts i s
  · exact .inr ⟨ha, runOperation_next (by rwa [exec_accepted ha] at h)⟩
  · obtain ⟨hi, e, he⟩ := exec_not_accepted ha
    exact .inl ⟨hi, ha, e, by rw [he] at h; simpa using h.symm⟩

/-- An undisturbed accepted operation whose body ends well. -/
theorem exec_of_body {i : Instr} {s u : State} {r : Result} (h : Accepts i s)
    (hb : bodyOf Config.machine i s.started = .ok r u) : exec i s = .next (u.finished r) := by
  rw [exec_accepted h, runOperation, hb]

/-- Where the host makes no access, the start of an operation only sets `BUSY`. -/
theorem started_of_hostSilent {s : State} (h : HostSilent s) : s.started = s.nowBusy := by
  simp [State.started, h]

/-- What the accesses made while an operation runs change (`10_state.md` R44, `60_exceptions.md` R267):
`OVERRUN` where one of them is a `CMD` write, the word read, and one free value for each read. -/
theorem foldl_busyAccess (accesses : List HostAccess) (s : State) (h : s.status.busy = true) :
    ∃ rd, accesses.foldl State.busyAccess s = { s with
      status.overrun := s.status.overrun || accesses.any isCommand
      readData := rd
      freeNo := s.freeNo + accesses.countP isRead } := by
  induction accesses generalizing s with
  | nil => exact ⟨s.readData, by simp⟩
  | cons a rest ih =>
    rw [List.foldl_cons]
    cases a with
    | write r w =>
      cases r
      case cmd =>
        obtain ⟨rd, hrd⟩ := ih s.overrun h
        exact ⟨rd, by simp [State.busyAccess, hrd, isCommand, isRead]⟩
      all_goals
        obtain ⟨rd, hrd⟩ := ih s h
        exact ⟨rd, by simp [State.busyAccess, hrd, isCommand, isRead]⟩
    | read r =>
      obtain ⟨rd, hrd⟩ := ih { s with readData := s.busyReadWord r, freeNo := s.freeNo + 1 } h
      refine ⟨rd, ?_⟩
      rw [State.busyAccess, State.hostRead, if_pos h]
      simpa [isCommand, isRead, List.countP_cons, State.tookFree, Nat.add_comm, Nat.add_left_comm] using hrd

/-- What the start of an operation changes. -/
theorem started_eq (s : State) :
    ∃ rd, s.started = { s with
      status.busy := true
      status.overrun := s.status.overrun || s.overlap.any isCommand
      overlap := []
      readData := rd
      freeNo := s.freeNo + s.overlap.countP isRead } := by
  obtain ⟨rd, h⟩ := foldl_busyAccess s.overlap s.nowBusy rfl
  exact ⟨rd, by rw [State.started, h]; rfl⟩

/-! ### What the host leaves behind -/

/-- What accesses of the host leave in a state besides the free values they took: `OVERRUN` and the
word read. -/
def State.polled (s : State) (o : Bit) (rd : Word) : State :=
  { s with status.overrun := o, readData := rd }

/-- `m` neither looks at what the host left behind nor changes it. -/
def Blind (α : Type) (m : Micro α) : Prop :=
  ∀ s o rd, m (s.polled o rd) = match m s with
    | .ok a t => .ok a (t.polled o rd)
    | .error e t => .error e (t.polled o rd)

theorem Blind.ioPoint {α : Type} {m : Micro α} {f : State → State} (h : Blind α m)
    (hf : ∀ s o rd, f (s.polled o rd) = (f s).polled o rd) : Blind α (Machine.ioPoint m f) := by
  intro s o rd
  have hw : ∀ l, (s.polled o rd).withIoFails l = (s.withIoFails l).polled o rd := fun _ => rfl
  unfold Machine.ioPoint
  rw [show (s.polled o rd).ioFails = s.ioFails from rfl]
  cases s.ioFails with
  | nil => exact h s o rd
  | cons n later =>
    cases n with
    | zero => simp only [hw, hf]
    | succ n => simp only [hw]; exact h _ o rd

/-- Every micro-operation is blind to what the host left behind. -/
theorem blind_closed (K : Params) : Closed K Blind where
  pure _ := fun _ _ _ => rfl
  bind {α β m f} h hf := by
    intro s o rd
    rw [micro_bind, micro_bind, h s o rd]
    cases m s with
    | ok a t => exact hf a t o rd
    | error e t => rfl
  look h := fun s o rd => h s.x s o rd
  pin sig v := Blind.ioPoint
    (fun s o rd => by
      unfold pinOk
      rw [show (s.polled o rd).dev.stray (s.polled o rd).pin sig v = s.dev.stray s.pin sig v from rfl]
      cases s.dev.stray s.pin sig v <;> rfl)
    (fun s o rd => by
      unfold State.pinFailed
      rw [show (s.polled o rd).dev.stray (s.polled o rd).pin sig (s.polled o rd).freeBit =
        s.dev.stray s.pin sig s.freeBit from rfl]
      cases s.dev.stray s.pin sig s.freeBit <;> rfl)
  addrToggle _ := Blind.ioPoint (fun _ _ _ => rfl) fun _ _ _ => rfl
  wait _ := fun _ _ _ => rfl
  sample := Blind.ioPoint (fun _ _ _ => rfl) fun _ _ _ => rfl
  setSeq _ := fun _ _ _ => rfl
  setLda _ := fun _ _ _ => rfl

theorem blind_closedTest : ClosedTest Blind where
  setNlines _ := fun _ _ _ => rfl
  setSweep _ := fun _ _ _ => rfl
  setRow _ := fun _ _ _ => rfl
  setCol _ := fun _ _ _ => rfl
  setPat _ := fun _ _ _ => rfl
  clearFailures := fun _ _ _ => rfl
  recordFailure := fun _ _ _ => rfl

/-- The body of every operation is blind to what the host left behind. -/
theorem blind_bodyOf (K : Params) (i : Instr) : Blind Result (bodyOf K i) :=
  (blind_closed K).bodyOf blind_closedTest (fun _ _ _ => rfl) i

/-- So an operation carries it from its start to its end. -/
theorem runOperation_polled {body : Micro Result} (h : Blind Result body) {s t : State} {o : Bit}
    {rd : Word} (hs : t.started = s.started.polled o rd) :
    runOperation body t = mapNext (·.polled o rd) (runOperation body s) := by
  unfold runOperation
  rw [hs, h s.started o rd]
  cases body s.started with
  | ok r u => rfl
  | error e u => cases e <;> rfl

end Sys2Proof.Machine
end

