-- ==== Sys2Proof/Laws/Protocol.lean ====
section
/-!
SUPPORT. What each protocol micro-operation does where nothing disturbs it: one equation per
micro-operation, which claims about operations cite.
-/

namespace Sys2Proof.Machine

open Sys2Proof.Safety
open Sys2Proof.Config (Params DevLines)

@[simp] theorem wired_lineAddress (v : Line) : wired (lineAddress v) = v := by
  simp [wired, lineAddress]

theorem wired_xor (v w : Word) : wired (v ^^^ w) = wired v ^^^ wired w := by
  simp [wired]

/-- Every address driven is the intended one exclusive-or the error pattern
(`70_reset_and_hazards.md` R303). -/
theorem shown_eq (a : Line) (lda : Word) (v : Line) :
    shown a lda v = v ^^^ (a ^^^ wired lda) := by
  rw [shown, wired_xor, wired_lineAddress, ← BitVec.xor_assoc, ← BitVec.xor_assoc,
    BitVec.xor_comm v]

/-- The error pattern survives an address change (`70_reset_and_hazards.md` R303). -/
@[simp] theorem shown_after (a : Line) (lda : Word) (v w : Line) :
    shown (shown a lda v) (lineAddress v) w = shown a lda w := by
  rw [shown_eq, shown_eq a, shown_eq a, wired_lineAddress, BitVec.xor_comm v,
    BitVec.xor_assoc (a ^^^ wired lda), BitVec.xor_self]
  simp

/-- Where `AddrInvariant` holds the lines show the intended address. -/
theorem presented_of_invariant (s : State) (v : Line) (h : AddrInvariant s) :
    presented s v = v := by
  rw [presented, shown_eq, h]
  simp

theorem react_absent (d : Device) (p : Pins) (free : Bit) (sig : Signal) (v : Bit)
    (h : d.present = false) : d.react p free sig v = d := by
  simp [Device.react, h]

/-- `openRow(row)` from high strobes (`42_protocol_sequencer.md` R173). -/
theorem openRow_undisturbed (K : Params) (row : Line) (s : State) (h : s.ioFails = [])
    (hr : s.pin.rasN = true) (hc : s.pin.casN = true) :
    openRow K row s = .ok () { s with
      pin.a := presented s row
      pin.rasN := false
      x.lda := lineAddress row
      x.dcnt := 0
      seq := .rowOpen
      dev.rowLatch :=
        if s.dev.present then some (seenLines s.dev.lines (presented s row)) else s.dev.rowLatch
      trace := .wait (cRcd K) :: .pin .rasN false :: .wait (cAs K)
        :: .addrToggle (lineAddress row ^^^ s.x.lda) :: s.trace } := by
  rcases s with ⟨p, x, q, st, res, ⟨pres, l, stu, le, tm, up, cs, rl, dr⟩, tr, ho, ov, rd, io, fn⟩
  simp only at h hr hc
  cases pres <;>
    simp [openRow, addrSet_undisturbed, pin_undisturbed, stray_rasFall, State.emit, State.waited,
      State.pinAt, State.withSeq, h, hr, hc, Device.react, Device.rasFall, Device.reactDraws,
      Pins.drive, presented, shown]

/-- `closeRow()` (`42_protocol_sequencer.md` R177). -/
theorem closeRow_undisturbed (K : Params) (s : State) (h : s.ioFails = [])
    (hd : s.dev.present = false → s.dev.rowLatch = none ∧ s.dev.drive = none) :
    closeRow K s = .ok () { s with
      pin.rasN := true
      x.dcnt := 0
      seq := .idle
      dev.rowLatch := none
      dev.drive := none
      trace := .wait (cRp K) :: .pin .rasN true :: s.trace } := by
  rcases s with ⟨p, x, q, st, res, ⟨pres, l, stu, le, tm, up, cs, rl, dr⟩, tr, ho, ov, rd, io, fn⟩
  simp only at h hd
  cases pres <;>
    simp_all [closeRow, pin_undisturbed, State.emit, State.waited,
      State.pinAt, State.withSeq, Device.react, Device.rasRise, Device.reactDraws, Pins.drive]

/-- `strobeColumn(col)` with the write enable high: no cell changes
(`42_protocol_sequencer.md` R175, R176). -/
theorem strobeColumn_read_undisturbed (K : Params) (col : Line) (s : State) (h : s.ioFails = [])
    (hc : s.pin.casN = true) (hw : s.pin.weN = true) (hd : s.dev.drive = none)
    (hl : s.dev.rowLatch.isSome = s.dev.present) :
    strobeColumn K col s = .ok () { s with
      pin.a := presented s col
      x.lda := lineAddress col
      x.dcnt := 0
      seq := .rowOpen
      freeNo := s.freeNo + drawsOfStrobe s
      trace := .pin .casN true :: .wait (cCas K) :: .pin .casN false :: .wait (cAs K)
        :: .addrToggle (lineAddress col ^^^ s.x.lda) :: s.trace } := by
  rcases s with ⟨⟨ra, ca, we, di, a⟩, x, q, st, res, ⟨pres, l, stu, le, tm, up, cs, rl, dr⟩, tr, ho, ov, rd, io, fn⟩
  simp only at h hc hd hl hw
  cases pres <;> cases rl <;>
    simp_all [strobeColumn, addrSet_undisturbed, pin_undisturbed, stray_casFall, State.emit,
      State.waited, State.pinAt, State.withSeq, Device.react, Device.casFall, Device.access,
      Device.casRise, Device.reactDraws, Pins.drive, presented, shown, drawsOfStrobe, Device.reliable]

/-- `strobeColumn(col)` with the write enable low: an early write
(`42_protocol_sequencer.md` R175, `20_memory.md` R66). -/
theorem strobeColumn_write_undisturbed (K : Params) (col : Line) (s : State) (h : s.ioFails = [])
    (hc : s.pin.casN = true) (hw : s.pin.weN = false) (hd : s.dev.drive = none)
    (hl : s.dev.rowLatch.isSome = s.dev.present) :
    strobeColumn K col s = .ok () { s with
      pin.a := presented s col
      x.lda := lineAddress col
      x.dcnt := 0
      seq := .rowOpen
      dev.cells := cellsAfterWrite s (pageKey s col) s.pin.din
      freeNo := s.freeNo + drawsOfStrobe s
      trace := .pin .casN true :: .wait (cCas K) :: .pin .casN false :: .wait (cAs K)
        :: .addrToggle (lineAddress col ^^^ s.x.lda) :: s.trace } := by
  rcases s with ⟨⟨ra, ca, we, di, a⟩, x, q, st, res, ⟨pres, l, stu, le, tm, up, cs, rl, dr⟩, tr, ho, ov, rd, io, fn⟩
  simp only at h hc hd hl hw
  cases pres <;> cases rl <;>
    simp_all [strobeColumn, addrSet_undisturbed, pin_undisturbed, stray_casFall, State.emit,
      State.waited, State.pinAt, State.withSeq, Device.react, Device.casFall, Device.access,
      Device.casRise, Device.reactDraws, Pins.drive, presented, shown, drawsOfStrobe, Device.reliable,
      cellsAfterWrite, pageKey, Device.memWriteBit, State.freeBit, State.freeWord]

/-- `strobeColumnRead(col)` with the write enable high: the bit of the cell in the latched row, or a
draw where no device is present (`42_protocol_sequencer.md` R181, `20_memory.md` R66, R68). -/
theorem strobeColumnRead_undisturbed (K : Params) (col : Line) (s : State) (h : s.ioFails = [])
    (hc : s.pin.casN = true) (hw : s.pin.weN = true) (hd : s.dev.drive = none)
    (hl : s.dev.rowLatch.isSome = s.dev.present) :
    strobeColumnRead K col s = .ok (sampledBit s (pageKey s col)) { s with
      pin.a := presented s col
      x.lda := lineAddress col
      x.dcnt := 0
      seq := .rowOpen
      freeNo := s.freeNo + drawsOfRead s
      trace := .pin .casN true :: .sample (sampledBit s (pageKey s col)) :: .wait (cXs K)
        :: .wait (cCas K) :: .pin .casN false :: .wait (cAs K)
        :: .addrToggle (lineAddress col ^^^ s.x.lda) :: s.trace } := by
  rcases s with ⟨⟨ra, ca, we, di, a⟩, x, q, st, res, ⟨pres, l, stu, le, tm, up, cs, rl, dr⟩, tr, ho, ov, rd, io, fn⟩
  simp only at h hc hd hl hw
  cases pres <;> cases rl <;>
    simp_all [strobeColumnRead, addrSet_undisturbed, pin_undisturbed, stray_casFall, State.emit,
      sample_undisturbed, State.tookDout, State.doutLevel, Device.doutDraws, Device.driven,
      State.waited, State.pinAt, State.withSeq, Device.react, Device.casFall, Device.access,
      Device.casRise, Device.reactDraws, Pins.drive, presented, shown, drawsOfRead, Device.reliable,
      sampledBit, pageKey, Device.memReadBit, Device.readCell, Device.cell, State.freeBit,
      State.freeWord]
  cases tm <;> cases up <;> rfl

/-- `pageWrite(col, b)` (`42_protocol_sequencer.md` R179). -/
theorem pageWrite_undisturbed (K : Params) (col : Line) (b : Bit) (s : State) (h : s.ioFails = [])
    (hc : s.pin.casN = true) (hd : s.dev.drive = none)
    (hl : s.dev.rowLatch.isSome = s.dev.present) :
    pageWrite K col b s = .ok () { s with
      pin.a := presented s col
      pin.weN := true
      pin.din := b
      x.lda := lineAddress col
      x.dcnt := 0
      seq := .rowOpen
      dev.cells := cellsAfterWrite s (pageKey s col) b
      freeNo := s.freeNo + drawsOfStrobe s
      trace := .wait (cCp K) :: .pin .weN true :: .pin .casN true :: .wait (cCas K)
        :: .pin .casN false :: .wait (cAs K) :: .addrToggle (lineAddress col ^^^ s.x.lda)
        :: .pin .din b :: .pin .weN false :: s.trace } := by
  have h1 : pin .weN false s = .ok () ((s.pinAt .weN false).emit (.pin .weN false)) :=
    pin_undisturbed _ _ _ h (stray_weFall _ _ hc)
  rw [pageWrite, micro_bind_ok h1, micro_bind_ok (pin_undisturbed _ _ _ (by simpa using h) (by simp))]
  rw [micro_bind_ok (strobeColumn_write_undisturbed K col _ (by simpa using h) (by simpa [Pins.drive] using hc)
    (by simp [Pins.drive]) (by simpa [Device.react] using hd) (by simpa [Device.react] using hl))]
  rw [micro_bind_ok (pin_undisturbed _ _ _ (by simpa using h) (by simp))]
  rcases s with ⟨⟨ra, ca, we, di, a⟩, x, q, st, res, ⟨pres, l, stu, le, tm, up, cs, rl, dr⟩, tr, ho, ov, rd, io, fn⟩
  simp [State.emit, State.waited, State.pinAt, Device.react, Device.reactDraws, Pins.drive,
    presented, drawsOfStrobe, Device.reliable, cellsAfterWrite, pageKey, Device.memWriteBit,
    State.freeBit, State.freeWord]

/-- `pageRead(col)` (`42_protocol_sequencer.md` R187). -/
theorem pageRead_undisturbed (K : Params) (col : Line) (s : State) (h : s.ioFails = [])
    (hc : s.pin.casN = true) (hw : s.pin.weN = true) (hd : s.dev.drive = none)
    (hl : s.dev.rowLatch.isSome = s.dev.present) :
    pageRead K col s = .ok (sampledBit s (pageKey s col)) { s with
      pin.a := presented s col
      x.lda := lineAddress col
      x.dcnt := 0
      seq := .rowOpen
      freeNo := s.freeNo + drawsOfRead s
      trace := .wait (cCp K) :: .pin .casN true :: .sample (sampledBit s (pageKey s col))
        :: .wait (cXs K) :: .wait (cCas K) :: .pin .casN false :: .wait (cAs K)
        :: .addrToggle (lineAddress col ^^^ s.x.lda) :: s.trace } := by
  rw [pageRead, micro_bind_ok (strobeColumnRead_undisturbed K col s h hc hw hd hl)]
  simp [State.emit, State.waited]

/-- `writeBitEarly(row, col, b)` (`42_protocol_sequencer.md` R183). -/
theorem writeBitEarly_undisturbed (K : Params) (row col : Line) (b : Bit) (s : State)
    (h : s.ioFails = []) (hr : s.pin.rasN = true) (hc : s.pin.casN = true)
    (hl : s.dev.rowLatch = none) (hd : s.dev.drive = none) :
    writeBitEarly K row col b s = .ok () { s with
      pin.a := presented s col
      pin.weN := true
      pin.din := b
      x.lda := lineAddress col
      x.dcnt := 0
      seq := .idle
      dev.cells := cellsAfterWrite s (targetKey s row col) b
      freeNo := s.freeNo + drawsOfStrobe s
      trace := .pin .weN true :: .wait (cRp K) :: .pin .rasN true :: .wait (cRest K)
        :: .pin .casN true :: .wait (cCas K) :: .pin .casN false :: .wait (cAs K)
        :: .addrToggle (lineAddress col ^^^ lineAddress row) :: .wait (cRcd K) :: .pin .rasN false
        :: .wait (cAs K) :: .addrToggle (lineAddress row ^^^ s.x.lda) :: .pin .din b
        :: .pin .weN false :: s.trace } := by
  have h1 : pin .weN false s = .ok () ((s.pinAt .weN false).emit (.pin .weN false)) :=
    pin_undisturbed _ _ _ h (stray_weFall _ _ hc)
  rw [writeBitEarly, micro_bind_ok h1,
    micro_bind_ok (pin_undisturbed _ _ _ (by simpa using h) (by simp)),
    micro_bind_ok (openRow_undisturbed K row _ (by simpa using h) (by simpa [Pins.drive] using hr)
      (by simpa [Pins.drive] using hc)),
    micro_bind_ok (strobeColumn_write_undisturbed K col _ (by simpa using h)
      (by simpa [Pins.drive] using hc) (by simp [Pins.drive]) (by simpa [Device.react] using hd)
      (by cases hp : s.dev.present <;> simp [Device.react, hl, hp])),
    micro_bind_ok (wait_apply _ _),
    micro_bind_ok (closeRow_undisturbed K _ (by simpa using h)
      (by cases hp : s.dev.present <;> simp [Device.react, hl, hp, hd])),
    pin_undisturbed _ _ _ (by simpa using h) (by simp)]
  rcases s with ⟨⟨ra, ca, we, di, a⟩, x, q, st, res, ⟨pres, l, stu, le, tm, up, cs, rl, dr⟩, tr, ho, ov, rd, io, fn⟩
  simp only at h hr hc hl hd
  subst h hr hc hl hd
  cases pres <;>
    simp [State.emit, State.waited, State.pinAt, Device.react, Device.reactDraws, Pins.drive,
      presented, drawsOfStrobe, Device.reliable, cellsAfterWrite, pageKey, targetKey, reachedKey,
      Device.memWriteBit, State.freeBit, State.freeWord]

/-- `readBit(row, col)` (`42_protocol_sequencer.md` R185). -/
theorem readBit_undisturbed (K : Params) (row col : Line) (s : State) (h : s.ioFails = [])
    (hr : s.pin.rasN = true) (hc : s.pin.casN = true) (hw : s.pin.weN = true)
    (hl : s.dev.rowLatch = none) (hd : s.dev.drive = none) :
    readBit K row col s = .ok (sampledBit s (targetKey s row col)) { s with
      pin.a := presented s col
      x.lda := lineAddress col
      x.dcnt := 0
      seq := .idle
      freeNo := s.freeNo + drawsOfRead s
      trace := .wait (cRp K) :: .pin .rasN true :: .wait (cRest K) :: .pin .casN true
        :: .sample (sampledBit s (targetKey s row col)) :: .wait (cXs K) :: .wait (cCas K)
        :: .pin .casN false :: .wait (cAs K) :: .addrToggle (lineAddress col ^^^ lineAddress row)
        :: .wait (cRcd K) :: .pin .rasN false :: .wait (cAs K)
        :: .addrToggle (lineAddress row ^^^ s.x.lda) :: s.trace } := by
  refine (micro_bind_ok (openRow_undisturbed K row s h hr hc) _).trans ?_
  refine (micro_bind_ok (strobeColumnRead_undisturbed K col _ (by exact h) (by exact hc)
    (by exact hw) (by exact hd) (by by_cases hp : s.dev.present = true <;> simp_all)) _).trans ?_
  refine (micro_bind_ok (wait_apply _ _) _).trans ?_
  refine (micro_bind_ok (closeRow_undisturbed K _ (by exact h) (by intro hp; simp_all)) _).trans ?_
  rcases s with ⟨⟨ra, ca, we, di, a⟩, x, q, st, res, ⟨pres, l, stu, le, tm, up, cs, rl, dr⟩, tr, ho, ov, rd, io, fn⟩
  simp only at h hr hc hw hl hd
  subst h hr hc hw hl hd
  cases pres <;>
    simp [State.emit, State.waited, presented, drawsOfRead, Device.reliable, sampledBit, pageKey,
      targetKey, reachedKey, Device.memReadBit, Device.readCell, Device.cell, State.freeBit,
      State.freeWord]

/-- `prechargePulse()` (`43_init_and_detection.md` R200), where a present device has nothing latched and
does not drive. -/
theorem prechargePulse_undisturbed (K : Params) (s : State) (h : s.ioFails = [])
    (hr : s.pin.rasN = true) (hc : s.pin.casN = true)
    (hl : s.dev.present = true → s.dev.rowLatch = none)
    (hd : s.dev.present = true → s.dev.drive = none) :
    prechargePulse K s = .ok () { s with
      x.dcnt := 0
      trace := .wait (cRp K) :: .pin .rasN true :: .wait (cRas K) :: .pin .rasN false
        :: s.trace } := by
  rcases s with ⟨⟨ra, ca, we, di, a⟩, x, q, st, res, ⟨pres, l, stu, le, tm, up, cs, rl, dr⟩, tr, ho, ov, rd, io, fn⟩
  simp only at h hr hc hl hd
  subst h hr hc
  cases pres <;>
    simp_all [prechargePulse, pin_undisturbed, stray_rasFall, State.emit, State.waited, State.pinAt,
      Device.react, Device.rasFall, Device.rasRise, Device.reactDraws, Pins.drive]

end Sys2Proof.Machine
end

