-- ==== Sys2Proof/Laws/Phases.lean ====
section
/-!
SUPPORT. The phases of a memory cycle (`42_protocol_sequencer.md` R170) and what each
micro-operation does to them, whatever the environment answers: it goes from one phase to another,
or it fails in a state where the device is still sound, and it is never refused.
-/

namespace Sys2Proof.Machine

open Sys2Proof.Safety
open Sys2Proof.Config (Params DevLines)

/-- What stays fixed while the engine works: the status, the error pattern of the address lines, the
device's parameters, and a property of its cells. -/
structure Scene where
  status : Status
  e : Line
  present : Bool
  lines : DevLines
  upset : Bool
  cells : Cells → Prop

/-- What holds at every point, even after a failed event. -/
structure Scene.Base (c : Scene) (s : State) : Prop where
  status : s.status = c.status
  dcnt : s.x.dcnt = 0
  cells : c.cells s.dev.cells
  present : s.dev.present = c.present
  lines : s.dev.lines = c.lines

/-- What holds at every point where no event has failed. -/
structure Scene.Live (c : Scene) (s : State) : Prop extends Scene.Base c s where
  addr : s.pin.a = wired s.x.lda ^^^ c.e
  upset : s.dev.upset = c.upset

/-- After a failed event: the device is sound. -/
structure Scene.Down (c : Scene) (s : State) : Prop extends Scene.Base c s where
  row : ∀ r, s.dev.rowLatch = some r → r.toNat < 2 ^ lineCount c.lines
  absent : c.present = false → s.dev.rowLatch = none ∧ s.dev.drive = none

/-- No row open: strobes high, nothing latched, nothing driven; the write enable at `w`. -/
structure Scene.Idle (c : Scene) (w : Bit) (q : SeqState) (s : State) : Prop
    extends Scene.Live c s where
  rasN : s.pin.rasN = true
  casN : s.pin.casN = true
  weN : s.pin.weN = w
  rowLatch : s.dev.rowLatch = none
  drive : s.dev.drive = none
  seq : s.seq = q

/-- A row open: the row strobe low, the row latched, nothing driven. -/
structure Scene.Open (c : Scene) (r : Line) (w : Bit) (q : SeqState) (s : State) : Prop
    extends Scene.Live c s where
  rasN : s.pin.rasN = false
  casN : s.pin.casN = true
  weN : s.pin.weN = w
  rowLatch : s.dev.rowLatch = if c.present then some r else none
  drive : s.dev.drive = none
  seq : s.seq = q

/-- A column strobed: both strobes low. -/
structure Scene.Strobed (c : Scene) (r : Line) (w : Bit) (s : State) : Prop
    extends Scene.Live c s where
  rasN : s.pin.rasN = false
  casN : s.pin.casN = false
  weN : s.pin.weN = w
  rowLatch : s.dev.rowLatch = if c.present then some r else none
  drive : c.present = false → s.dev.drive = none

/-- A row of the chip. -/
abbrev Scene.Row (c : Scene) (r : Line) : Prop := r.toNat < 2 ^ lineCount c.lines

/-- A write at column `col` of row `r` keeps the property of the cells. -/
abbrev Scene.MayWrite (c : Scene) (r col : Line) : Prop :=
  ∀ cs b, c.cells cs → c.cells (Cells.store cs (cellKey r (seenLines c.lines (col ^^^ c.e))) b)

variable {c : Scene} {K : Params}

theorem Scene.Idle.down {w q s} (h : c.Idle w q s) : c.Down s :=
  { h.toBase with row := by simp [h.rowLatch], absent := fun _ => ⟨h.rowLatch, h.drive⟩ }

theorem Scene.Open.down {r w q s} (hr : c.Row r) (h : c.Open r w q s) : c.Down s :=
  { h.toBase with
    row := by intro r' h'; rw [h.rowLatch] at h'; split at h' <;> simp_all
    absent := fun hp => by simp [h.rowLatch, h.drive, hp] }

theorem Scene.Strobed.down {r w s} (hr : c.Row r) (h : c.Strobed r w s) : c.Down s :=
  { h.toBase with
    row := by intro r' h'; rw [h.rowLatch] at h'; split at h' <;> simp_all
    absent := fun hp => ⟨by simp [h.rowLatch, hp], h.drive hp⟩ }

/-! ### Events -/

theorem Scene.Idle.withIoFails {w q s} (l : List Nat) (h : c.Idle w q s) :
    c.Idle w q (s.withIoFails l) := by
  obtain ⟨⟨⟨h1, h2, h3, h4, h5⟩, h6, h7⟩, h8, h9, h10, h11, h12, h13⟩ := h
  exact ⟨⟨⟨h1, h2, h3, h4, h5⟩, h6, h7⟩, h8, h9, h10, h11, h12, h13⟩

theorem Scene.Open.withIoFails {r w q s} (l : List Nat) (h : c.Open r w q s) :
    c.Open r w q (s.withIoFails l) := by
  obtain ⟨⟨⟨h1, h2, h3, h4, h5⟩, h6, h7⟩, h8, h9, h10, h11, h12, h13⟩ := h
  exact ⟨⟨⟨h1, h2, h3, h4, h5⟩, h6, h7⟩, h8, h9, h10, h11, h12, h13⟩

theorem Scene.Strobed.withIoFails {r w s} (l : List Nat) (h : c.Strobed r w s) :
    c.Strobed r w (s.withIoFails l) := by
  obtain ⟨⟨⟨h1, h2, h3, h4, h5⟩, h6, h7⟩, h8, h9, h10, h11, h12⟩ := h
  exact ⟨⟨⟨h1, h2, h3, h4, h5⟩, h6, h7⟩, h8, h9, h10, h11, h12⟩

/-- A failed pin event leaves the device sound: a level of the column strobe that is low writes, if
at all, where the cycle would have. -/
theorem Scene.Down.pinFailed {s : State} (sig : Signal) (h : c.Down s)
    (hw : ∀ r, sig = .casN → s.pin.casN = true → s.pin.weN = false → s.dev.rowLatch = some r →
      ∀ cs b, c.cells cs →
      c.cells (Cells.store cs (cellKey r (seenLines c.lines s.pin.a)) b)) :
    c.Down (s.pinFailed sig) := by
  obtain ⟨⟨h1, h2, h3, h4, h5⟩, h6, h7⟩ := h
  unfold State.pinFailed
  split
  · exact ⟨⟨h1, h2, h3, h4, h5⟩, h6, h7⟩
  · rename_i hs
    have hd : c.Down { s with dev := s.dev.react s.pin s.tookFree.freeBit sig s.freeBit } := by
      generalize s.tookFree.freeBit = f
      generalize s.freeBit = v at hs
      unfold Device.react
      by_cases hp : s.dev.present = true
      · rw [if_pos hp]
        cases sig <;> cases v <;> simp only
        case rasN.false =>
          split
          · refine ⟨⟨h1, h2, h3, h4, h5⟩, fun r hr => ?_, fun hc => ?_⟩
            · simp only [Device.rasFall, Option.some.injEq] at hr
              rw [← hr, h5]; exact seenLines_lt _ _
            · simp [← h4, hp] at hc
          · exact ⟨⟨h1, h2, h3, h4, h5⟩, h6, h7⟩
        case rasN.true => exact ⟨⟨h1, h2, h3, h4, h5⟩, by simp [Device.rasRise], by simp [Device.rasRise]⟩
        case casN.true => exact ⟨⟨h1, h2, h3, h4, h5⟩, h6, fun hc => ⟨(h7 hc).1, rfl⟩⟩
        case casN.false =>
          split
          · unfold Device.casFall
            cases hl : s.dev.rowLatch with
            | none => exact ⟨⟨h1, h2, h3, h4, h5⟩, h6, h7⟩
            | some r =>
              simp only [Device.access]
              split
              · exact ⟨⟨h1, h2, h3, h4, h5⟩, h6, fun hc => by simp [← h4, hp] at hc⟩
              · refine ⟨⟨h1, h2, ?_, h4, h5⟩, h6, fun hc => by simp [← h4, hp] at hc⟩
                have := hw r rfl ‹_› (by simpa using ‹¬ s.pin.weN = true›) hl s.dev.cells
                  (s.dev.memWriteBit f s.pin.din) h3
                simpa [h5] using this
          · exact ⟨⟨h1, h2, h3, h4, h5⟩, h6, h7⟩
        all_goals exact ⟨⟨h1, h2, h3, h4, h5⟩, h6, h7⟩
      · rw [if_neg hp]; exact ⟨⟨h1, h2, h3, h4, h5⟩, h6, h7⟩
    obtain ⟨⟨g1, g2, g3, g4, g5⟩, g6, g7⟩ := hd
    exact ⟨⟨g1, g2, g3, g4, g5⟩, g6, g7⟩

theorem Scene.Down.toggleFailed {s : State} (h : c.Down s) : c.Down s.toggleFailed := by
  obtain ⟨⟨h1, h2, h3, h4, h5⟩, h6, h7⟩ := h
  exact ⟨⟨h1, h2, h3, h4, h5⟩, h6, h7⟩

/-- A pin event between two predicates: it is within the protocol, takes one to the other, and
leaves the device sound where it fails. -/
theorem pin_ends {P Q : State → Prop} (sig : Signal) (v : Bit)
    (hw : ∀ s l, P s → P (s.withIoFails l)) (hs : ∀ s, P s → s.dev.stray s.pin sig v = none)
    (hq : ∀ s, P s → Q ((s.pinAt sig v).emit (.pin sig v))) (hf : ∀ s, P s → c.Down (s.pinFailed sig)) :
    Ends P (pin sig v) (fun _ => Q) c.Down := by
  refine Ends.ioPoint hw (fun s h => ?_) hf
  simp only [pinOk, hs s h]
  exact hq s h

theorem idle_wait {w q} (n : Nat) : Ends (c.Idle w q) (wait n) (fun _ => c.Idle w q) c.Down := by
  rintro s ⟨⟨⟨h1, h2, h3, h4, h5⟩, h6, h7⟩, h8, h9, h10, h11, h12, h13⟩
  exact ⟨⟨⟨h1, rfl, h3, h4, h5⟩, h6, h7⟩, h8, h9, h10, h11, h12, h13⟩

theorem open_wait {r w q} (n : Nat) :
    Ends (c.Open r w q) (wait n) (fun _ => c.Open r w q) c.Down := by
  rintro s ⟨⟨⟨h1, h2, h3, h4, h5⟩, h6, h7⟩, h8, h9, h10, h11, h12, h13⟩
  exact ⟨⟨⟨h1, rfl, h3, h4, h5⟩, h6, h7⟩, h8, h9, h10, h11, h12, h13⟩

theorem strobed_wait {r w} (n : Nat) :
    Ends (c.Strobed r w) (wait n) (fun _ => c.Strobed r w) c.Down := by
  rintro s ⟨⟨⟨h1, h2, h3, h4, h5⟩, h6, h7⟩, h8, h9, h10, h11, h12⟩
  exact ⟨⟨⟨h1, rfl, h3, h4, h5⟩, h6, h7⟩, h8, h9, h10, h11, h12⟩

theorem idle_setSeq {w q} (q' : SeqState) :
    Ends (c.Idle w q) (setSeq q') (fun _ => c.Idle w q') c.Down := by
  rintro s ⟨⟨⟨h1, h2, h3, h4, h5⟩, h6, h7⟩, h8, h9, h10, h11, h12, h13⟩
  exact ⟨⟨⟨h1, h2, h3, h4, h5⟩, h6, h7⟩, h8, h9, h10, h11, h12, rfl⟩

theorem open_setSeq {r w q} (q' : SeqState) :
    Ends (c.Open r w q) (setSeq q') (fun _ => c.Open r w q') c.Down := by
  rintro s ⟨⟨⟨h1, h2, h3, h4, h5⟩, h6, h7⟩, h8, h9, h10, h11, h12, h13⟩
  exact ⟨⟨⟨h1, h2, h3, h4, h5⟩, h6, h7⟩, h8, h9, h10, h11, h12, rfl⟩

theorem strobed_setSeq {r w} (q' : SeqState) :
    Ends (c.Strobed r w) (setSeq q') (fun _ => c.Strobed r w) c.Down := by
  rintro s ⟨⟨⟨h1, h2, h3, h4, h5⟩, h6, h7⟩, h8, h9, h10, h11, h12⟩
  exact ⟨⟨⟨h1, h2, h3, h4, h5⟩, h6, h7⟩, h8, h9, h10, h11, h12⟩

/-- An address change with error pattern `e` drives the intended address exclusive-or `e`. -/
theorem addr_after {a l : Word} {p e : Line} (h : p = wired l ^^^ e) :
    p ^^^ wired (a ^^^ l) = wired a ^^^ e := by
  rw [h, wired_xor, BitVec.xor_comm (wired a), BitVec.xor_assoc (wired l), BitVec.xor_comm e,
    BitVec.xor_assoc (wired l), ← BitVec.xor_assoc (wired l) (wired l), BitVec.xor_self,
    BitVec.zero_xor]

/-- `AddrSet` in a phase: the address is remembered and the phase kept. -/
theorem addrSet_ends {P : State → Prop} {w : Word}
    (hw : ∀ s l, P s → P (s.withIoFails l))
    (hq : ∀ s, P s → P (((s.toggled (w ^^^ s.x.lda)).emit (.addrToggle (w ^^^ s.x.lda))).withLda
      w |>.waited.emit (.wait (cAs K)))) (hf : ∀ s, P s → c.Down s.toggleFailed) :
    Ends P (addrSet K w) (fun _ s => P s ∧ s.x.lda = w) c.Down := by
  intro s hs
  simp only [addrSet, micro_bind, micro_get, addrToggle, ioPoint]
  cases s.ioFails with
  | nil => exact ⟨hq s hs, rfl⟩
  | cons n later =>
    cases n with
    | zero => exact hf _ (hw s _ hs)
    | succ n => exact ⟨hq _ (hw s (n :: later) hs), rfl⟩

theorem idle_addrSet {w q} (a : Word) :
    Ends (c.Idle w q) (addrSet K a) (fun _ s => c.Idle w q s ∧ s.x.lda = a) c.Down := by
  refine addrSet_ends (fun s l h => h.withIoFails l) ?_ (fun s h => h.down.toggleFailed)
  rintro s ⟨⟨⟨h1, h2, h3, h4, h5⟩, h6, h7⟩, h8, h9, h10, h11, h12, h13⟩
  exact ⟨⟨⟨h1, rfl, h3, h4, h5⟩, addr_after h6, h7⟩, h8, h9, h10, h11, h12, h13⟩

theorem open_addrSet {r w q} (hr : c.Row r) (a : Word) :
    Ends (c.Open r w q) (addrSet K a) (fun _ s => c.Open r w q s ∧ s.x.lda = a) c.Down := by
  refine addrSet_ends (fun s l h => h.withIoFails l) ?_ (fun s h => (h.down hr).toggleFailed)
  rintro s ⟨⟨⟨h1, h2, h3, h4, h5⟩, h6, h7⟩, h8, h9, h10, h11, h12, h13⟩
  exact ⟨⟨⟨h1, rfl, h3, h4, h5⟩, addr_after h6, h7⟩, h8, h9, h10, h11, h12, h13⟩

/-! ### The write enable and data in -/

theorem down_pinFailed_weN {s : State} (h : c.Down s) : c.Down (s.pinFailed .weN) :=
  h.pinFailed _ (by simp)

theorem down_pinFailed_din {s : State} (h : c.Down s) : c.Down (s.pinFailed .din) :=
  h.pinFailed _ (by simp)

theorem down_pinFailed_rasN {s : State} (h : c.Down s) : c.Down (s.pinFailed .rasN) :=
  h.pinFailed _ (by simp)

theorem react_weN (d : Device) (p : Pins) (f v : Bit) : d.react p f .weN v = d := by
  simp [Device.react]

theorem react_din (d : Device) (p : Pins) (f v : Bit) : d.react p f .din v = d := by
  simp [Device.react]

theorem idle_weN {w q} (v : Bit) :
    Ends (c.Idle w q) (pin .weN v) (fun _ => c.Idle v q) c.Down := by
  refine pin_ends _ _ (fun s l h => h.withIoFails l) ?_ ?_ (fun s h => down_pinFailed_weN h.down)
  · intro s h
    cases v
    · exact stray_weFall _ _ h.casN
    · simp
  · rintro s ⟨⟨⟨h1, h2, h3, h4, h5⟩, h6, h7⟩, h8, h9, h10, h11, h12, h13⟩
    refine ⟨⟨⟨h1, h2, ?_, ?_, ?_⟩, h6, ?_⟩, h8, h9, rfl, ?_, ?_, h13⟩ <;> simpa [react_weN]

theorem open_weN {r w q} (hr : c.Row r) (v : Bit) :
    Ends (c.Open r w q) (pin .weN v) (fun _ => c.Open r v q) c.Down := by
  refine pin_ends _ _ (fun s l h => h.withIoFails l) ?_ ?_ (fun s h => down_pinFailed_weN (h.down hr))
  · intro s h
    cases v
    · exact stray_weFall _ _ h.casN
    · simp
  · rintro s ⟨⟨⟨h1, h2, h3, h4, h5⟩, h6, h7⟩, h8, h9, h10, h11, h12, h13⟩
    refine ⟨⟨⟨h1, h2, ?_, ?_, ?_⟩, h6, ?_⟩, h8, h9, rfl, ?_, ?_, h13⟩ <;> simpa [react_weN]

theorem idle_din {w q} (v : Bit) :
    Ends (c.Idle w q) (pin .din v) (fun _ => c.Idle w q) c.Down := by
  refine pin_ends _ _ (fun s l h => h.withIoFails l) (by simp) ?_ (fun s h => down_pinFailed_din h.down)
  rintro s ⟨⟨⟨h1, h2, h3, h4, h5⟩, h6, h7⟩, h8, h9, h10, h11, h12, h13⟩
  refine ⟨⟨⟨h1, h2, ?_, ?_, ?_⟩, h6, ?_⟩, h8, h9, h10, ?_, ?_, h13⟩ <;> simpa [react_din]

theorem open_din {r w q} (hr : c.Row r) (v : Bit) :
    Ends (c.Open r w q) (pin .din v) (fun _ => c.Open r w q) c.Down := by
  refine pin_ends _ _ (fun s l h => h.withIoFails l) (by simp) ?_
    (fun s h => down_pinFailed_din (h.down hr))
  rintro s ⟨⟨⟨h1, h2, h3, h4, h5⟩, h6, h7⟩, h8, h9, h10, h11, h12, h13⟩
  refine ⟨⟨⟨h1, h2, ?_, ?_, ?_⟩, h6, ?_⟩, h8, h9, h10, ?_, ?_, h13⟩ <;> simpa [react_din]

/-! ### The strobes -/

/-- The row strobe falls: the row on the lines is latched. -/
theorem idle_rasFall {w q} (row : Line) :
    Ends (fun s => c.Idle w q s ∧ s.x.lda = lineAddress row) (pin .rasN false)
      (fun _ => c.Open (seenLines c.lines (row ^^^ c.e)) w q) c.Down := by
  refine pin_ends _ _ (fun s l h => ⟨h.1.withIoFails l, h.2⟩)
    (fun s h => stray_rasFall _ _ h.1.casN) ?_ (fun s h => down_pinFailed_rasN h.1.down)
  rintro s ⟨⟨⟨⟨h1, h2, h3, h4, h5⟩, h6, h7⟩, h8, h9, h10, h11, h12, h13⟩, h14⟩
  have ha : s.pin.a = row ^^^ c.e := by rw [h6, h14, wired_lineAddress]
  have hd : s.dev.react s.pin s.freeBit .rasN false =
      { s.dev with
        rowLatch := if c.present then some (seenLines c.lines (row ^^^ c.e)) else none } := by
    rw [← h4, ← h5, ← ha, Device.react]
    cases hp : s.dev.present
    · rw [if_neg (by simp), if_neg (by simp), ← h11]
    · simp [h8, Device.rasFall]
  exact ⟨⟨⟨h1, h2, by simpa [hd] using h3, by simpa [hd] using h4, by simpa [hd] using h5⟩, h6,
    by simpa [hd] using h7⟩, rfl, h9, h10, by simp [hd], by simpa [hd] using h12, h13⟩

/-- The row strobe rises: the row and the output are released. -/
theorem open_rasRise {r w q} (hr : c.Row r) :
    Ends (c.Open r w q) (pin .rasN true) (fun _ => c.Idle w q) c.Down := by
  refine pin_ends _ _ (fun s l h => h.withIoFails l) (by simp) ?_
    (fun s h => down_pinFailed_rasN (h.down hr))
  rintro s ⟨⟨⟨h1, h2, h3, h4, h5⟩, h6, h7⟩, h8, h9, h10, h11, h12, h13⟩
  have hd : s.dev.react s.pin s.freeBit .rasN true = { s.dev with rowLatch := none, drive := none } := by
    rw [Device.react]
    cases hp : s.dev.present
    · rw [← h4, hp, if_neg (by simp)] at h11
      rw [if_neg (by simp)]
      exact congrArg₂ (fun a b => { s.dev with rowLatch := a, drive := b }) h11 h12
    · rfl
  exact ⟨⟨⟨h1, h2, by simpa [hd] using h3, by simpa [hd] using h4, by simpa [hd] using h5⟩, h6,
    by simpa [hd] using h7⟩, rfl, h9, h10, by simp [hd], by simp [hd], h13⟩

/-- The column strobe falls: a read cycle, or a write where the write enable is low. -/
theorem open_casFall {r w q} (hr : c.Row r) (col : Line) (hw : w = false → c.MayWrite r col) :
    Ends (fun s => c.Open r w q s ∧ s.x.lda = lineAddress col) (pin .casN false)
      (fun _ => c.Strobed r w) c.Down := by
  refine pin_ends _ _ (fun s l h => ⟨h.1.withIoFails l, h.2⟩) ?_ ?_ ?_
  · rintro s ⟨h, -⟩
    refine stray_casFall _ _ ?_
    rw [h.rowLatch, h.present]
    cases c.present <;> rfl
  · rintro s ⟨⟨⟨⟨h1, h2, h3, h4, h5⟩, h6, h7⟩, h8, h9, h10, h11, h12, h13⟩, h14⟩
    have ha : s.pin.a = col ^^^ c.e := by rw [h6, h14, wired_lineAddress]
    cases hp : s.dev.present
    · have hd : s.dev.react s.pin s.freeBit .casN false = s.dev := react_absent _ _ _ _ _ hp
      exact ⟨⟨⟨h1, h2, by simpa [hd] using h3, by simpa [hd] using h4, by simpa [hd] using h5⟩, h6,
        by simpa [hd] using h7⟩, h8, rfl, h10, by simpa [hd] using h11, fun _ => by simpa [hd] using h12⟩
    · have hl : s.dev.rowLatch = some r := by simpa [← h4, hp] using h11
      have hd : s.dev.react s.pin s.freeBit .casN false =
          s.dev.access s.pin s.freeBit r (seenLines s.dev.lines s.pin.a) := by
        simp [Device.react, hp, h9, Device.casFall, hl]
      have hacc : c.cells (s.dev.access s.pin s.freeBit r (seenLines s.dev.lines s.pin.a)).cells := by
        unfold Device.access
        split
        · exact h3
        · have hw' : w = false := by rw [← h10]; simpa using ‹¬ s.pin.weN = true›
          have := hw hw' s.dev.cells (s.dev.memWriteBit s.freeBit s.pin.din) h3
          simpa [h5, ha] using this
      have hrest : ∀ p f rr cc, (s.dev.access p f rr cc).present = s.dev.present ∧
          (s.dev.access p f rr cc).lines = s.dev.lines ∧
          (s.dev.access p f rr cc).upset = s.dev.upset ∧
          (s.dev.access p f rr cc).rowLatch = s.dev.rowLatch := by
        intro p f rr cc
        unfold Device.access
        split <;> exact ⟨rfl, rfl, rfl, rfl⟩
      refine ⟨⟨⟨h1, h2, ?_, ?_, ?_⟩, h6, ?_⟩, h8, rfl, h10, ?_, ?_⟩
      · simpa [hd] using hacc
      · simpa [hd, (hrest _ _ _ _).1] using h4
      · simpa [hd, (hrest _ _ _ _).2.1] using h5
      · simpa [hd, (hrest _ _ _ _).2.2.1] using h7
      · simpa [hd, (hrest _ _ _ _).2.2.2] using h11
      · intro hc; simp [← h4, hp] at hc
  · rintro s ⟨h, hl⟩
    refine (h.down hr).pinFailed _ ?_
    intro r' _ _ hwe hr' cs b hcs
    have hw' : w = false := by rw [← h.weN, hwe]
    have ha : s.pin.a = col ^^^ c.e := by rw [h.addr, hl, wired_lineAddress]
    have hrr : r' = r := by
      have := h.rowLatch
      rw [hr'] at this
      split at this <;> simp_all
    rw [ha, hrr]
    exact hw hw' cs b hcs

/-- The column strobe rises: the output is released. -/
theorem strobed_casRise {r w} (hr : c.Row r) :
    Ends (c.Strobed r w) (pin .casN true) (fun _ s => c.Open r w s.seq s) c.Down := by
  refine pin_ends _ _ (fun s l h => h.withIoFails l) (by simp) ?_
    (fun s h => (h.down hr).pinFailed _ (by simp [h.casN]))
  rintro s ⟨⟨⟨h1, h2, h3, h4, h5⟩, h6, h7⟩, h8, h9, h10, h11, h12⟩
  have hd : s.dev.react s.pin s.freeBit .casN true = { s.dev with drive := none } := by
    rw [Device.react]
    cases hp : s.dev.present
    · rw [if_neg (by simp), ← h12 (by rw [← h4, hp])]
    · rfl
  exact ⟨⟨⟨h1, h2, by simpa [hd] using h3, by simpa [hd] using h4, by simpa [hd] using h5⟩, h6,
    by simpa [hd] using h7⟩, h8, rfl, h10, by simpa [hd] using h11, by simp [hd], rfl⟩

theorem open_setSeqAny {r w} (q : SeqState) :
    Ends (fun s => c.Open r w s.seq s) (setSeq q) (fun _ => c.Open r w q) c.Down :=
  fun s hs => open_setSeq q s hs

/-! ### Micro-operations -/

theorem openRow_ends {w q} (row : Line) :
    Ends (c.Idle w q) (openRow K row)
      (fun _ => c.Open (seenLines c.lines (row ^^^ c.e)) w .rowOpen) c.Down :=
  (idle_addrSet _).bind fun _ => (idle_rasFall row).bind fun _ => (open_setSeq _).bind fun _ =>
    open_wait _

theorem closeRow_ends {r w q} (hr : c.Row r) :
    Ends (c.Open r w q) (closeRow K) (fun _ => c.Idle w .idle) c.Down :=
  (open_rasRise hr).bind fun _ => (idle_setSeq _).bind fun _ => (idle_wait _).bind fun _ =>
    idle_setSeq _

theorem strobeColumn_ends {r w q} (hr : c.Row r) (col : Line) (hw : w = false → c.MayWrite r col) :
    Ends (c.Open r w q) (strobeColumn K col) (fun _ => c.Open r w .rowOpen) c.Down :=
  (open_addrSet hr _).bind fun _ => (open_casFall hr col hw).bind fun _ =>
    (strobed_setSeq _).bind fun _ => (strobed_wait _).bind fun _ => (strobed_casRise hr).bind fun _ =>
      open_setSeqAny _

theorem strobed_sample {r w} (hr : c.Row r) :
    Ends (c.Strobed r w) sample (fun _ => c.Strobed r w) c.Down := by
  refine Ends.ioPoint (fun s l h => h.withIoFails l) ?_ (fun s h => h.down hr)
  rintro s ⟨⟨⟨h1, h2, h3, h4, h5⟩, h6, h7⟩, h8, h9, h10, h11, h12⟩
  exact ⟨⟨⟨h1, h2, h3, h4, h5⟩, h6, h7⟩, h8, h9, h10, h11, h12⟩

theorem strobeColumnRead_ends {r q} (hr : c.Row r) (col : Line) :
    Ends (c.Open r true q) (strobeColumnRead K col) (fun _ => c.Open r true .rowOpen) c.Down :=
  (open_addrSet hr _).bind fun _ => (open_casFall hr col (by simp)).bind fun _ =>
    (strobed_setSeq _).bind fun _ => (strobed_wait _).bind fun _ => (strobed_wait _).bind fun _ =>
      (strobed_sample hr).bind fun _ => (strobed_casRise hr).bind fun _ =>
        (open_setSeqAny _).bind fun _ => Ends.pure fun _ h => h

theorem pageWrite_ends {r q} (hr : c.Row r) (col : Line) (b : Bit) (hw : c.MayWrite r col) :
    Ends (c.Open r true q) (pageWrite K col b) (fun _ => c.Open r true .rowOpen) c.Down :=
  (open_weN hr _).bind fun _ => (open_din hr _).bind fun _ =>
    (strobeColumn_ends hr col fun _ => hw).bind fun _ => (open_weN hr _).bind fun _ => open_wait _

theorem pageRead_ends {r q} (hr : c.Row r) (col : Line) :
    Ends (c.Open r true q) (pageRead K col) (fun _ => c.Open r true .rowOpen) c.Down :=
  (strobeColumnRead_ends hr col).bind fun _ => (open_wait _).bind fun _ => Ends.pure fun _ h => h

/-- A row of the chip is what a chip sees of any address. -/
theorem row_seen (c : Scene) (v : Line) : c.Row (seenLines c.lines v) := seenLines_lt _ _

/-- A write at the cell an address reaches keeps the property of the cells. -/
abbrev Scene.MayWriteAt (c : Scene) (row col : Line) : Prop :=
  c.MayWrite (seenLines c.lines (row ^^^ c.e)) col

theorem writeBitEarly_ends {q} (row col : Line) (b : Bit) (hw : c.MayWriteAt row col) :
    Ends (c.Idle true q) (writeBitEarly K row col b) (fun _ => c.Idle true .idle) c.Down :=
  (idle_weN _).bind fun _ => (idle_din _).bind fun _ => (openRow_ends row).bind fun _ =>
    (strobeColumn_ends (row_seen _ _) col fun _ => hw).bind fun _ => (open_wait _).bind fun _ =>
      (closeRow_ends (row_seen _ _)).bind fun _ => idle_weN _

theorem readBit_ends {q} (row col : Line) :
    Ends (c.Idle true q) (readBit K row col) (fun _ => c.Idle true .idle) c.Down :=
  (openRow_ends row).bind fun _ => (strobeColumnRead_ends (row_seen _ _) col).bind fun _ =>
    (open_wait _).bind fun _ => (closeRow_ends (row_seen _ _)).bind fun _ => Ends.pure fun _ h => h

theorem isWorking_ends {q} (hw : c.MayWriteAt 0#9 0#9) :
    Ends (c.Idle true q) (isWorking K) (fun _ => c.Idle true .idle) c.Down := by
  unfold isWorking
  refine (writeBitEarly_ends _ _ _ hw).bind fun _ => (readBit_ends _ _).bind fun s1 => ?_
  cases s1
  · exact (writeBitEarly_ends _ _ _ hw).bind fun _ => readBit_ends _ _
  · exact Ends.pure fun _ h => h

theorem isChip41256_ends {q} (h1 : c.MayWriteAt 8#9 8#9) (h2 : c.MayWriteAt 264#9 264#9) :
    Ends (c.Idle true q) (isChip41256 K) (fun _ => c.Idle true .idle) c.Down :=
  (writeBitEarly_ends _ _ _ h1).bind fun _ => (writeBitEarly_ends _ _ _ h2).bind fun _ =>
    (readBit_ends _ _).bind fun _ => Ends.pure fun _ h => h

/-! ### `INIT` -/

/-- One precharge pulse: a row is latched and released, no cell changes
(`43_init_and_detection.md` R200). -/
theorem prechargePulse_ends {q} :
    Ends (c.Idle true q) (prechargePulse K) (fun _ => c.Idle true q) c.Down := by
  have fall : Ends (c.Idle true q) (pin .rasN false)
      (fun _ s => ∃ r, c.Row r ∧ c.Open r true q s) c.Down := by
    refine pin_ends _ _ (fun s l h => h.withIoFails l) (fun s h => stray_rasFall _ _ h.casN) ?_
      (fun s h => down_pinFailed_rasN h.down)
    rintro s ⟨⟨⟨h1, h2, h3, h4, h5⟩, h6, h7⟩, h8, h9, h10, h11, h12, h13⟩
    have hd : s.dev.react s.pin s.freeBit .rasN false =
        { s.dev with
          rowLatch := if c.present then some (seenLines c.lines s.pin.a) else none } := by
      rw [← h4, ← h5, Device.react]
      cases hp : s.dev.present
      · rw [if_neg (by simp), if_neg (by simp), ← h11]
      · simp [h8, Device.rasFall]
    exact ⟨_, row_seen c s.pin.a,
      ⟨⟨h1, h2, by simpa [hd] using h3, by simpa [hd] using h4, by simpa [hd] using h5⟩, h6,
        by simpa [hd] using h7⟩, rfl, h9, h10, by simp [hd], by simpa [hd] using h12, h13⟩
  have lift : ∀ {α : Type} {m : Micro α} {Q : α → State → Prop},
      (∀ r, c.Row r → Ends (c.Open r true q) m Q c.Down) →
      Ends (fun s => ∃ r, c.Row r ∧ c.Open r true q s) m Q c.Down :=
    fun h s ⟨r, hr, hs⟩ => h r hr s hs
  exact fall.bind fun _ => lift fun r hr => (open_wait _).bind fun _ =>
    (open_rasRise hr).bind fun _ => idle_wait _

/-- Before `INIT` has raised the strobes: the device is sound, the pins at any level. -/
structure Scene.Any (c : Scene) (s : State) : Prop extends Scene.Live c s where
  row : ∀ r, s.dev.rowLatch = some r → r.toNat < 2 ^ lineCount c.lines
  absent : c.present = false → s.dev.rowLatch = none ∧ s.dev.drive = none

theorem Scene.Any.down {s} (h : c.Any s) : c.Down s := { h.toBase, h with }

theorem Scene.Any.withIoFails {s} (l : List Nat) (h : c.Any s) : c.Any (s.withIoFails l) := by
  obtain ⟨⟨⟨h1, h2, h3, h4, h5⟩, h6, h7⟩, h8, h9⟩ := h
  exact ⟨⟨⟨h1, h2, h3, h4, h5⟩, h6, h7⟩, h8, h9⟩

/-- The first event of `INIT`: the write enable is raised. -/
theorem init_weN : Ends c.Any (pin .weN true) (fun _ s => c.Any s ∧ s.pin.weN = true) c.Down := by
  refine pin_ends _ _ (fun s l h => h.withIoFails l) (by simp) ?_
    (fun s h => down_pinFailed_weN h.down)
  rintro s ⟨⟨⟨h1, h2, h3, h4, h5⟩, h6, h7⟩, h8, h9⟩
  exact ⟨⟨⟨⟨h1, h2, by simpa [react_weN] using h3, by simpa [react_weN] using h4,
    by simpa [react_weN] using h5⟩, h6, by simpa [react_weN] using h7⟩,
    by simpa [react_weN] using h8, by simpa [react_weN] using h9⟩, rfl⟩

/-- The second event of `INIT`: the column strobe is raised. -/
theorem init_casN : Ends (fun s => c.Any s ∧ s.pin.weN = true) (pin .casN true)
    (fun _ s => c.Any s ∧ s.pin.weN = true ∧ s.pin.casN = true ∧ s.dev.drive = none) c.Down := by
  refine pin_ends _ _ (fun s l h => ⟨h.1.withIoFails l, h.2⟩) (by simp) ?_
    (fun s h => h.1.down.pinFailed _ (by simp [h.2]))
  rintro s ⟨⟨⟨⟨h1, h2, h3, h4, h5⟩, h6, h7⟩, h8, h9⟩, h10⟩
  have hd : s.dev.react s.pin s.freeBit .casN true = { s.dev with drive := none } := by
    rw [Device.react]
    cases hp : s.dev.present
    · rw [if_neg (by simp), ← (h9 (by rw [← h4, hp])).2]
    · rfl
  exact ⟨⟨⟨⟨h1, h2, by simpa [hd] using h3, by simpa [hd] using h4, by simpa [hd] using h5⟩, h6,
    by simpa [hd] using h7⟩, by simpa [hd] using h8, by simpa [hd] using fun hc => (h9 hc).1⟩, h10,
    rfl, by simp [hd]⟩

/-- The third event of `INIT`: the row strobe is raised, and the phase is idle. -/
theorem init_rasN : Ends (fun s => c.Any s ∧ s.pin.weN = true ∧ s.pin.casN = true ∧ s.dev.drive = none)
    (pin .rasN true) (fun _ s => c.Idle true s.seq s) c.Down := by
  refine pin_ends _ _ (fun s l h => ⟨h.1.withIoFails l, h.2⟩) (by simp) ?_
    (fun s h => down_pinFailed_rasN h.1.down)
  rintro s ⟨⟨⟨⟨h1, h2, h3, h4, h5⟩, h6, h7⟩, h8, h9⟩, h10, h11, h12⟩
  have hd : s.dev.react s.pin s.freeBit .rasN true =
      { s.dev with rowLatch := none, drive := none } := by
    rw [Device.react]
    cases hp : s.dev.present
    · rw [if_neg (by simp)]
      exact congrArg₂ (fun a b => { s.dev with rowLatch := a, drive := b })
        (h9 (by rw [← h4, hp])).1 h12
    · rfl
  exact ⟨⟨⟨h1, h2, by simpa [hd] using h3, by simpa [hd] using h4, by simpa [hd] using h5⟩, h6,
    by simpa [hd] using h7⟩, rfl, h11, h10, by simp [hd], by simp [hd], rfl⟩

end Sys2Proof.Machine
end

