-- ==== Sys2Proof/Laws/Invariant.lean ====
section
/-!
SUPPORT. What an operation that starts in a state of the machine's invariant can come to, whatever
the environment answers: an idle or an open phase, or a failed one; never a refusal.
-/

namespace Sys2Proof.Machine

open Sys2Proof.Safety
open Sys2Proof.Config (Params DevLines)

variable {c : Scene} {K : Params}

theorem Ends.forEach_mem {f : Line → Micro Unit} {P F : State → Prop} {vs : List Line}
    (h : ∀ v ∈ vs, Ends P (f v) (fun _ => P) F) : Ends P (Machine.forEach f vs) (fun _ => P) F := by
  induction vs with
  | nil => exact fun s hs => hs
  | cons v rest ih =>
    exact (h v (by simp)).bind fun _ => ih fun w hw => h w (List.mem_cons_of_mem _ hw)

/-! ### The test registers are no part of a phase -/

/-- An update of the test registers only. -/
def TestUpdate (f : State → State) : Prop :=
  ∀ s, ∃ nl sw ro co pa fc lr lc, f s = { s with
    x.nlines := nl, x.sweep := sw, x.row := ro, x.col := co, x.pat := pa, x.failCnt := fc,
    x.lfRow := lr, x.lfCol := lc }

theorem idle_modify {w q f} (h : TestUpdate f) :
    Ends (c.Idle w q) (modify f : Micro Unit) (fun _ => c.Idle w q) c.Down := by
  refine Ends.modify (f := f) (Q := fun _ => c.Idle w q) ?_
  rintro s ⟨⟨⟨h1, h2, h3, h4, h5⟩, h6, h7⟩, h8, h9, h10, h11, h12, h13⟩
  obtain ⟨_, _, _, _, _, _, _, _, he⟩ := h s
  rw [he]
  exact ⟨⟨⟨h1, h2, h3, h4, h5⟩, h6, h7⟩, h8, h9, h10, h11, h12, h13⟩

theorem open_modify {r w q f} (h : TestUpdate f) :
    Ends (c.Open r w q) (modify f : Micro Unit) (fun _ => c.Open r w q) c.Down := by
  refine Ends.modify (f := f) (Q := fun _ => c.Open r w q) ?_
  rintro s ⟨⟨⟨h1, h2, h3, h4, h5⟩, h6, h7⟩, h8, h9, h10, h11, h12, h13⟩
  obtain ⟨_, _, _, _, _, _, _, _, he⟩ := h s
  rw [he]
  exact ⟨⟨⟨h1, h2, h3, h4, h5⟩, h6, h7⟩, h8, h9, h10, h11, h12, h13⟩

theorem testUpdate_withNlines (v) : TestUpdate (·.withNlines v) :=
  fun _ => ⟨_, _, _, _, _, _, _, _, rfl⟩

theorem testUpdate_withSweep (v) : TestUpdate (·.withSweep v) :=
  fun _ => ⟨_, _, _, _, _, _, _, _, rfl⟩

theorem testUpdate_withRow (v) : TestUpdate (·.withRow v) := fun _ => ⟨_, _, _, _, _, _, _, _, rfl⟩

theorem testUpdate_withCol (v) : TestUpdate (·.withCol v) := fun _ => ⟨_, _, _, _, _, _, _, _, rfl⟩

theorem testUpdate_withPat (v) : TestUpdate (·.withPat v) := fun _ => ⟨_, _, _, _, _, _, _, _, rfl⟩

theorem testUpdate_failuresCleared : TestUpdate State.failuresCleared :=
  fun _ => ⟨_, _, _, _, _, _, _, _, rfl⟩

theorem testUpdate_failureRecorded : TestUpdate State.failureRecorded :=
  fun _ => ⟨_, _, _, _, _, _, _, _, rfl⟩

/-! ### The test -/

theorem fillVisit_ends {r} (hr : c.Row r) (col : Line) (hw : c.MayWrite r col) :
    Ends (c.Open r true .rowOpen) (fillVisit K col) (fun _ => c.Open r true .rowOpen) c.Down :=
  (Ends.get (Q := fun _ => c.Open r true .rowOpen) fun _ h => h).bind fun _ =>
    pageWrite_ends hr col _ hw

theorem checkComplementVisit_ends {r} (hr : c.Row r) (col : Line) (hw : c.MayWrite r col) :
    Ends (c.Open r true .rowOpen) (checkComplementVisit K col) (fun _ => c.Open r true .rowOpen)
      c.Down :=
  (Ends.get (Q := fun _ => c.Open r true .rowOpen) fun _ h => h).bind fun s =>
    (pageRead_ends hr col).bind fun g => by
      cases h : g != s.patternBit
      · simpa [h] using pageWrite_ends hr col (!s.patternBit) hw
      · simp only [if_true]
        exact open_modify testUpdate_failureRecorded

theorem checkVisit_ends {r} (hr : c.Row r) (col : Line) :
    Ends (c.Open r true .rowOpen) (checkVisit K col) (fun _ => c.Open r true .rowOpen) c.Down :=
  (Ends.get (Q := fun _ => c.Open r true .rowOpen) fun _ h => h).bind fun s =>
    (pageRead_ends hr col).bind fun g => by
      cases h : g != !s.patternBit
      · simpa [h] using (Ends.pure fun _ h => h : Ends (c.Open r true .rowOpen) (pure ()) _ c.Down)
      · simp only [if_true]
        exact open_modify testUpdate_failureRecorded

/-- A sweep opens and closes every row, whatever its visits do in an open row. -/
theorem sweep_ends {visit : Line → Micro Unit} {dir : Direction} {n : Nat}
    (h : ∀ row ∈ indices dir n, ∀ col ∈ indices dir n,
      Ends (c.Open (seenLines c.lines (row ^^^ c.e)) true .rowOpen) (visit col)
        (fun _ => c.Open (seenLines c.lines (row ^^^ c.e)) true .rowOpen) c.Down) :
    Ends (c.Idle true .idle) (sweep K visit dir n) (fun _ => c.Idle true .idle) c.Down := by
  refine (idle_modify (testUpdate_withPat _)).bind fun _ => Ends.forEach_mem fun row hrow => ?_
  refine (idle_modify (testUpdate_withRow row)).bind fun _ => (openRow_ends row).bind fun _ =>
    (Ends.forEach_mem fun col hcol => ?_).bind fun _ => closeRow_ends (row_seen _ _)
  exact (open_modify (testUpdate_withCol col)).bind fun _ => (h row hrow col hcol).bind fun _ =>
    (Ends.get (Q := fun _ => c.Open _ true .rowOpen) fun _ h => h).bind fun s =>
      open_modify (testUpdate_withPat (rotl32 s.x.pat))

/-- The rows, or the columns, of an `n` by `n` array. -/
abbrev Covered (n : Nat) (v : Line) : Prop := ∃ k < n, v = BitVec.ofNat 9 k

theorem mem_indices {dir : Direction} {n : Nat} {v : Line} : v ∈ indices dir n ↔ Covered n v := by
  cases dir <;> simp [indices, Covered, eq_comm]

/-- The value a sweep visits at place `k` of its order (`44_moving_inversions.md` R231). -/
theorem indices_getElem? (dir : Direction) (n k : Nat) (h : k < n) : (indices dir n)[k]? =
    some (BitVec.ofNat 9 (match dir with | .ascending => k | .descending => n - 1 - k)) := by
  cases dir
  · simp [indices, h]
  · simp only [indices]
    rw [List.getElem?_reverse (by simpa using h), List.getElem?_map, List.length_map,
      List.length_range, List.getElem?_range (by omega)]
    rfl

theorem indices_length (dir : Direction) (n : Nat) : (indices dir n).length = n := by
  cases dir <;> simp [indices]

/-- A loop that goes well at every place, with what holds before place `k`. -/
theorem forEach_ok {f : Line → Micro Unit} {I : Nat → State → Prop} (vs : List Line)
    (h : ∀ k v s, vs[k]? = some v → I k s → ∃ t, f v s = .ok () t ∧ I (k + 1) t) {s : State}
    (hs : I 0 s) : ∃ t, Machine.forEach f vs s = .ok () t ∧ I vs.length t := by
  induction vs generalizing I s with
  | nil => exact ⟨s, rfl, hs⟩
  | cons v rest ih =>
    obtain ⟨u, hu, hI⟩ := h 0 v s rfl hs
    obtain ⟨t, ht, hJ⟩ := ih (I := fun k => I (k + 1)) (fun k w r hk => h (k + 1) w r hk) hI
    exact ⟨t, (micro_bind_ok hu _).trans ht, hJ⟩

/-- The whole test, for cells that may be written where it writes. -/
theorem runTestOn_ends (lines : BitVec 4) (n : Nat)
    (hw : ∀ row col, Covered n row → Covered n col → c.MayWriteAt row col) :
    Ends (c.Idle true .idle) (runTestOn K lines n) (fun _ => c.Idle true .idle) c.Down := by
  have swp : ∀ v, Ends (c.Idle true .idle) (setSweep v) (fun _ => c.Idle true .idle) c.Down :=
    fun v => idle_modify (testUpdate_withSweep v)
  have fill : ∀ dir, Ends (c.Idle true .idle) (fillSweep K dir n) (fun _ => c.Idle true .idle)
      c.Down := fun dir =>
    sweep_ends fun row hrow col hcol => fillVisit_ends (row_seen _ _) col
      (hw row col (mem_indices.mp hrow) (mem_indices.mp hcol))
  have cc : ∀ dir, Ends (c.Idle true .idle) (checkComplementSweep K dir n)
      (fun _ => c.Idle true .idle) c.Down := fun dir =>
    sweep_ends fun row hrow col hcol => checkComplementVisit_ends (row_seen _ _) col
      (hw row col (mem_indices.mp hrow) (mem_indices.mp hcol))
  have chk : ∀ dir, Ends (c.Idle true .idle) (checkSweep K dir n) (fun _ => c.Idle true .idle)
      c.Down := fun dir =>
    sweep_ends fun row _ col _ => checkVisit_ends (row_seen _ _) col
  have nof : ∀ {m : Micro Unit}, Ends (c.Idle true .idle) m (fun _ => c.Idle true .idle) c.Down →
      Ends (c.Idle true .idle) (ifNoFailure m) (fun _ => c.Idle true .idle) c.Down := by
    intro m hm
    refine (Ends.get (Q := fun _ => c.Idle true .idle) fun _ h => h).bind fun s => ?_
    by_cases hs : s.x.failCnt = 0#32
    · simpa [hs] using hm
    · simpa [hs] using (Ends.pure fun _ h => h : Ends (c.Idle true .idle) (pure ()) _ c.Down)
  exact (idle_modify (testUpdate_withNlines _)).bind fun _ =>
    (idle_modify testUpdate_failuresCleared).bind fun _ => (swp _).bind fun _ =>
      (fill _).bind fun _ => (swp _).bind fun _ => (cc _).bind fun _ =>
      (nof ((swp _).bind fun _ => chk _)).bind fun _ =>
      (nof ((swp _).bind fun _ => (fill _).bind fun _ => (swp _).bind fun _ => cc _)).bind fun _ =>
      (nof ((swp _).bind fun _ => chk _)).bind fun _ =>
      (Ends.get (Q := fun _ => c.Idle true .idle) fun _ h => h).bind fun _ =>
      Ends.pure fun _ h => h

end Sys2Proof.Machine
end

