-- ==== Sys2Proof/Laws/PerInstr.lean ====
section
/-!
SUPPORT. Statements about every operation as syntax, one lemma per constructor: the word of a
well-formed operation lies in its row of the opcode table (`30_encoding.md` R108).
-/

namespace Sys2Proof.Laws.TableRow

/-- The word of a well-formed operation has the row's opcode, and matches the row's mask. -/
def Statement (i : Instr) : Prop :=
  i.wellFormed = true →
    fieldOpc (encode i) = i.opcode.code ∧ encode i &&& i.opcode.mask = i.opcode.pattern

theorem fieldOpc_append (c : BitVec 8) (arg : BitVec 24) : fieldOpc (c ++ arg) = c := by
  apply BitVec.eq_of_getLsbD_eq
  intro i hi
  simp only [fieldOpc, BitVec.getLsbD_extractLsb', BitVec.getLsbD_append]
  simp [hi]

/-- A word of format `C` by its opcode and its argument (`30_encoding.md` R105). -/
theorem formatC_eq (o : Opcode) (b : Bit) (row col : Line) :
    formatC o b row col = o.code ++ (0#5 ++ BitVec.ofBool b ++ row ++ col : BitVec 24) := by
  apply BitVec.eq_of_getLsbD_eq
  intro i hi
  simp only [formatC, BitVec.getLsbD_append]
  split_ifs <;> first | rfl | (exfalso; omega)

theorem fieldOpc_formatC (o : Opcode) (b : Bit) (row col : Line) :
    fieldOpc (formatC o b row col) = o.code := by
  rw [formatC_eq, fieldOpc_append]

/-- A mask is applied to the opcode and to the argument apart. -/
theorem append_and (c d : BitVec 8) (x y : BitVec 24) :
    (c ++ x) &&& (d ++ y) = (c &&& d) ++ (x &&& y) := BitVec.and_append

theorem delay (sel : Selector) : Statement (.delay sel) := by
  unfold Statement
  cases sel <;> decide

theorem addrSet (addr24 : BitVec 24) : Statement (.addrSet addr24) := by
  refine fun _ => ⟨fieldOpc_append _ _, (append_and _ 0xFF#8 addr24 0#24).trans ?_⟩
  simp [Instr.opcode, Opcode.code, Opcode.pattern]

/-- The reserved bits of a format `C` word, where the fields under the mask are zero. -/
theorem formatC_and (o : Opcode) (b : Bit) (row col : Line) (m : BitVec 24)
    (h : (0#5 ++ BitVec.ofBool b ++ row ++ col : BitVec 24) &&& m = 0#24)
    (hm : o.mask = 0xFF#8 ++ m) (hp : o.pattern = o.code ++ 0#24) :
    formatC o b row col &&& o.mask = o.pattern := by
  rw [formatC_eq, hm, append_and, h, hp]
  cases o <;> rfl

theorem argument_and (b : Bit) (row col : Line) (mb : Bit) (mr mc : Line)
    (hb : (b && mb) = false) (hr : row &&& mr = 0#9) (hc : col &&& mc = 0#9) :
    (0#5 ++ BitVec.ofBool b ++ row ++ col : BitVec 24) &&&
      (0x1F#5 ++ BitVec.ofBool mb ++ mr ++ mc) = 0#24 := by
  rw [BitVec.and_append, BitVec.and_append, BitVec.and_append, hr, hc]
  cases b <;> cases mb <;> first | rfl | cases hb

theorem openRow (row : Line) : Statement (.openRow row) := fun _ =>
  ⟨fieldOpc_formatC _ _ _ _, formatC_and _ _ _ _ _
    (argument_and false row 0#9 true 0#9 0x1FF#9 rfl (by simp) (by simp)) rfl rfl⟩

theorem strobeCol (col : Line) : Statement (.strobeCol col) := fun _ =>
  ⟨fieldOpc_formatC _ _ _ _, formatC_and _ _ _ _ _
    (argument_and false 0#9 col true 0x1FF#9 0#9 rfl (by simp) (by simp)) rfl rfl⟩

theorem closeRow : Statement .closeRow := by
  unfold Statement
  decide

theorem pageWrite (col : Line) (b : Bit) : Statement (.pageWrite col b) := fun _ =>
  ⟨fieldOpc_formatC _ _ _ _, formatC_and _ _ _ _ _
    (argument_and b 0#9 col false 0x1FF#9 0#9 (by simp) (by simp) (by simp)) rfl rfl⟩

theorem pageRead (col : Line) : Statement (.pageRead col) := fun _ =>
  ⟨fieldOpc_formatC _ _ _ _, formatC_and _ _ _ _ _
    (argument_and false 0#9 col true 0x1FF#9 0#9 rfl (by simp) (by simp)) rfl rfl⟩

theorem writeBitEarly (row col : Line) (b : Bit) : Statement (.writeBitEarly row col b) := fun _ =>
  ⟨fieldOpc_formatC _ _ _ _, formatC_and _ _ _ _ _
    (argument_and b row col false 0#9 0#9 (by simp) (by simp) (by simp)) rfl rfl⟩

theorem readBit (row col : Line) : Statement (.readBit row col) := fun _ =>
  ⟨fieldOpc_formatC _ _ _ _, formatC_and _ _ _ _ _
    (argument_and false row col true 0#9 0#9 rfl (by simp) (by simp)) rfl rfl⟩

theorem init : Statement .init := by
  unfold Statement
  decide

theorem isPresent : Statement .isPresent := by
  unfold Statement
  decide

theorem chipKind : Statement .chipKind := by
  unfold Statement
  decide

theorem runTest (lines : BitVec 4) : Statement (.runTest lines) := by
  unfold Statement
  decide +revert

end Sys2Proof.Laws.TableRow
end

