-- ==== Sys2Proof/Laws/Step.lean ====
section
/-!
SUPPORT. Everything a step can do, said once: a relation that every part of a step respects relates
the states before and after an operation (`exec_related`) and a step (`step_related`).
-/

namespace Sys2Proof.Machine

open Sys2Proof.Safety
open Sys2Proof.Config (Params DevLines)

/-- A preorder that also respects the test registers and the return from a fault relates what every
operation starts from and reaches. -/
theorem stays_bodyOf {K : Params} {R : State → State → Prop} (T : Tame K R) (U : TameTest R)
    (h : ∀ s, R s s.recovered) (i : Instr) : Stays R Result (bodyOf K i) :=
  T.closed.bodyOf U.closed h i

/-- What an operation can do: a relation its parts respect relates the states around it. -/
theorem exec_related {R : State → State → Prop} {i : Instr} {s t : State}
    (error : ∀ e, R s (s.cmdErr e)) (trans : ∀ a b c, R a b → R b c → R a c)
    (start : R s s.started) (body : Stays R Result (bodyOf Config.machine i))
    (finish : ∀ (u : State) r, R u (u.finished r)) (fault : ∀ u : State, R u u.ioFault)
    (h : exec i s = .next t) : R s t := by
  rcases exec_cases h with ⟨-, -, e, rfl⟩ | ⟨-, ⟨r, u, hb, rfl⟩ | ⟨u, hb, rfl⟩⟩
  · exact error e
  · have := body s.started
    rw [reached, hb] at this
    exact trans _ _ _ (trans _ _ _ start this) (finish _ _)
  · have := body s.started
    rw [reached, hb] at this
    exact trans _ _ _ (trans _ _ _ start this) (fault _)

/-- The ways a step leaves a next state. -/
theorem step_cases {s t : State} (h : step s = .next t) :
    (s.host = [] ∧ t = s) ∨
      ∃ a later, s.host = a :: later ∧
        ((∃ r, a = .read r ∧ t = { s with host := later }.hostRead r) ∨
          (∃ r w, a = .write r w ∧ r ≠ .cmd ∧ t = { s with host := later }) ∨
          (∃ w, a = .write .cmd w ∧ s.status.busy = true ∧ t = { s with host := later }.overrun) ∨
          (∃ w, a = .write .cmd w ∧ s.status.busy = false ∧
            ((∃ i, decode w = .instr i ∧
                exec i { s with host := later }.clearedForCommand = .next t) ∨
              (∃ e, decode w = .illegalOpcode ∧ e = .illegalOpcode ∧
                t = { s with host := later }.clearedForCommand.cmdErr e) ∨
              (∃ e, decode w = .badOperand ∧ e = .badOperand ∧
                t = { s with host := later }.clearedForCommand.cmdErr e)))) := by
  unfold step State.nextAccess at h
  cases hh : s.host with
  | nil =>
    simp only [hh] at h
    cases h
    exact .inl ⟨rfl, rfl⟩
  | cons a later =>
    refine .inr ⟨a, later, rfl, ?_⟩
    simp only [hh] at h
    cases hb : s.status.busy
    · simp only [hb] at h
      cases a with
      | read r => cases h; exact .inl ⟨r, rfl, rfl⟩
      | write r w =>
        cases r
        case cmd =>
          refine .inr (.inr (.inr ⟨w, rfl, rfl, ?_⟩))
          simp only [State.idleAccess, State.command] at h
          cases hd : decode w with
          | instr i => simp only [hd] at h; exact .inl ⟨i, rfl, h⟩
          | illegalOpcode => simp only [hd] at h; cases h; exact .inr (.inl ⟨_, rfl, rfl, rfl⟩)
          | badOperand => simp only [hd] at h; cases h; exact .inr (.inr ⟨_, rfl, rfl, rfl⟩)
        all_goals cases h; exact .inr (.inl ⟨_, w, rfl, by simp, rfl⟩)
    · simp only [hb] at h
      cases a with
      | read r => cases h; exact .inl ⟨r, rfl, rfl⟩
      | write r w =>
        cases r
        case cmd => cases h; exact .inr (.inr (.inl ⟨w, rfl, rfl, rfl⟩))
        all_goals cases h; exact .inr (.inl ⟨_, w, rfl, by simp, rfl⟩)

/-- What a step can do: a relation its parts respect relates the states around it. -/
theorem step_related {R : State → State → Prop} (refl : ∀ s, R s s)
    (trans : ∀ a b c, R a b → R b c → R a c) (host : ∀ (s : State) l, R s { s with host := l })
    (read : ∀ s r, R s (State.hostRead s r)) (overrun : ∀ s : State, R s s.overrun)
    (clear : ∀ s : State, R s s.clearedForCommand) (error : ∀ (s : State) e, R s (s.cmdErr e))
    (operation : ∀ i s t, exec i s = .next t → R s t) {s t : State} (h : step s = .next t) :
    R s t := by
  rcases step_cases h with ⟨-, rfl⟩ | ⟨a, later, -, h | h | h | h⟩
  · exact refl _
  · obtain ⟨r, -, rfl⟩ := h
    exact trans _ _ _ (host s later) (read _ _)
  · obtain ⟨r, w, -, -, rfl⟩ := h
    exact host s later
  · obtain ⟨w, -, -, rfl⟩ := h
    exact trans _ _ _ (host s later) (overrun _)
  · obtain ⟨w, -, -, ⟨i, -, h⟩ | ⟨e, -, -, rfl⟩ | ⟨e, -, -, rfl⟩⟩ := h
    · exact trans _ _ _ (trans _ _ _ (host s later) (clear _)) (operation _ _ _ h)
    · exact trans _ _ _ (trans _ _ _ (host s later) (clear _)) (error _ _)
    · exact trans _ _ _ (trans _ _ _ (host s later) (clear _)) (error _ _)

/-- A read by the host changes only the word read and the supply of free values. -/
theorem hostRead_frame (s : State) (r : HostReg) :
    ∃ rd n, s.hostRead r = { s with readData := rd, freeNo := n } := by
  unfold State.hostRead
  split
  · exact ⟨_, _, rfl⟩
  · split
    · exact ⟨_, _, rfl⟩
    · exact ⟨_, s.freeNo, rfl⟩

/-- A reaction of the device keeps its parameters, and whether it is upset. -/
theorem react_params (d : Device) (p : Pins) (f : Bit) (sig : Signal) (v : Bit) :
    (d.react p f sig v).present = d.present ∧ (d.react p f sig v).lines = d.lines ∧
      (d.react p f sig v).stuck = d.stuck ∧ (d.react p f sig v).least = d.least ∧
      (d.react p f sig v).timingMet = d.timingMet ∧ (d.react p f sig v).upset = d.upset := by
  unfold Device.react
  split
  · cases sig <;> cases v <;> dsimp only
    case rasN.false => split <;> exact ⟨rfl, rfl, rfl, rfl, rfl, rfl⟩
    case casN.false =>
      split
      · unfold Device.casFall
        split
        · unfold Device.access
          split <;> exact ⟨rfl, rfl, rfl, rfl, rfl, rfl⟩
        · exact ⟨rfl, rfl, rfl, rfl, rfl, rfl⟩
      · exact ⟨rfl, rfl, rfl, rfl, rfl, rfl⟩
    all_goals exact ⟨rfl, rfl, rfl, rfl, rfl, rfl⟩
  · exact ⟨rfl, rfl, rfl, rfl, rfl, rfl⟩

/-- Two states whose devices need the same widths and have the same verdict on them. -/
def SameTiming (s t : State) : Prop :=
  t.dev.least = s.dev.least ∧ t.dev.timingMet = s.dev.timingMet

theorem tame_sameTiming (K : Params) : Tame K SameTiming where
  refl _ := ⟨rfl, rfl⟩
  trans _ _ _ h1 h2 := ⟨h2.1.trans h1.1, h2.2.trans h1.2⟩
  withIoFails _ _ := ⟨rfl, rfl⟩
  pinAt s sig v := ⟨(react_params _ _ _ _ _).2.2.2.1, (react_params _ _ _ _ _).2.2.2.2.1⟩
  pinFailed s sig := by
    unfold State.pinFailed
    split
    · exact ⟨rfl, rfl⟩
    · exact ⟨(react_params _ _ _ _ _).2.2.2.1, (react_params _ _ _ _ _).2.2.2.2.1⟩
  toggled _ _ := ⟨rfl, rfl⟩
  toggleFailed _ := ⟨rfl, rfl⟩
  waited _ _ _ := ⟨rfl, rfl⟩
  tookDout _ := ⟨rfl, rfl⟩
  withSeq _ _ := ⟨rfl, rfl⟩
  withLda _ _ := ⟨rfl, rfl⟩

theorem tameTest_sameTiming : TameTest SameTiming := by
  constructor <;> intros <;> exact ⟨rfl, rfl⟩

/-- No operation changes what its chip needs, or the verdict on it. -/
theorem exec_sameTiming {i : Instr} {s t : State} (h : exec i s = .next t) : SameTiming s t := by
  refine exec_related (fun _ => ⟨rfl, rfl⟩) (tame_sameTiming Config.machine).trans ?_
    (stays_bodyOf (tame_sameTiming _) tameTest_sameTiming (fun _ => ⟨rfl, rfl⟩) i)
    (fun _ _ => ⟨rfl, rfl⟩) (fun _ => ⟨rfl, rfl⟩) h
  obtain ⟨rd, h1⟩ := started_eq s
  rw [h1]
  exact ⟨rfl, rfl⟩

end Sys2Proof.Machine
end

