-- ==== Sys2Proof/Laws/Soundness.lean ====
section
/-!
SUPPORT. Every operation from a state of the machine's invariant leaves a next state of it, whatever
the environment answers, and stores only where it should: the one theorem `exec_sound`.
-/

namespace Sys2Proof.Machine

open Sys2Proof.Safety
open Sys2Proof.Config (Params DevLines)

/-- The scene an operation is set in, for a property of the cells. -/
def sceneOf (s : State) (G : Cells → Prop) : Scene where
  status := s.status
  e := s.pin.a ^^^ wired s.x.lda
  present := s.dev.present
  lines := s.dev.lines
  upset := s.dev.upset
  cells := G

theorem addr_sceneOf (s : State) (G : Cells → Prop) :
    s.pin.a = wired s.x.lda ^^^ (sceneOf s G).e := by
  rw [sceneOf, BitVec.xor_comm s.pin.a, ← BitVec.xor_assoc, BitVec.xor_self, BitVec.zero_xor]

/-- What the engine presents, by the error pattern of the scene. -/
theorem presented_sceneOf (s : State) (G : Cells → Prop) (v : Line) :
    v ^^^ (sceneOf s G).e = presented s v := by
  rw [presented, shown_eq]; rfl

/-- The cells an operation may write, in terms of a scene: from an idle phase. -/
def Scene.IdlePermits (c : Scene) : Instr → Prop
  | .writeBitEarly row col _ => c.MayWriteAt row col
  | .isPresent => c.MayWriteAt 0#9 0#9
  | .chipKind => c.MayWriteAt 8#9 8#9 ∧ c.MayWriteAt 264#9 264#9
  | .runTest lines => ∀ row col, Covered (sideOf lines) row → Covered (sideOf lines) col →
      c.MayWriteAt row col
  | _ => True

/-- Between operations: an idle phase, or an open one. -/
abbrev Scene.Ready (c : Scene) (s : State) : Prop :=
  c.Idle true .idle s ∨ ∃ r, c.Row r ∧ c.Open r true .rowOpen s

theorem idle_bodyOf {c : Scene} {K : Params} {i : Instr} (hi : i ≠ .init)
    (hl : legalIn i.opcode .idle = true) (hp : c.IdlePermits i) :
    Ends (c.Idle true .idle) (bodyOf K i) (fun _ => c.Ready) c.Down := by
  have done : ∀ {r : Result}, Ends (c.Idle true .idle) (pure r : Micro Result) (fun _ => c.Ready) c.Down :=
    Ends.pure fun _ h => .inl h
  cases i with
  | delay sel => exact (idle_wait _).bind fun _ => done
  | addrSet a => exact ((idle_addrSet _).weaken (fun _ h => h) (fun _ _ h => h.1) fun _ h => h).bind fun _ => done
  | openRow row =>
    exact (openRow_ends row).bind fun _ => Ends.pure fun _ h => .inr ⟨_, row_seen _ _, h⟩
  | strobeCol col => simp [Instr.opcode, legalIn] at hl
  | closeRow => simp [Instr.opcode, legalIn] at hl
  | pageWrite col b => simp [Instr.opcode, legalIn] at hl
  | pageRead col => simp [Instr.opcode, legalIn] at hl
  | writeBitEarly row col b => exact (writeBitEarly_ends row col b hp).bind fun _ => done
  | readBit row col => exact (readBit_ends row col).bind fun _ => done
  | init => exact absurd rfl hi
  | isPresent => exact (isWorking_ends hp).bind fun _ => done
  | chipKind => exact (isChip41256_ends hp.1 hp.2).bind fun _ => done
  | runTest lines =>
    exact (runTestOn_ends lines _ hp).weaken (fun _ h => h) (fun _ _ h => .inl h) fun _ h => h

theorem open_bodyOf {c : Scene} {K : Params} {i : Instr} {r : Line} (hr : c.Row r) (hi : i ≠ .init)
    (hl : legalIn i.opcode .rowOpen = true)
    (hp : ∀ col b, i = .pageWrite col b → c.MayWrite r col) :
    Ends (c.Open r true .rowOpen) (bodyOf K i) (fun _ => c.Ready) c.Down := by
  have done : ∀ {x : Result},
      Ends (c.Open r true .rowOpen) (pure x : Micro Result) (fun _ => c.Ready) c.Down :=
    Ends.pure fun _ h => .inr ⟨r, hr, h⟩
  cases i with
  | delay sel => exact (open_wait _).bind fun _ => done
  | addrSet a => exact ((open_addrSet hr _).weaken (fun _ h => h) (fun _ _ h => h.1) fun _ h => h).bind fun _ => done
  | openRow row => simp [Instr.opcode, legalIn] at hl
  | strobeCol col => exact (strobeColumn_ends hr col (by simp)).bind fun _ => done
  | closeRow => exact (closeRow_ends hr).bind fun _ => Ends.pure fun _ h => .inl h
  | pageWrite col b => exact (pageWrite_ends hr col b (hp col b rfl)).bind fun _ => done
  | pageRead col => exact (pageRead_ends hr col).bind fun _ => done
  | writeBitEarly row col b => simp [Instr.opcode, legalIn] at hl
  | readBit row col => simp [Instr.opcode, legalIn] at hl
  | init => exact absurd rfl hi
  | isPresent => simp [Instr.opcode, legalIn] at hl
  | chipKind => simp [Instr.opcode, legalIn] at hl
  | runTest lines => simp [Instr.opcode, legalIn] at hl

/-- The scene after a completed `INIT`. -/
def Scene.recovered (c : Scene) : Scene :=
  { c with status := { c.status with inited := true, fault := false } }

theorem init_bodyOf {c : Scene} {K : Params} :
    Ends c.Any (initBody K) (fun _ => c.recovered.Idle true .idle) c.Down := by
  have rest : ∀ q, Ends (c.Idle true q) (do
      pin .din false
      setSeq .idle
      times 8 (prechargePulse K)
      modify State.recovered
      return {} : Micro Result) (fun _ => c.recovered.Idle true .idle) c.Down := fun q =>
    (idle_din _).bind fun _ => (idle_setSeq _).bind fun _ =>
      (Ends.times prechargePulse_ends 8).bind fun _ =>
        (Ends.modify (f := State.recovered) (Q := fun _ => c.recovered.Idle true .idle) (by
          rintro s ⟨⟨⟨h1, h2, h3, h4, h5⟩, h6, h7⟩, h8, h9, h10, h11, h12, h13⟩
          exact ⟨⟨⟨by rw [State.recovered]; simp [h1, Scene.recovered], h2, h3, h4, h5⟩, h6, h7⟩,
            h8, h9, h10, h11, h12, h13⟩)).bind fun _ => Ends.pure fun _ h => h
  exact init_weN.bind fun _ => init_casN.bind fun _ => init_rasN.bind fun _ s hs => rest _ s hs

/-- The start of an operation keeps what the invariant says of pins and device. -/
theorem started_invariant (s : State) :
    s.started.pin = s.pin ∧ s.started.x = s.x ∧ s.started.seq = s.seq ∧ s.started.dev = s.dev ∧
      s.started.result = s.result ∧ s.started.trace = s.trace ∧ s.started.host = s.host ∧
      s.started.ioFails = s.ioFails ∧
      ∃ o, (s.status.overrun = true → o = true) ∧
        s.started.status = { s.status with busy := true, overrun := o } := by
  obtain ⟨rd, h⟩ := started_eq s
  rw [h]
  exact ⟨rfl, rfl, rfl, rfl, rfl, rfl, rfl, rfl, _, fun ho => by simp [ho], rfl⟩

/-- The property of the cells in an operation's scene: canonical form, cells of the chip, and `G`. -/
abbrev SoundCells (l : DevLines) (G : Cells → Prop) (cs : Cells) : Prop :=
  Cells.wf cs = true ∧ (∀ e ∈ cs, InChip l e.1) ∧ G cs

theorem soundCells_store {l : DevLines} {G : Cells → Prop} {row col : Line}
    (hr : row.toNat < 2 ^ lineCount l)
    (h : ∀ cs b, G cs → G (Cells.store cs (cellKey row (seenLines l col)) b)) :
    ∀ cs b, SoundCells l G cs → SoundCells l G (Cells.store cs (cellKey row (seenLines l col)) b) := by
  rintro cs b ⟨h1, h2, h3⟩
  refine ⟨Cells.store_wf _ _ h1, fun e he => ?_, h cs b h3⟩
  rcases Cells.mem_store he with rfl | he
  · exact ⟨by simpa using hr, by simpa using seenLines_lt l col⟩
  · exact h2 e he

/-- What is known of the status in an operation's scene. -/
abbrev SoundStatus (t : Status) : Prop :=
  t.errCode.isSome = t.cmdErr ∧ t.faultCode.isSome = t.faultSeen ∧ (t.fault = true → t.faultSeen = true)

/-- A failed operation leaves a state of the invariant. -/
theorem Scene.Down.inv {c : Scene} {G : Cells → Prop} {u : State}
    (hc : c.cells = SoundCells c.lines G) (ht : SoundStatus c.status) (h : c.Down u) :
    CoreInv u.ioFault ∧ G u.ioFault.dev.cells := by
  obtain ⟨⟨h1, h2, h3, h4, h5⟩, h6, h7⟩ := h
  rw [hc, ← h5] at h3
  rw [← h1] at ht
  refine ⟨⟨⟨rfl, h2⟩, ⟨h3.1, h3.2.1, by rw [← h5] at h6; exact h6, fun hp => h7 (by rw [← h4]; exact hp)⟩,
    ⟨ht.1, rfl, fun _ => rfl, fun _ => rfl⟩, fun hf => ?_, fun hf => ?_⟩, h3.2.2⟩
  · cases hf
  · cases hf

/-- An operation that ends in an idle or an open phase leaves a state of the invariant. -/
theorem Scene.Ready.inv {c : Scene} {G : Cells → Prop} {u : State} (r : Result)
    (hc : c.cells = SoundCells c.lines G) (ht : SoundStatus c.status) (hi : c.status.inited = true)
    (hu : c.upset = true → c.status.faultSeen = true) (he : c.status.faultSeen = false → c.e = 0#9)
    (h : c.Ready u) : CoreInv (u.finished r) ∧ G (u.finished r).dev.cells := by
  have live : ∀ {v : State}, c.Live v → (∀ x, v.dev.rowLatch = some x → x.toNat < 2 ^ lineCount c.lines) →
      (c.present = false → v.dev.rowLatch = none ∧ v.dev.drive = none) →
      (v.status.fault = false → ReadyIdle (v.finished r) ∨ ReadyOpen (v.finished r)) →
      CoreInv (v.finished r) ∧ G (v.finished r).dev.cells := by
    rintro v ⟨⟨h1, h2, h3, h4, h5⟩, h6, h7⟩ h8 h9 h10
    rw [hc, ← h5] at h3
    rw [← h1] at ht hi hu he
    refine ⟨⟨⟨rfl, h2⟩, ⟨h3.1, h3.2.1, by rw [← h5] at h8; exact h8, fun hp => h9 (by rw [← h4]; exact hp)⟩,
      ⟨ht.1, ht.2.1, ht.2.2, fun hx => hu (by rw [← h7]; exact hx)⟩, fun hf => ?_, fun hf =>
        ⟨fun hx => ?_, fun _ => h10 hf⟩⟩, h3.2.2⟩
    · have := he hf
      show v.pin.a = wired v.x.lda
      rw [h6, this, BitVec.xor_zero]
    · have : v.status.inited = false := hx
      rw [hi] at this; cases this
  rcases h with h | ⟨x, hx, h⟩
  · refine live h.toLive (by simp [h.rowLatch]) (fun _ => ⟨h.rowLatch, h.drive⟩) fun hf => .inl ?_
    exact ⟨⟨hf, by rw [← h.status] at hi; exact hi, h.seq⟩, h.rasN, h.casN, h.weN, h.rowLatch, h.drive⟩
  · refine live h.toLive (h.down hx).row (fun hp => ⟨by simp [h.rowLatch, hp], h.drive⟩) fun hf => .inr ?_
    refine ⟨⟨hf, by rw [← h.status] at hi; exact hi, h.seq⟩, h.rasN, h.casN, h.weN, ?_, h.drive⟩
    show u.dev.rowLatch.isSome = u.dev.present
    rw [h.rowLatch, h.present]
    cases c.present <;> rfl

/-- A command error leaves a state of the invariant. -/
theorem coreInv_cmdErr {s : State} (e : CmdErr) (h : CoreInv s) : CoreInv (s.cmdErr e) := by
  obtain ⟨h1, h2, h3, h4, h5⟩ := h
  exact ⟨h1, h2, ⟨rfl, h3.2⟩, h4, h5⟩

/-- Every operation from a state of the invariant leaves a next state of it; a property of the cells
that stores to the operation's cells keep is kept. -/
theorem exec_sound_core {i : Instr} {s : State} {G : Cells → Prop} (h : CoreInv s) (hG : G s.dev.cells)
    (hs : ∀ k, Stores s i k → ∀ cs b, G cs → G (Cells.store cs k b)) :
    ∃ t, exec i s = .next t ∧ CoreInv t ∧ G t.dev.cells := by
  by_cases ha : Accepts i s
  case neg =>
    obtain ⟨-, e, he⟩ := exec_not_accepted ha
    exact ⟨_, he, coreInv_cmdErr e h, hG⟩
  obtain ⟨p1, p2, p3, p4, p5, p6, p7, p8, o, p9, p10⟩ := started_invariant s
  obtain ⟨⟨-, h2⟩, h3, ⟨h4, h5, h6, h7⟩, h8, h9⟩ := h
  let c := sceneOf s.started (SoundCells s.dev.lines G)
  have hc : c.cells = SoundCells c.lines G := by simp [c, sceneOf, p4]
  have hst : c.status = { s.status with busy := true, overrun := o } := p10
  have ht : SoundStatus c.status := by rw [hst]; exact ⟨h4, h5, h6⟩
  have hu : c.upset = true → c.status.faultSeen = true := by
    rw [hst]; simp only [c, sceneOf, p4]; exact h7
  have he : c.status.faultSeen = false → c.e = 0#9 := by
    rw [hst]; intro hf
    simp only [c, sceneOf, p1, p2]
    rw [h8 hf, BitVec.xor_self]
  have live : c.Live s.started :=
    ⟨⟨rfl, by rw [p2]; exact h2, by simp only [c, sceneOf, p4]; exact ⟨h3.1, h3.2.1, hG⟩, rfl, rfl⟩,
      addr_sceneOf _ _, rfl⟩
  have hlines : c.lines = s.dev.lines := by simp [c, sceneOf, p4]
  have hpres : ∀ v, v ^^^ c.e = presented s v := fun v => by
    rw [← presented_sceneOf s G]; simp [c, sceneOf, p1, p2]
  have hpresent : c.present = s.dev.present := by simp [c, sceneOf, p4]
  clear_value c
  rw [exec_accepted ha]
  have finish : ∀ {m : Micro Result} {P : State → Prop}, P s.started →
      Ends P m (fun r u => CoreInv (u.finished r) ∧ G (u.finished r).dev.cells)
        (fun u => CoreInv u.ioFault ∧ G u.ioFault.dev.cells) →
      ∃ t, runOperation m s = .next t ∧ CoreInv t ∧ G t.dev.cells := by
    intro m P hP hm
    have := hm _ hP
    unfold runOperation
    split at this
    · exact ⟨_, by simp_all, this⟩
    · exact ⟨_, by simp_all, this⟩
    · exact this.elim
  obtain ⟨hwf, ha⟩ := ha
  by_cases hni : i = .init
  · subst hni
    have any : c.Any s.started :=
      ⟨live, by rw [p4, hlines]; exact h3.2.2.1, by rw [p4, hpresent]; exact h3.2.2.2⟩
    exact finish any (init_bodyOf.weaken (fun _ h => h) (fun r u hr =>
      Scene.Ready.inv (c := c.recovered) r hc ⟨ht.1, ht.2.1, fun hx => by cases hx⟩ rfl hu he (.inl hr))
      fun u hd => hd.inv hc ht)
  · obtain ⟨a1, a2, a3⟩ := ha.resolve_left hni
    have hin : c.status.inited = true := by rw [hst]; exact a2
    rcases (h9 a1).2 a2 with hi | hi
    · obtain ⟨⟨-, -, b0⟩, b1, b2, b3, b4, b5⟩ := hi
      have idle : c.Idle true .idle s.started :=
        ⟨live, by rw [p1]; exact b1, by rw [p1]; exact b2, by rw [p1]; exact b3, by rw [p4]; exact b4,
          by rw [p4]; exact b5, by rw [p3]; exact b0⟩
      refine finish idle ((idle_bodyOf hni (by rwa [b0] at a3) ?_).weaken (fun _ h => h)
        (fun r u hr => Scene.Ready.inv r hc ht hin hu he hr) fun u hd => hd.inv hc ht)
      have at' : ∀ row col, (∀ cs b, G cs → G (Cells.store cs (targetKey s row col) b)) →
          c.MayWriteAt row col := by
        intro row col hG'
        show ∀ cs b, c.cells cs → c.cells (Cells.store cs _ b)
        rw [hpres row, hpres col, hc]
        exact soundCells_store (row_seen c _) (by rw [hlines]; exact hG')
      cases i with
      | writeBitEarly row col b => exact at' _ _ (hs _ rfl)
      | isPresent => exact at' _ _ (hs _ rfl)
      | chipKind => exact ⟨at' _ _ (hs _ (.inl rfl)), at' _ _ (hs _ (.inr rfl))⟩
      | runTest lines =>
        rintro row col ⟨r, hr, rfl⟩ ⟨k, hk, rfl⟩
        exact at' _ _ (hs _ ⟨r, hr, k, hk, rfl⟩)
      | _ => trivial
    · obtain ⟨⟨-, -, b0⟩, b1, b2, b3, b4, b5⟩ := hi
      have hrow : c.Row (s.dev.rowLatch.getD 0#9) := by
        show _ < 2 ^ lineCount c.lines
        rw [hlines]
        cases hl : s.dev.rowLatch with
        | none => simp
        | some x => exact h3.2.2.1 x hl
      have hlatch : s.dev.rowLatch = if s.dev.present then some (s.dev.rowLatch.getD 0#9) else none := by
        rw [← b4]
        cases s.dev.rowLatch <;> rfl
      have op : c.Open (s.dev.rowLatch.getD 0#9) true .rowOpen s.started :=
        ⟨live, by rw [p1]; exact b1, by rw [p1]; exact b2, by rw [p1]; exact b3, by
          rw [p4, hpresent]; exact hlatch, by rw [p4]; exact b5, by rw [p3]; exact b0⟩
      refine finish op ((open_bodyOf hrow hni (by rwa [b0] at a3) ?_).weaken (fun _ h => h)
        (fun r u hr => Scene.Ready.inv r hc ht hin hu he hr) fun u hd => hd.inv hc ht)
      rintro col b rfl
      show ∀ cs b, c.cells cs → c.cells (Cells.store cs _ b)
      rw [hpres col, hc]
      exact soundCells_store hrow (by rw [hlines]; exact hs _ rfl)

/-- The verdict on a chip's timing, as the premise of the rules. -/
theorem meetsTiming_iff (K : Params) (least : Config.Datasheet) :
    meetsTiming K least = true ↔ TimingMet K least := by
  simp [meetsTiming, profileFits, clockDivides, and_assoc]

/-- Every operation from a state of the invariant leaves a next state of it; a property of the cells
that every store of the operation keeps is kept. -/
theorem exec_sound {i : Instr} {s : State} {G : Cells → Prop} (h : Inv s) (hG : G s.dev.cells)
    (hs : ∀ k, Stores s i k → ∀ cs b, G cs → G (Cells.store cs k b)) :
    ∃ t, exec i s = .next t ∧ Inv t ∧ G t.dev.cells := by
  obtain ⟨t, ht, hi, hg⟩ := exec_sound_core h.1 hG hs
  obtain ⟨h1, h2⟩ := exec_sameTiming ht
  exact ⟨t, ht, ⟨hi, by rw [TimingInv, h1, h2]; exact h.2⟩, hg⟩

end Sys2Proof.Machine
end

