-- ==== Sys2Proof/Tests/Slice0.lean ====
section
/-!
SUPPORT. Tests. Expected values come from `95_test_vectors.md` (the vector is named at each test) or
from the rule named there. The last part shows, for every statement for the provers that has
hypotheses, states and operands that meet them.
-/

open Sys2Proof Sys2Proof.Machine Sys2Proof.Safety
open Sys2Proof.Config (Params Datasheet DeviceParams DevLines)

namespace Sys2Proof.Tests

/-! ### Small states -/

/-- Configuration EX125 (`40_delay_and_timing_profile.md` R145). -/
def ex125 : Params :=
  { clockHz := 125000000
    ds := { tRas := 150, tCas := 75, tRcd := 25, tRp := 100, tCp := 60 }
    xcvrSettleNs := 20
    patternInit := 0x3CA5960F#32 }

/-- The same chip data at another clock (vectors V3.2 to V3.6). -/
def atClock (hz : ℕ+) : Params := { ex125 with clockHz := hz }

/-- A present chip that needs no least width. -/
def chip (lines : DevLines) (stuck : List (Nat × Bit)) : DeviceParams :=
  { present := true, lines := lines, stuck := stuck, least := ⟨0, 0, 0, 0, 0⟩ }

/-- No chip in the socket. -/
def noChip : DeviceParams :=
  { present := false, lines := .eight, stuck := [], least := ⟨0, 0, 0, 0, 0⟩ }

/-- Initialised, idle, `x[LDA] = 0`, the chip's timing met. -/
def idle (d : DeviceParams) : State :=
  { State.resetWith d with
    pin := { rasN := true, casN := true, weN := true, din := false, a := 0#9 }
    status.inited := true
    dev.timingMet := true }

/-- Initialised, row 3 open, `x[LDA] = 3`. -/
def open3 (d : DeviceParams) : State :=
  { idle d with
    pin := { rasN := false, casN := true, weN := true, din := false, a := 3#9 }
    x.lda := 3#32
    seq := .rowOpen
    dev.rowLatch := if d.present then some 3#9 else none }

/-- A healthy 8-line chip, idle. -/
def idle8 : State := idle (chip .eight [])

/-- A healthy 9-line chip, idle. -/
def idle9 : State := idle (chip .nine [])

/-- A healthy 9-line chip, row 3 open. -/
def open9 : State := open3 (chip .nine [])

/-- The state after an operation. -/
def after (i : Instr) (s : State) : State := (nextState? (exec i s)).getD s

/-- What a body does under EX125: its result and the events it emits. -/
def ran (K : Params) (i : Instr) (s : State) : Option (Result × List Event) :=
  match bodyOf K i s with
  | .ok r t => some (r, t.events)
  | .error _ _ => none

/-! ### Well-formedness and decoding -/

/-- `30_encoding.md` R106: only 8 and 9 are line counts. -/
theorem test_lineCounts :
    (List.range 16).map (fun n => (Instr.runTest (BitVec.ofNat 4 n)).wellFormed) =
      [false, false, false, false, false, false, false, false, true, true, false, false, false,
       false, false, false] := by decide

/-- V1.1, one word per row of the opcode table. -/
theorem test_words_delay : decode 0x01000000#32 = .instr (.delay .ras) ∧
    decode 0x01000007#32 = .instr (.delay .xcvrSettle) := by decide

theorem test_words_addrSet : decode 0x02000155#32 = .instr (.addrSet 0x155#24) ∧
    decode 0x02FFFFFF#32 = .instr (.addrSet 0xFFFFFF#24) := by decide

theorem test_words_openRow : decode 0x10000600#32 = .instr (.openRow 3#9) ∧
    decode 0x1003FE00#32 = .instr (.openRow 511#9) := by decide

theorem test_words_strobeCol : decode 0x11000001#32 = .instr (.strobeCol 1#9) := by decide

theorem test_words_closeRow : decode 0x12000000#32 = .instr .closeRow := by decide

theorem test_words_pageWrite : decode 0x13040000#32 = .instr (.pageWrite 0#9 true) ∧
    decode 0x13000001#32 = .instr (.pageWrite 1#9 false) := by decide

theorem test_words_pageRead : decode 0x14000001#32 = .instr (.pageRead 1#9) := by decide

theorem test_words_writeBitEarly :
    decode 0x18040B2C#32 = .instr (.writeBitEarly 5#9 300#9 true) ∧
    decode 0x18061108#32 = .instr (.writeBitEarly 264#9 264#9 true) ∧
    decode 0x18001008#32 = .instr (.writeBitEarly 8#9 8#9 false) := by decide

theorem test_words_readBit : decode 0x19001008#32 = .instr (.readBit 8#9 8#9) ∧
    decode 0x19000A2C#32 = .instr (.readBit 5#9 44#9) := by decide

theorem test_words_init : decode 0x20000000#32 = .instr .init := by decide

theorem test_words_isPresent : decode 0x21000000#32 = .instr .isPresent := by decide

theorem test_words_chipKind : decode 0x22000000#32 = .instr .chipKind := by decide

theorem test_words_runTest : decode 0x30000008#32 = .instr (.runTest 8#4) ∧
    decode 0x30000009#32 = .instr (.runTest 9#4) := by decide

/-- V1.2, the words with an opcode outside the map. -/
theorem test_illegalOpcodes :
    ([0x00000000#32, 0xFFFFFFFF#32, 0x03000000#32, 0x15000000#32, 0x31000000#32].map decode) =
      List.replicate 5 .illegalOpcode := by decide

/-- V1.2, the words with a bad operand. -/
theorem test_badOperands :
    ([0x01000008#32, 0x10000601#32, 0x10040600#32, 0x11000201#32, 0x12000001#32, 0x13000200#32,
      0x14040000#32, 0x18080000#32, 0x19040000#32, 0x20000001#32, 0x30000000#32, 0x3000000A#32,
      0x30000018#32].map decode) = List.replicate 13 .badOperand := by decide

/-- The encoder on a word with every field in use (V1.1). -/
theorem test_encode : encode (.writeBitEarly 5#9 300#9 true) = 0x18040B2C#32 ∧
    encode (.runTest 9#4) = 0x30000009#32 := by decide

/-- The host's reading of a table row, and of a word outside every row. -/
theorem test_tableWords : decodeTableWord 32 0x10000600 = some (.openRow 3#9) ∧
    decodeTableWord 32 0x31000000 = none := by decide

/-- `30_encoding.md` R115: a call name of the source, and an operand out of range. -/
theorem test_assemble : assemble "write_one_bit_early" [5, 300, 1] =
      some (.writeBitEarly 5#9 300#9 true) ∧ assemble "OPEN_ROW" [512] = none := by decide

/-! ### Delay engine and timing profile -/

/-- V2.1. -/
theorem test_nsPerCycle :
    ([125000000, 133000000, 48000000, 10000000, 1000000000, 3000000000].map (ceilDiv 1000000000)) =
      [8, 8, 21, 100, 1, 1] := by decide

/-- V2.2. -/
theorem test_cycles :
    ([0, 1, 7, 8, 9, 16, 23, 24, 25, 31, 32, 142, 150, 1000].map (cyclesAt 8)) =
      [0, 1, 1, 1, 2, 2, 3, 3, 4, 4, 4, 18, 19, 125] := by decide

/-- The eight counts of a configuration, in the order of V3. -/
def counts (K : Params) : List Nat := [cRas K, cCas K, cRcd K, cRp K, cCp K, cRest K, cAs K, cXs K]

/-- V3.1 to V3.5. -/
theorem test_counts : counts ex125 = [18, 9, 3, 12, 7, 8, 0, 3] ∧
    counts (atClock 133000000) = [18, 9, 3, 12, 7, 8, 0, 3] ∧
    counts (atClock 48000000) = [7, 3, 1, 4, 2, 4, 0, 1] ∧
    counts (atClock 10000000) = [1, 0, 0, 0, 0, 1, 0, 1] ∧
    counts (atClock 1000000000) = [149, 74, 24, 99, 59, 51, 0, 20] := by decide

/-- V2.4: `DELAY 3` and `DELAY 7`. -/
theorem test_delay : ran ex125 (.delay .rp) idle8 = some ({}, [.wait 12]) ∧
    ran ex125 (.delay .xcvrSettle) idle8 = some ({}, [.wait 3]) := by decide

/-- V4.4: bit 9 of the address has no pin. -/
theorem test_addrSet :
    let s := after (.addrSet 0x2AA#24) (after (.addrSet 0x0AA#24) idle8)
    s.pin.a = 0x0AA#9 ∧ s.x.lda = 0x2AA#32 := by decide

/-- V4.5: the mask keeps the bits that have no pin. -/
theorem test_addrSet_mask :
    ran ex125 (.addrSet 0xFFFFFF#24) { idle8 with pin.a := 0x0AA#9, x.lda := 0x2AA#32 } =
      some ({}, [.addrToggle 0xFFFD55#32, .wait 0]) := by decide

/-! ### Protocol sequencer -/

/-- V5.1. -/
theorem test_openRow : ran ex125 (.openRow 3#9) idle8 =
    some ({}, [.addrToggle 3#32, .wait 0, .pin .rasN false, .wait 3]) := by decide

theorem test_openRow_state :
    let s := after (.openRow 3#9) idle8
    s.seq = .rowOpen ∧ s.dev.rowLatch = some 3#9 ∧ s.idleReadWord .status = 0x62#32 := by decide

/-- V5.2. -/
theorem test_strobeCol : ran ex125 (.strobeCol 1#9) open9 =
    some ({}, [.addrToggle 2#32, .wait 0, .pin .casN false, .wait 9, .pin .casN true]) := by decide

theorem test_strobeCol_state :
    let s := after (.strobeCol 1#9) open9
    s.seq = .rowOpen ∧ s.dev.cells = [] ∧ s.dev.drive = none := by decide

/-- V5.3. -/
theorem test_closeRow : ran ex125 .closeRow open9 =
    some ({}, [.pin .rasN true, .wait 12]) := by decide

theorem test_closeRow_state :
    let s := after .closeRow open9
    s.seq = .idle ∧ s.dev.rowLatch = none ∧ s.idleReadWord .status = 0x22#32 := by decide

/-- V5.4. -/
theorem test_pageWrite : ran ex125 (.pageWrite 0#9 true) open9 =
    some ({}, [.pin .weN false, .pin .din true, .addrToggle 3#32, .wait 0, .pin .casN false, .wait 9,
      .pin .casN true, .pin .weN true, .wait 7]) := by decide

theorem test_pageWrite_state :
    let s := after (.pageWrite 0#9 true) open9
    s.dev.cell (3 * 512) = true ∧ s.dev.cells.length = 1 ∧ s.pin.din = true := by decide

/-- V5.5, after V5.4. -/
theorem test_pageRead :
    (after (.pageRead 0#9) (after (.pageWrite 0#9 true) open9)).idleReadWord .result = 1#32 := by
  decide

theorem test_pageRead_events : ran ex125 (.pageRead 0#9) (after (.pageWrite 0#9 true)
      { open9 with x.lda := 0#32, pin.a := 0#9 } |> fun s => { s with trace := [] }) =
    some ({ value := true }, [.addrToggle 0#32, .wait 0, .pin .casN false, .wait 9, .wait 3,
      .sample true, .pin .casN true, .wait 7]) := by decide

/-- V5.8: the corner cell, at 48 MHz. -/
theorem test_writeBitEarly :
    ran (atClock 48000000) (.writeBitEarly 511#9 511#9 true) idle9 =
      some ({}, [.pin .weN false, .pin .din true, .addrToggle 0x1FF#32, .wait 0, .pin .rasN false,
        .wait 1, .addrToggle 0#32, .wait 0, .pin .casN false, .wait 3, .pin .casN true, .wait 4,
        .pin .rasN true, .wait 4, .pin .weN true]) := by decide

/-- V5.7: on an 8-line chip the write to (5, 300) reaches cell (5, 44). -/
theorem test_writeBitEarly_alias :
    let s := after (.writeBitEarly 5#9 300#9 true) idle8
    s.dev.cells = [(5 * 512 + 44, true)] ∧ s.pin.a = 0x12C#9 ∧ s.x.lda = 300#32 := by decide

/-- V5.7, the read of the aliased cell. -/
theorem test_readBit_alias :
    let s := after (.readBit 5#9 44#9) (after (.writeBitEarly 5#9 300#9 true) idle8)
    s.idleReadWord .result = 1#32 ∧ s.x.lda = 44#32 := by decide

/-- V5.9: a cell stuck at 0 reads 0 after a 1 was written. -/
theorem test_readBit_stuck :
    let s := after (.writeBitEarly 0#9 0#9 true) (idle (chip .eight [(0, false)]))
    s.dev.cell 0 = true ∧ (after (.readBit 0#9 0#9) s).result.value = false := by decide

/-! ### Initialisation and detection -/

/-- V6.1: 36 events, 240 wait cycles. -/
theorem test_init_events : (ran ex125 .init idle8).map (fun p => (p.2.length, waitCycles p.2)) =
    some (36, 240) := by decide

/-- P4 step 9: `INIT` closes a row left open. -/
theorem test_init_state :
    let s := after .init { open9 with status.inited := false }
    s.pin.word true = 0x00030017#32 ∧ s.seq = .idle ∧ s.dev.rowLatch = none ∧
      s.idleReadWord .status = 0x22#32 := by decide

/-- V6.2: a healthy chip is found, in 58 events and 134 wait cycles. -/
theorem test_isPresent :
    (ran ex125 .isPresent idle8).map (fun p => (p.1.word, p.2.length, waitCycles p.2)) =
      some (1#32, 58, 134) := by decide

/-- V6.3: cell (0, 0) stuck at 1 ends the probe after the first read. -/
theorem test_isPresent_stuck :
    (ran ex125 .isPresent (idle (chip .eight [(0, true)]))).map
      (fun p => (p.1.word, p.2.length, waitCycles p.2, p.2.getLast?)) =
        some (0#32, 29, 67, some (.wait 12)) := by decide

/-- V6.5: an 8-line chip, and its toggle masks. -/
theorem test_chipKind_eight :
    (ran ex125 .chipKind idle8).map (fun p => (p.1.word, p.2.length, p.2.filterMap fun
      | .addrToggle m => some m
      | .pin _ _ => none
      | .wait _ => none
      | .sample _ => none)) =
        some (2#32, 44, [0x008#32, 0#32, 0x100#32, 0#32, 0x100#32, 0#32]) := by decide

/-- V6.6: a 9-line chip, and what the probe leaves in its cells. -/
theorem test_chipKind_nine :
    let s := after .chipKind idle9
    s.idleReadWord .result = 5#32 ∧
      s.dev.cells = [(8 * 512 + 8, false), (264 * 512 + 264, true)] ∧ s.x.lda = 8#32 := by decide

/-! ### The moving-inversions test, on its first row and column -/

/-- V7.0: the pattern bits. -/
theorem test_patternBits : (List.range 36).map (patBit 0x3CA5960F#32) =
    [true, false, false, true, true, true, true, false, false, true, false, true, false, false, true,
     false, true, true, false, false, true, false, true, true, false, false, false, false, false, true,
     true, true, true, false, false, true] := by decide

/-- An array of side 1 with its cell stuck at 0: `patbit(0) = 1`, so sweep 2 counts it and the test
stops (V7.2 at the smallest size; `44_moving_inversions.md` R227, R238 for the events). -/
theorem test_runTest_stops :
    (match runTestOn ex125 8#4 1 (idle (chip .eight [(0, false)])) with
      | .ok r t => some (r.word, t.x.failCnt, t.x.failLocWord, t.trace.length)
      | .error _ _ => none) = some (0x220#32, 1#32, 0#32, 29) := by decide

/-! ### Errors, faults, reset, window -/

/-- `10_state.md` R36: the window, and an offset outside it. -/
theorem test_window : [0x00, 0x04, 0x08, 0x0C, 0x10, 0x14, 0x18, 0x1C].map HostReg.atOffset =
    [some .cmd, some .status, some .result, some .failCnt, some .failLoc, some .lda, some .pins,
     none] := by decide

/-- `70_reset_and_hazards.md` R306: a column operation right after `STROBE_COL`, and after `DELAY 4`. -/
theorem test_strobeColGap : ¬ StrobeColGap [.strobeCol 1#9, .pageRead 0#9] ∧
    StrobeColGap [.strobeCol 1#9, .delay .cp, .pageRead 0#9] := by decide

/-- V8.1: the order of the checks, from reset. -/
theorem test_priority :
    ([0x05000000, 0x12000001, 0x12000000].map fun w =>
      (nextState? (step (State.reset.withFetchWord 32 w))).map (·.idleReadWord .status)) =
        [some 0x106#32, some 0x206#32, some 0x406#32] := by decide

/-- V5.11: sequence errors in `RowOpen` and in `Idle`. -/
theorem test_seqViolation : (after (.openRow 4#9) open9).idleReadWord .status = 0x366#32 ∧
    (after (.strobeCol 1#9) idle8).idleReadWord .status = 0x326#32 := by decide

/-- V8.2, with `OPEN_ROW` and its first event failed: no event, the row strobe still high, the next
operation locked out. -/
theorem test_ioFault :
    let s := after (.openRow 3#9) { idle8 with ioFails := [0] }
    s.status = { idle8.status with
        done := true, fault := true, faultSeen := true, faultCode := some .ioFault } ∧
      s.trace = [] ∧ s.pin.rasN = true ∧
      (after (.readBit 0#9 0#9) s).status.errCode = some .faultLocked := by decide

/-- `70_reset_and_hazards.md` R305, R304: a profile that fits a chip, one that does not, and a clock
that does not divide the second. -/
theorem test_meetsTiming : meetsTiming ex125 ex125.ds = true ∧
    meetsTiming ex125 { ex125.ds with tCp := 61 } = false ∧
    meetsTiming (atClock 133000000) ex125.ds = false := by decide

/-- `20_memory.md` R71: where the profile does not fit the chip, the bit stored is the free one. -/
theorem test_misfit : (after (.pageWrite 0#9 true) { open9 with dev.timingMet := false }).dev.cells =
    [(3 * 512, (Config.freeWord 0).getLsbD 0)] := rfl

/-- `70_reset_and_hazards.md` R311, one row of each single-bit cycle: 150 ns and 100 ns at 125 MHz. -/
theorem test_intervals :
    ((ran ex125 (.readBit 1#9 1#9) idle8).map fun p =>
      (intervals (Event.lowers .casN) (Event.raises .casN) p.2,
        intervals (Event.lowers .rasN) (Event.raises .rasN) p.2)) = some ([14], [28]) ∧
    ((ran ex125 .init idle8).map fun p =>
      intervals (Event.lowers .rasN) (Event.raises .rasN) p.2) =
        some [19, 19, 19, 19, 19, 19, 19, 19] := by decide

/-- `44_moving_inversions.md` R225 to R228: an array of side 2, `patbit` 1 0 0 1; in sweep 2 visits 1
and 2 answer wrongly. -/
theorem test_sampledTest : sampledTest 0x3CA5960F#32 2 [true, true, true, true] =
    { failCnt := 2#32, lfRow := 1#9, lfCol := 0#9, lastSweep := 2#3 } := by decide

/-- V8.3: a write while an operation runs. -/
theorem test_overrun :
    (after .closeRow { open9 with overlap := [.write .cmd 0x20000000#32] }).idleReadWord .status =
      0x10022#32 := by decide

/-- `INIT` is the first operation a machine just reset runs. -/
theorem test_firstInit :
    (nextState? (step (State.reset.withFetchWord 32 0x20000000))).map
      (·.idleReadWord .status) = some 0x22#32 := by decide

/-! ### Witnesses: the hypotheses of every statement can be met

Named after the statement; a statement without hypotheses has none. Where a statement has several
clauses there is one part for each, in their order. -/

/-- No chip, idle. -/
def idle0 : State := idle noChip

/-- No chip, a row opened. -/
def open0 : State := open3 noChip

/-- One cell of an 8-line chip stuck. -/
def stuck8 (row col : Nat) (v : Bit) : State := idle (chip .eight [(row * 512 + col, v)])

theorem undisturbed_idle (d : DeviceParams) : Undisturbed (idle d) := ⟨rfl, rfl⟩

theorem undisturbed_open (d : DeviceParams) : Undisturbed (open3 d) := ⟨rfl, rfl⟩

theorem readyIdle_idle (d : DeviceParams) : ReadyIdle (idle d) :=
  ⟨⟨rfl, rfl, rfl⟩, rfl, rfl, rfl, rfl, rfl⟩

theorem readyOpen_open9 : ReadyOpen open9 := by decide

theorem readyOpen_open0 : ReadyOpen open0 := by decide

/-- The verdict on the chip's timing that its widths have, whatever the machine's parameters. -/
def judged (s : State) : State :=
  { s with dev.timingMet := meetsTiming Config.machine s.dev.least }

/-- A chip that needs a longer row strobe than the datasheet constants give. -/
def misfit (s : State) : State :=
  judged { s with dev.least := ⟨Config.machine.ds.tRas + 1, 0, 0, 0, 0⟩ }

theorem inv_judged {s : State} (h : CoreInv s) : Inv (judged s) := ⟨h, meetsTiming_iff _ _⟩

theorem inv_misfit {s : State} (h : CoreInv s) : Inv (misfit s) := ⟨h, meetsTiming_iff _ _⟩

theorem not_timingMet_misfit (s : State) : ¬ TimingMet Config.machine (misfit s).dev.least :=
  fun h => Nat.not_succ_le_self _ h.1.1

theorem coreInv_idle8 : CoreInv idle8 := by decide

theorem coreInv_open9 : CoreInv open9 := by decide

theorem inv_idle8 : Inv (judged idle8) := inv_judged coreInv_idle8

theorem inv_open9 : Inv (judged open9) := inv_judged coreInv_open9

/-- From a state of the invariant every operation answers a next state. -/
theorem next_of_inv {s : State} (h : Inv s) (i : Instr) : ∃ t, exec i s = .next t :=
  (exec_sound (G := fun _ => True) h trivial fun _ _ _ _ _ => trivial).imp fun _ h => h.1

theorem witness_DecodeOfEncode : (Instr.runTest 8#4).wellFormed = true ∧
    (Instr.runTest 9#4).wellFormed = true ∧ (Instr.readBit 511#9 511#9).wellFormed = true := by decide

theorem witness_EncodeOfDecode :
    decode 0x1807FFFF#32 = .instr (.writeBitEarly 511#9 511#9 true) ∧
      decode 0x18000000#32 = .instr (.writeBitEarly 0#9 0#9 false) := by decide

theorem witness_IllegalOpcodeIsRejected :
    let s := State.reset.aboutToWrite 0x31000000#32
    s.status.busy = false ∧ s.host = .write .cmd 0x31000000#32 :: [] ∧
      fieldOpc 0x31000000#32 ∉ [0x01#8, 0x02#8, 0x10#8, 0x11#8, 0x12#8, 0x13#8, 0x14#8, 0x18#8,
        0x19#8, 0x20#8, 0x21#8, 0x22#8, 0x30#8] := ⟨rfl, rfl, by decide⟩

theorem witness_ReservedBitsAreRejected :
    (let s := State.reset.aboutToWrite 0x01000008#32;
      s.status.busy = false ∧ s.host = .write .cmd 0x01000008#32 :: [] ∧
        fieldOpc 0x01000008#32 = Opcode.delay.code ∧
        0x01000008#32 &&& Opcode.delay.mask ≠ Opcode.delay.pattern) ∧
      (fieldOpc 0x30000007#32 = 0x30#8 ∧ fieldLines 0x30000007#32 ≠ 8#4 ∧
        fieldLines 0x30000007#32 ≠ 9#4) ∧
      (fieldOpc 0x3000000A#32 = 0x30#8 ∧ fieldLines 0x3000000A#32 ≠ 8#4 ∧
        fieldLines 0x3000000A#32 ≠ 9#4) := ⟨⟨rfl, rfl, by decide⟩, by decide⟩

theorem witness_StepRunsTheDecodedOperation :
    let s := idle8.aboutToWrite 0x20000000#32
    s.status.busy = false ∧ s.host = .write .cmd 0x20000000#32 :: [] ∧
      decode 0x20000000#32 = .instr .init := by decide

theorem witness_HostAccessesHaveNoSideEffect :
    State.reset.host = [] ∧
      (let s := { idle8 with host := [.write .status 1#32] };
        s.status.busy = false ∧ s.host = .write .status 1#32 :: [] ∧ HostReg.status ≠ .cmd) ∧
      (let s := { idle8 with host := [.read .pins] };
        s.status.busy = false ∧ s.host = .read .pins :: []) := by decide

theorem witness_WriteWhileBusyIsDropped :
    let s := { idle8 with status.busy := true, host := [.write .cmd 0x20000000#32] }
    s.status.busy = true ∧ s.host = .write .cmd 0x20000000#32 :: [] := by decide

/-- `INIT` and another operation, for each clause: one `CMD` write and nothing else, accesses of both
kinds, a host that only reads. -/
theorem witness_OverrunDoesNotDisturbTheOperation :
    ((Instr.init).wellFormed = true ∧ open9.overlap = []) ∧
      ((Instr.runTest 8#4).wellFormed = true ∧ idle8.status.fault = false ∧
        idle8.status.inited = true ∧ legalIn (Instr.runTest 8#4).opcode idle8.seq = true ∧
        idle8.overlap = []) ∧
      HostWaits { idle8 with overlap := [.read .status, .write .lda 0#32, .read .result] } ∧
      ¬ HostWaits { idle8 with overlap := [.read .status, .write .cmd 0x20000000#32] } := by decide

/-- Both ways to be accepted, and a register of each of the three kinds. -/
theorem witness_StatusWhileBusy :
    (Instr.init).wellFormed = true ∧
      ((Instr.closeRow).wellFormed = true ∧ open9.status.fault = false ∧
        open9.status.inited = true ∧ legalIn (Instr.closeRow).opcode open9.seq = true) ∧
      HostReg.pins ∈ [HostReg.result, .failCnt, .failLoc, .lda, .pins] := by decide

theorem witness_NsPerCycleIsRoundedUp : 1000000000 ≤ ((atClock 1000000000).clockHz : Nat) ∧
    1000000000 ≤ ((atClock 3000000000).clockHz : Nat) := by decide

theorem witness_CyclesIsTheRoundedUpQuotient :
    0 < 1 ∧ (0 < 8 ∧ 1 ≤ 1 ∧ 1 ≤ 8 ∧ 8 ≤ 8) ∧ 142 ≤ 150 := by decide

theorem witness_DelayContractUnderClockDivides :
    ClockDivides ex125 ∧ (atClock 133000000).clockHz = 133000000 := by decide

theorem witness_DelayWaitsTheSelectedCount :
    (Undisturbed idle8 ∧ Accepting idle8 .idle) ∧ (Undisturbed open9 ∧ Accepting open9 .rowOpen) := by
  decide

theorem witness_AddrSetDrivesTheAddress :
    (Undisturbed idle8 ∧ Accepting idle8 .idle ∧ AddrInvariant idle8) ∧
      (Undisturbed open9 ∧ Accepting open9 .rowOpen ∧ AddrInvariant open9) := by decide

theorem witness_RepeatedAddrSetTogglesNothing : Undisturbed idle0 ∧ Accepting idle0 .idle := by decide

/-- With a chip and without. -/
theorem witness_OpenRowOpensTheRow :
    (Undisturbed idle8 ∧ ReadyIdle idle8) ∧ (Undisturbed idle0 ∧ ReadyIdle idle0) := by decide

theorem witness_StrobeColChangesNoCell :
    (Undisturbed open9 ∧ ReadyOpen open9) ∧ (Undisturbed open0 ∧ ReadyOpen open0) := by decide

theorem witness_CloseRowReleasesTheRow : Undisturbed open9 ∧ ReadyOpen open9 := by decide

theorem witness_PageWriteWritesTheCell :
    (Undisturbed open9 ∧ ReadyOpen open9) ∧ Inv (misfit open9) ∧ (misfit open9).dev.present = true ∧
      ¬ TimingMet Config.machine (misfit open9).dev.least :=
  ⟨by decide, inv_misfit (by decide), rfl, not_timingMet_misfit _⟩

theorem witness_PageReadSamplesTheCell :
    ((Undisturbed open9 ∧ ReadyOpen open9) ∧ (Undisturbed open0 ∧ ReadyOpen open0)) ∧
      Inv (misfit open9) ∧ (misfit open9).dev.present = true ∧
      ¬ TimingMet Config.machine (misfit open9).dev.least :=
  ⟨by decide, inv_misfit (by decide), rfl, not_timingMet_misfit _⟩

theorem witness_WriteBitEarlyWritesTheCell :
    (Undisturbed idle9 ∧ ReadyIdle idle9) ∧ Inv (misfit idle9) ∧ (misfit idle9).dev.present = true ∧
      ¬ TimingMet Config.machine (misfit idle9).dev.least :=
  ⟨by decide, inv_misfit (by decide), rfl, not_timingMet_misfit _⟩

theorem witness_ReadBitSamplesTheCell :
    ((Undisturbed idle9 ∧ ReadyIdle idle9) ∧ (Undisturbed idle0 ∧ ReadyIdle idle0)) ∧
      Inv (misfit idle9) ∧ (misfit idle9).dev.present = true ∧
      ¬ TimingMet Config.machine (misfit idle9).dev.least :=
  ⟨by decide, inv_misfit (by decide), rfl, not_timingMet_misfit _⟩

theorem witness_WrittenBitReadsBack :
    (Undisturbed idle9 ∧ ReadyIdle idle9 ∧ Answers idle9 ∧
      NotStuck idle9.dev (targetKey idle9 511#9 511#9)) ∧
      (Undisturbed open9 ∧ ReadyOpen open9 ∧ Answers open9 ∧ NotStuck open9.dev (pageKey open9 0#9)) ∧
      AddrInvariant open9 := by decide

theorem witness_CycleTotals :
    (Undisturbed open9 ∧ ReadyOpen open9) ∧ (Undisturbed idle9 ∧ ReadyIdle idle9) := by decide

/-- Right after reset, in a row left open, and after a fault. -/
theorem witness_InitAlwaysCompletes : Undisturbed State.reset ∧ Undisturbed open9 ∧
    Undisturbed { open9 with status.fault := true } := by decide

/-- Undisturbed, and disturbed by a failed event and a polling host. -/
theorem witness_InitLeavesTheRest :
    (Inv (judged open9) ∧ HostWaits (judged open9) ∧
      ∃ t, exec .init (judged open9) = .next t ∧ t.status.fault = false) ∧
    (let s := judged { open9 with ioFails := [0], overlap := [.read .status] };
      Inv s ∧ HostWaits s ∧ ∃ t, exec .init s = .next t ∧ t.status.fault = true) :=
  ⟨⟨inv_open9, by decide, _, rfl, rfl⟩, inv_judged (by decide), by decide, _, rfl, rfl⟩

theorem witness_IsPresentRunsTheProbe :
    (Undisturbed idle8 ∧ ReadyIdle idle8 ∧ Answers idle8) ∧
      (Undisturbed idle0 ∧ ReadyIdle idle0 ∧ idle0.dev.present = false) := by decide

/-- The last two clauses are the two values of one free bit: one of them holds of it. -/
theorem witness_PresenceByEnvironment :
    (Undisturbed idle8 ∧ ReadyIdle idle8 ∧ Answers idle8 ∧
      NotStuck idle8.dev (targetKey idle8 0#9 0#9)) ∧
      (ReadyIdle (stuck8 0 0 false) ∧ Answers (stuck8 0 0 false) ∧
        Cells.lookup (stuck8 0 0 false).dev.stuck (targetKey (stuck8 0 0 false) 0#9 0#9) =
          some false) ∧
      (ReadyIdle (stuck8 0 0 true) ∧ Answers (stuck8 0 0 true) ∧
        Cells.lookup (stuck8 0 0 true).dev.stuck (targetKey (stuck8 0 0 true) 0#9 0#9) = some true) ∧
      (Undisturbed idle0 ∧ ReadyIdle idle0 ∧ idle0.dev.present = false) ∧
      ((Config.freeWord idle0.freeNo).getLsbD 0 = true ∨
        (Config.freeWord idle0.freeNo).getLsbD 0 = false) := by
  refine ⟨by decide, by decide, by decide, by decide, ?_⟩
  cases (Config.freeWord idle0.freeNo).getLsbD 0
  · exact .inr rfl
  · exact .inl rfl

theorem witness_ChipKindRunsTheProbe :
    (Undisturbed idle9 ∧ ReadyIdle idle9 ∧ Answers idle9 ∧
      targetKey idle9 264#9 264#9 ≠ targetKey idle9 8#9 8#9) ∧
      (Undisturbed idle0 ∧ ReadyIdle idle0 ∧ idle0.dev.present = false) := by decide

theorem witness_ChipKindTellsTheChip :
    (Undisturbed idle8 ∧ ReadyIdle idle8 ∧ Answers idle8 ∧
      NotStuck idle8.dev (targetKey idle8 8#9 8#9) ∧ idle8.dev.lines = .eight) ∧
      (Answers idle9 ∧ NotStuck idle9.dev (targetKey idle9 8#9 8#9) ∧ idle9.dev.lines = .nine) ∧
      (ReadyIdle (stuck8 8 8 true) ∧ Answers (stuck8 8 8 true) ∧
        Cells.lookup (stuck8 8 8 true).dev.stuck (targetKey (stuck8 8 8 true) 8#9 8#9) = some true) ∧
      (ReadyIdle (stuck8 8 8 false) ∧ Answers (stuck8 8 8 false) ∧
        Cells.lookup (stuck8 8 8 false).dev.stuck (targetKey (stuck8 8 8 false) 8#9 8#9) =
          some false) := by decide

theorem witness_DetectionSideEffects :
    (Undisturbed idle8 ∧ ReadyIdle idle8 ∧ Answers idle8 ∧ AddrInvariant idle8 ∧
      NotStuck idle8.dev (cellKey 0#9 0#9) ∧ idle8.dev.lines = .eight) ∧
      (Undisturbed idle9 ∧ ReadyIdle idle9 ∧ Answers idle9 ∧ AddrInvariant idle9 ∧
        NotStuck idle9.dev (cellKey 0#9 0#9) ∧ idle9.dev.lines = .nine) := by decide

theorem witness_PatternClosedForm : 32 ∣ 256 ∧ 255 < 256 ∧ 32 ∣ 512 ∧ 511 < 512 := by decide

theorem witness_RunTestCompletes :
    (legalLines 8#4 = true ∧ Undisturbed idle8 ∧ ReadyIdle idle8) ∧
      (legalLines 9#4 = true ∧ Undisturbed idle0 ∧ ReadyIdle idle0) := by decide

theorem witness_RunTestRefinesTheCellTest :
    (legalLines 8#4 = true ∧ Undisturbed idle8 ∧ ReadyIdle idle8 ∧ Answers idle8) ∧
      (legalLines 9#4 = true ∧ Undisturbed idle9 ∧ ReadyIdle idle9 ∧ Answers idle9) := by decide

/-- `RUN_TEST 8` on both chips and `RUN_TEST 9` on the 9-line one. -/
theorem witness_RunTestPassesOnAHealthyDevice :
    (legalLines 8#4 = true ∧ Undisturbed idle8 ∧ ReadyIdle idle8 ∧ Answers idle8 ∧
      AddrInvariant idle8 ∧ (8#4).toNat ≤ lineCount idle8.dev.lines ∧
      ∀ r < sideOf 8#4, ∀ c < sideOf 8#4, NotStuck idle8.dev (r * 512 + c)) ∧
      (legalLines 9#4 = true ∧ Undisturbed idle9 ∧ ReadyIdle idle9 ∧ Answers idle9 ∧
        AddrInvariant idle9 ∧ (8#4).toNat ≤ lineCount idle9.dev.lines ∧
        (9#4).toNat ≤ lineCount idle9.dev.lines ∧
        ∀ r < sideOf 9#4, ∀ c < sideOf 9#4, NotStuck idle9.dev (r * 512 + c)) :=
  ⟨⟨by decide, by decide, by decide, by decide, by decide, by decide, fun _ _ _ _ => rfl⟩,
    by decide, by decide, by decide, by decide, by decide, by decide, by decide, fun _ _ _ _ => rfl⟩

/-- The last cell of the array stuck, at either value. -/
theorem witness_RunTestFindsOneStuckCell (v : Bit) :
    legalLines 8#4 = true ∧ Undisturbed (stuck8 255 255 v) ∧ ReadyIdle (stuck8 255 255 v) ∧
      Answers (stuck8 255 255 v) ∧ AddrInvariant (stuck8 255 255 v) ∧
      LineCountMatches (stuck8 255 255 v) 8#4 ∧ 255 < sideOf 8#4 ∧
      Cells.lookup (stuck8 255 255 v).dev.stuck (255 * 512 + 255) = some v ∧
      ∀ r < sideOf 8#4, ∀ c < sideOf 8#4, (r, c) ≠ (255, 255) →
        NotStuck (stuck8 255 255 v).dev (r * 512 + c) := by
  refine ⟨by decide, ⟨rfl, rfl⟩, readyIdle_idle _, ⟨rfl, rfl⟩, rfl, rfl, by decide, rfl, ?_⟩
  intro r _ c hc h
  have h256 : c < 256 := hc
  have : ¬ 255 * 512 + 255 = r * 512 + c := fun e => h (by ext <;> simp only <;> omega)
  simp [NotStuck, stuck8, idle, State.resetWith, Device.powerUp, chip, Cells.lookup, this]

theorem witness_RunTestWithTooManyLines :
    Undisturbed idle8 ∧ ReadyIdle idle8 ∧ Answers idle8 ∧ idle8.dev.lines = .eight ∧
      ∀ key, NotStuck idle8.dev key :=
  ⟨by decide, by decide, by decide, rfl, fun _ => rfl⟩

theorem witness_RunTestEventTotals :
    (legalLines 8#4 = true ∧ Undisturbed idle8 ∧ ReadyIdle idle8) ∧
      (legalLines 9#4 = true ∧ Undisturbed idle0 ∧ ReadyIdle idle0) := by decide

/-- Each check of each kind of operation. -/
theorem witness_StateChecksInOrder :
    ((Instr.closeRow).wellFormed = true ∧ Instr.closeRow ≠ .init) ∧
      ({ idle8 with status.fault := true }.status.fault = true) ∧
      (State.reset.status.fault = false ∧ State.reset.status.inited = false) ∧
      (idle8.status.fault = false ∧ idle8.status.inited = true ∧ idle8.seq = .idle ∧
        (Instr.closeRow).opcode ∈ [Opcode.strobeCol, .pageWrite, .pageRead, .closeRow]) ∧
      (open9.status.fault = false ∧ open9.status.inited = true ∧ open9.seq = .rowOpen ∧
        (Instr.runTest 9#4).opcode ∈
          [Opcode.openRow, .writeBitEarly, .readBit, .isPresent, .chipKind, .runTest]) ∧
      (Instr.runTest 7#4).wellFormed = false ∧ (Instr.runTest 10#4).wellFormed = false := by decide

theorem witness_CommandErrorsChangeOnlyStatus :
    let s := State.reset.aboutToWrite 0x12000000#32
    s.status.busy = false ∧ s.host = .write .cmd 0x12000000#32 :: [] ∧
      ∃ t, step s = .next t ∧ t.status.cmdErr = true := ⟨rfl, rfl, _, rfl, rfl⟩

theorem witness_FailedEventsOfOpenRow :
    (HostSilent { idle8 with ioFails := [0] } ∧ ReadyIdle { idle8 with ioFails := [0] }) ∧
      (HostSilent { idle8 with ioFails := [1] } ∧ ReadyIdle { idle8 with ioFails := [1] }) := by decide

theorem witness_FaultEntry :
    (idle8.status.fault = false ∧ HostWaits { idle8 with ioFails := [0] } ∧
      ∃ t, exec (.openRow 3#9) { idle8 with ioFails := [0] } = .next t ∧ t.status.fault = true) ∧
      (HostWaits { open9 with ioFails := [0] } ∧
        ∃ t, exec .init { open9 with ioFails := [0] } = .next t ∧ t.status.fault = true) :=
  ⟨⟨rfl, by decide, _, rfl, rfl⟩, by decide, _, rfl, rfl⟩

/-- The failing answer comes, and comes too late. -/
theorem witness_FailedOperationEmitsAPrefix :
    Undisturbed idle8 ∧
      ∃ t u v, exec (.openRow 3#9) idle8 = .next t ∧
        exec (.openRow 3#9) { idle8 with ioFails := 0 :: [] } = .next u ∧ u.status.fault = true ∧
        exec (.openRow 3#9) { idle8 with ioFails := 2 :: [] } = .next v ∧
        v.status.fault = t.status.fault :=
  ⟨by decide, _, _, _, rfl, rfl, rfl, rfl, rfl⟩

theorem witness_FaultRecordIsKept :
    let s := { open9 with
      status.fault := true
      status.faultSeen := true
      status.faultCode := some .ioFault
      status.overrun := true
      host := [.write .cmd 0x20000000#32] }
    ∃ t, step s = .next t ∧ s.status.faultSeen = true ∧ s.status.faultCode.isSome = true ∧
      s.status.overrun = true ∧ s.status.inited = true ∧ s.status.fault = true ∧
      t.status.fault = false := ⟨_, rfl, rfl, rfl, rfl, rfl, rfl, rfl⟩

/-- Between operations, in both protocol states; the step is not idle. -/
theorem witness_StepKeepsTheInvariant : Inv (judged (idle8.aboutToWrite 0x10000600#32)) ∧
    ∃ t, step (judged (idle8.aboutToWrite 0x10000600#32)) = .next t ∧ t.seq = .rowOpen :=
  ⟨inv_judged (by decide), _, rfl, rfl⟩

theorem witness_InvariantStatesAlwaysStep :
    Inv (judged idle8) ∧ Inv (judged open9) ∧ Inv (judged (idle0.aboutToWrite 0#32)) :=
  ⟨inv_idle8, inv_open9, inv_judged (by decide)⟩

theorem witness_AddressErrorIsKept :
    (let s := idle8.aboutToWrite 0x02000155#32;
      NoIoFault s ∧ AddrInvariant s ∧ ∃ t, step s = .next t ∧ t.x.lda = 0x155#32) ∧
      (let s := { idle8.aboutToWrite 0x02000155#32 with pin.a := 1#9 };
        NoIoFault s ∧ ¬ AddrInvariant s ∧ ∃ t, step s = .next t ∧ t.pin.a = 0x154#9) :=
  ⟨⟨rfl, rfl, _, rfl, rfl⟩, rfl, by decide, _, rfl, rfl⟩

theorem witness_DeviceParametersNeverChange :
    ∃ t, step (idle8.aboutToWrite 0x18040000#32) = .next t ∧ t.dev.cells ≠ [] :=
  ⟨_, rfl, by decide⟩

theorem witness_OnlyConfiguredWaits :
    ∃ t, step (idle8.aboutToWrite 0x01000003#32) = .next t ∧
      t.events = [.wait (cRp Config.machine)] := ⟨_, rfl, rfl⟩

theorem witness_TestRegistersBelongToRunTest :
    (∀ lines, Instr.closeRow ≠ .runTest lines) ∧ ∃ t, exec .closeRow open9 = .next t :=
  ⟨fun _ => by simp, _, rfl⟩

theorem witness_NonStoringOperationsKeepEveryCell :
    Inv (judged open9) ∧ (Instr.pageRead 0#9).opcode ∈ [Opcode.delay, .addrSet, .openRow, .strobeCol,
      .closeRow, .pageRead, .readBit, .init] ∧ ∃ t, exec (.pageRead 0#9) (judged open9) = .next t :=
  ⟨inv_open9, by decide, next_of_inv inv_open9 _⟩

theorem witness_StoresReachOnlyTheirCells :
    (Inv (judged open9) ∧ (∃ t, exec (.pageWrite 511#9 true) (judged open9) = .next t) ∧
        0 ≠ pageKey (judged open9) 511#9) ∧
      (Inv (judged idle8) ∧ (∃ t, exec (.writeBitEarly 0#9 0#9 true) (judged idle8) = .next t) ∧
        (∃ t, exec .isPresent (judged idle8) = .next t) ∧ 1 ≠ targetKey (judged idle8) 0#9 0#9) ∧
      ((∃ t, exec .chipKind (judged idle8) = .next t) ∧ 1 ≠ targetKey (judged idle8) 8#9 8#9 ∧
        1 ≠ targetKey (judged idle8) 264#9 264#9) ∧
      ((∃ t, exec (.runTest 8#4) (judged idle8) = .next t) ∧ ∀ r < sideOf 8#4, ∀ c < sideOf 8#4,
        256 ≠ targetKey (judged idle8) (BitVec.ofNat 9 r) (BitVec.ofNat 9 c)) := by
  refine ⟨⟨inv_open9, next_of_inv inv_open9 _, by decide⟩,
    ⟨inv_idle8, next_of_inv inv_idle8 _, next_of_inv inv_idle8 _, by decide⟩,
    ⟨next_of_inv inv_idle8 _, by decide, by decide⟩, next_of_inv inv_idle8 _, ?_⟩
  intro r _ c _ h
  have hk := seenLines_lt .eight (presented (judged idle8) (BitVec.ofNat 9 c))
  rw [targetKey, reachedKey, cellKey] at h
  have : (seenLines .eight (presented (judged idle8) (BitVec.ofNat 9 c))).toNat < 256 := hk
  have hd : (judged idle8).dev.lines = .eight := rfl
  rw [hd] at h
  omega

/-- Both halves of the premise; in each protocol state, with a chip and without. -/
theorem witness_PulsesCoverTheDatasheet :
    (TimingMet ex125 ex125.ds ∧ TimingMet (atClock 10000000) ⟨0, 75, 0, 100, 0⟩) ∧
      (ClockDivides ex125 ∧ ¬ ClockDivides (atClock 133000000)) ∧
      Undisturbed State.reset ∧
      ((Undisturbed idle8 ∧ ReadyIdle idle8) ∧ (Undisturbed idle0 ∧ ReadyIdle idle0)) ∧
      ((Undisturbed open9 ∧ ReadyOpen open9) ∧ (Undisturbed open0 ∧ ReadyOpen open0)) := by decide

end Sys2Proof.Tests
end

section
/-!
PROOFS. The device's parameters: one relation, "the device has the same parameters", respected by
every part of a step.
-/

namespace Sys2Proof.Machine

open Sys2Proof.Config (Params DeviceParams)

/-- The parameters of a device: what was fitted, and the verdict on its timing (logs 8 and 9). -/
def Device.parameters (d : Device) : DeviceParams × Bool :=
  (⟨d.present, d.lines, d.stuck, d.least⟩, d.timingMet)

/-- Equal parameters, field by field. -/
theorem Device.parameters_eq_iff {d e : Device} : d.parameters = e.parameters ↔
    d.present = e.present ∧ d.lines = e.lines ∧ d.stuck = e.stuck ∧ d.least = e.least ∧
      d.timingMet = e.timingMet := by
  simp [Device.parameters, and_assoc]

@[simp] theorem Device.parameters_react (d : Device) (p : Pins) (free : Bit) (sig : Signal) (v : Bit) :
    (d.react p free sig v).parameters = d.parameters := by
  obtain ⟨hpresent, hlines, hstuck, hleast, hmet, -⟩ := react_params d p free sig v
  exact Device.parameters_eq_iff.mpr ⟨hpresent, hlines, hstuck, hleast, hmet⟩

/-- A failed pin event reaches the device by a reaction, or leaves it upset. -/
@[simp] theorem State.parameters_pinFailed (s : State) (sig : Signal) :
    (s.pinFailed sig).dev.parameters = s.dev.parameters := by
  unfold State.pinFailed
  split
  · rfl
  · exact Device.parameters_react _ _ _ _ _

/-- Two states whose devices have the same parameters. -/
def SameParameters (s t : State) : Prop := t.dev.parameters = s.dev.parameters

theorem SameParameters.refl (s : State) : SameParameters s s := rfl

theorem SameParameters.trans (s t u : State) (h : SameParameters s t) (h' : SameParameters t u) :
    SameParameters s u := Eq.trans h' h

/-- An update of the state that leaves the device alone keeps its parameters. -/
theorem SameParameters.of_dev_eq {s t : State} (h : t.dev = s.dev) : SameParameters s t :=
  congrArg Device.parameters h

/-- Only the two pin events touch the device. -/
theorem tame_sameParameters (K : Params) : Tame K SameParameters where
  refl := SameParameters.refl
  trans := SameParameters.trans
  pinAt s sig v := Device.parameters_react s.dev s.pin s.freeBit sig v
  pinFailed := State.parameters_pinFailed
  withIoFails _ _ := .of_dev_eq rfl
  toggled _ _ := .of_dev_eq rfl
  toggleFailed _ := .of_dev_eq rfl
  waited _ _ _ := .of_dev_eq rfl
  tookDout _ := .of_dev_eq rfl
  withSeq _ _ := .of_dev_eq rfl
  withLda _ _ := .of_dev_eq rfl

theorem tameTest_sameParameters : TameTest SameParameters where
  withNlines _ _ := .of_dev_eq rfl
  withSweep _ _ := .of_dev_eq rfl
  withRow _ _ := .of_dev_eq rfl
  withCol _ _ := .of_dev_eq rfl
  withPat _ _ := .of_dev_eq rfl
  failuresCleared _ := .of_dev_eq rfl
  failureRecorded _ := .of_dev_eq rfl

/-- The host's accesses at the start of an operation leave the device alone. -/
@[simp] theorem State.started_dev (s : State) : s.started.dev = s.dev := by
  obtain ⟨rd, h⟩ := started_eq s
  rw [h]

@[simp] theorem State.hostRead_dev (s : State) (r : HostReg) : (s.hostRead r).dev = s.dev := by
  obtain ⟨rd, n, h⟩ := hostRead_frame s r
  rw [h]

/-- No operation changes a parameter of the device, whatever the environment answers. -/
theorem exec_sameParameters {i : Instr} {s t : State} (h : exec i s = .next t) :
    SameParameters s t :=
  exec_related (error := fun _ => .of_dev_eq rfl) (trans := SameParameters.trans)
    (start := .of_dev_eq s.started_dev)
    (body := stays_bodyOf (tame_sameParameters _) tameTest_sameParameters
      (fun _ => .of_dev_eq rfl) i)
    (finish := fun _ _ => .of_dev_eq rfl) (fault := fun _ => .of_dev_eq rfl) h

/-- No step changes a parameter of the device. -/
theorem step_sameParameters {s t : State} (h : step s = .next t) : SameParameters s t :=
  step_related (refl := SameParameters.refl) (trans := SameParameters.trans)
    (host := fun _ _ => .of_dev_eq rfl) (read := fun s r => .of_dev_eq (s.hostRead_dev r))
    (overrun := fun _ => .of_dev_eq rfl) (clear := fun _ => .of_dev_eq rfl)
    (error := fun _ _ => .of_dev_eq rfl) (operation := fun _ _ _ => exec_sameParameters) h

/-- Settles O55: every part of a step respects "same parameters of the device". -/
theorem deviceParametersNeverChange : Obligations.DeviceParametersNeverChange := by
  intro s t h
  exact Device.parameters_eq_iff.mp (step_sameParameters h)

end Sys2Proof.Machine
end

section
/-!
PROOFS. The machine's invariant: it holds at reset, and every part of a step keeps it.
-/

namespace Sys2Proof.Machine

open Sys2Proof.Safety

/-- From a state of the invariant to a state of the invariant. -/
def KeepsInv (s t : State) : Prop := Inv s → Inv t

/-- The invariant does not speak of the word read and of the supply of free values. -/
theorem keepsInv_hostRead (s : State) (r : HostReg) : KeepsInv s (s.hostRead r) := by
  obtain ⟨rd, n, h⟩ := hostRead_frame s r
  rw [h]
  exact id

/-- What a `CMD` write clears goes together: `CMD_ERR` and its code (`30_encoding.md` R117). -/
theorem keepsInv_clearedForCommand (s : State) : KeepsInv s s.clearedForCommand := by
  rintro ⟨⟨hrest, hdev, ⟨-, hrecords⟩, haddr, hprotocol⟩, htiming⟩
  exact ⟨⟨hrest, hdev, ⟨rfl, hrecords⟩, haddr, hprotocol⟩, htiming⟩

theorem keepsInv_cmdErr (s : State) (e : CmdErr) : KeepsInv s (s.cmdErr e) :=
  fun ⟨hcore, htiming⟩ => ⟨coreInv_cmdErr e hcore, htiming⟩

/-- Every operation keeps the invariant, whatever the environment answers. -/
theorem keepsInv_exec {i : Instr} {s t : State} (h : exec i s = .next t) : KeepsInv s t := by
  intro hs
  obtain ⟨u, hu, hinv, -⟩ :=
    exec_sound (i := i) (G := fun _ => True) hs trivial fun _ _ _ _ _ => trivial
  obtain rfl : u = t := by simpa [hu] using h
  exact hinv

/-- Settles O52: every part of a step keeps the invariant, an operation by `exec_sound`. -/
theorem stepKeepsTheInvariant : Obligations.StepKeepsTheInvariant := by
  intro s t hs h
  exact step_related (R := KeepsInv) (refl := fun _ => id)
    (trans := fun _ _ _ hab hbc ha => hbc (hab ha)) (host := fun _ _ => id)
    (read := keepsInv_hostRead) (overrun := fun _ => id) (clear := keepsInv_clearedForCommand)
    (error := keepsInv_cmdErr) (operation := fun _ _ _ => keepsInv_exec) h hs

/-- A device just powered up is sound: no cell is listed, nothing is latched or driven. -/
theorem deviceInv_powerUp (p : Config.DeviceParams) : DeviceInv (Device.powerUp p) := by
  simp [DeviceInv, Device.powerUp, Cells.wf]

/-- The verdict reset computes is that of the widths (log 9). -/
theorem timingInv_powerUp (p : Config.DeviceParams) : TimingInv (Device.powerUp p) :=
  meetsTiming_iff Config.machine p.least

/-- Settles O51: no error is recorded, the address is 0 on the lines and in `x[LDA]`, and before the
first `INIT` the protocol is idle. -/
theorem invariantAtReset : Obligations.InvariantAtReset := by
  have hrest : AtRest State.reset := ⟨rfl, rfl⟩
  have hrecords : RecordInv State.reset := ⟨rfl, rfl, nofun, nofun⟩
  have haddr : AddrInv State.reset := fun _ => rfl
  have hprotocol : ProtocolInv State.reset := fun _ => ⟨fun _ => ⟨rfl, rfl, rfl⟩, nofun⟩
  exact ⟨⟨hrest, deviceInv_powerUp _, hrecords, haddr, hprotocol⟩, timingInv_powerUp _⟩

/-- Settles O50: reset gives these values outright; an unlisted cell reads as at power-up. -/
theorem resetValues : Obligations.ResetValues :=
  ⟨rfl, rfl, rfl, rfl, rfl, rfl, rfl, rfl, rfl, rfl, rfl, fun _ => rfl⟩

end Sys2Proof.Machine
end

section
/-!
PROOFS. The host's window: what an access changes, and the layouts of the words it reads.
-/

namespace Sys2Proof.Machine

open Sys2Proof.Safety

/-! ### Accesses while no operation runs -/

/-- With no access to come the engine waits (`10_state.md` R32). -/
theorem step_of_host_nil {s : State} (h : s.host = []) : step s = .next s := by
  simp [step, State.nextAccess, h]

/-- A write to a read-only register is ignored (`10_state.md` R44). -/
theorem step_of_write_readOnly {s : State} {later : List HostAccess} {r : HostReg} {w : Word}
    (hbusy : s.status.busy = false) (h : s.host = .write r w :: later) (hr : r ≠ .cmd) :
    step s = .next { s with host := later } := by
  cases r
  case cmd => exact absurd rfl hr
  all_goals simp [step, State.nextAccess, State.idleAccess, h, hbusy]

/-- A read is dealt with in its step (`10_state.md` R44). -/
theorem step_of_read {s : State} {later : List HostAccess} {r : HostReg}
    (hbusy : s.status.busy = false) (h : s.host = .read r :: later) :
    step s = .next ({ s with host := later }.hostRead r) := by
  simp [step, State.nextAccess, State.idleAccess, h, hbusy]

/-- A read while no operation runs returns the register's word, and takes at most free values. -/
theorem hostRead_of_not_busy {s : State} (r : HostReg) (h : s.status.busy = false) :
    ∃ n, s.hostRead r = { s with readData := s.idleReadWord r, freeNo := n } := by
  by_cases hr : r = .pins
  · exact ⟨s.tookDout.freeNo, by simp [State.hostRead, h, hr, State.tookDout]⟩
  · exact ⟨s.freeNo, by simp [State.hostRead, h, hr]⟩

/-- Settles O7, one kind of access at a time. -/
theorem hostAccessesHaveNoSideEffect : Obligations.HostAccessesHaveNoSideEffect := by
  refine ⟨fun s => step_of_host_nil, fun s later r hbusy => ⟨fun w => ?_, fun h => ?_⟩⟩
  · exact step_of_write_readOnly hbusy
  · obtain ⟨n, hn⟩ := hostRead_of_not_busy (s := { s with host := later }) r hbusy
    exact ⟨n, by rw [step_of_read hbusy h, hn]; rfl⟩

/-! ### Layouts

A field of a word is reached by dropping what stands below it, piece by piece. -/

theorem Status.word_bits (t : Status) (q : BitVec 2) :
    (t.word q).getLsbD 0 = t.busy ∧ (t.word q).getLsbD 1 = t.done ∧
      (t.word q).getLsbD 2 = t.cmdErr ∧ (t.word q).getLsbD 3 = t.fault ∧
      (t.word q).getLsbD 4 = t.faultSeen ∧ (t.word q).getLsbD 5 = t.inited ∧
      (t.word q).getLsbD 16 = t.overrun := by
  unfold Status.word
  repeat rw [BitVec.getLsbD_append]
  simp

theorem Status.word_fields (t : Status) (q : BitVec 2) :
    (t.word q).extractLsb' 6 2 = q ∧
      (t.word q).extractLsb' 8 4 = t.errCode.elim 0#4 CmdErr.code ∧
      (t.word q).extractLsb' 12 4 = t.faultCode.elim 0#4 FaultCode.code ∧
      (t.word q).extractLsb' 17 15 = 0#15 := by
  unfold Status.word
  refine ⟨?_, ?_, ?_, ?top⟩ <;> repeat rw [BitVec.extractLsb'_append_eq_of_le (by decide)]
  case top => exact BitVec.extractLsb'_eq_self
  all_goals exact BitVec.extractLsb'_append_eq_right

theorem Result.word_bits (r : Result) :
    r.word.getLsbD 0 = r.value ∧ r.word.getLsbD 3 = false := by
  unfold Result.word
  repeat rw [BitVec.getLsbD_append]
  simp

theorem Result.word_fields (r : Result) :
    r.word.extractLsb' 1 2 = r.kind.code ∧ r.word.extractLsb' 4 2 = r.outcome.code ∧
      r.word.extractLsb' 6 2 = 0#2 ∧ r.word.extractLsb' 8 3 = r.lastSweep ∧
      r.word.extractLsb' 11 21 = 0#21 := by
  unfold Result.word
  refine ⟨?_, ?_, ?_, ?_, ?top⟩ <;> repeat rw [BitVec.extractLsb'_append_eq_of_le (by decide)]
  case top => exact BitVec.extractLsb'_eq_self
  all_goals exact BitVec.extractLsb'_append_eq_right

theorem Regs.failLocWord_fields (x : Regs) :
    x.failLocWord.extractLsb' 0 9 = x.lfCol ∧ x.failLocWord.extractLsb' 9 7 = 0#7 ∧
      x.failLocWord.extractLsb' 16 9 = x.lfRow ∧ x.failLocWord.extractLsb' 25 7 = 0#7 := by
  unfold Regs.failLocWord
  refine ⟨?_, ?_, ?_, ?top⟩ <;> repeat rw [BitVec.extractLsb'_append_eq_of_le (by decide)]
  case top => exact BitVec.extractLsb'_eq_self
  all_goals exact BitVec.extractLsb'_append_eq_right

theorem Pins.word_bits (p : Pins) (dout : Bit) :
    (p.word dout).getLsbD 0 = p.rasN ∧ (p.word dout).getLsbD 1 = p.casN ∧
      (p.word dout).getLsbD 2 = p.weN ∧ (p.word dout).getLsbD 3 = p.din ∧
      (p.word dout).getLsbD 4 = dout := by
  unfold Pins.word
  repeat rw [BitVec.getLsbD_append]
  simp

theorem Pins.word_fields (p : Pins) (dout : Bit) :
    (p.word dout).extractLsb' 5 11 = 0#11 ∧ (p.word dout).extractLsb' 16 9 = p.a ∧
      (p.word dout).extractLsb' 25 7 = 0#7 := by
  unfold Pins.word
  refine ⟨?_, ?_, ?top⟩ <;> repeat rw [BitVec.extractLsb'_append_eq_of_le (by decide)]
  case top => exact BitVec.extractLsb'_eq_self
  all_goals exact BitVec.extractLsb'_append_eq_right

/-- Settles O8: the codes by their table, the word by its layout. -/
theorem statusWordLayout : Obligations.StatusWordLayout := by
  refine ⟨⟨rfl, rfl, rfl, rfl⟩, ⟨rfl, rfl, rfl, rfl, rfl⟩, rfl, fun s => ?_⟩
  obtain ⟨hbusy, hdone, hcmdErr, hfault, hfaultSeen, hinited, hoverrun⟩ :=
    s.status.word_bits s.seq.code
  obtain ⟨hseq, herrCode, hfaultCode, hreserved⟩ := s.status.word_fields s.seq.code
  exact ⟨hbusy, hdone, hcmdErr, hfault, hfaultSeen, hinited, hseq, herrCode, hfaultCode, hoverrun,
    hreserved⟩

/-- Settles O9: the codes by their table, the words by their layouts, the mirrors as they stand. -/
theorem resultAndMirrorLayouts : Obligations.ResultAndMirrorLayouts := by
  refine ⟨⟨rfl, rfl, rfl⟩, ⟨rfl, rfl, rfl⟩, fun s => ⟨rfl, rfl, rfl, ?_⟩⟩
  obtain ⟨hvalue, hgap⟩ := s.result.word_bits
  obtain ⟨hkind, houtcome, hgap', hsweep, hreserved⟩ := s.result.word_fields
  obtain ⟨hcol, hcolGap, hrow, hrowGap⟩ := s.x.failLocWord_fields
  obtain ⟨hras, hcas, hwe, hdin, hdout⟩ := s.pin.word_bits s.doutLevel
  obtain ⟨hpinGap, haddr, hpinReserved⟩ := s.pin.word_fields s.doutLevel
  exact ⟨hvalue, hkind, hgap, houtcome, hgap', hsweep, hreserved, hcol, hcolGap, hrow, hrowGap,
    hras, hcas, hwe, hdin, hdout, hpinGap, haddr, hpinReserved⟩

/-! ### Reads while an operation runs -/

/-- What is blind to the host's accesses does not change `OVERRUN`: it carries the value it finds. -/
theorem Blind.overrun_reached {α : Type} {m : Micro α} (h : Blind α m) (s : State) :
    (reached m s).status.overrun = s.status.overrun := by
  have hself : m s = _ := h s s.status.overrun s.readData
  unfold reached
  cases hm : m s with
  | ok a t =>
    simp only [hm, EStateM.Result.ok.injEq, true_and] at hself
    exact congrArg (·.status.overrun) hself
  | error e t =>
    simp only [hm, EStateM.Result.error.injEq, true_and] at hself
    exact congrArg (·.status.overrun) hself

/-- So `OVERRUN` at the end of an operation is that of its start. -/
theorem runOperation_overrun {body : Micro Result} (hb : Blind Result body) {s t : State}
    (h : runOperation body s = .next t) : t.status.overrun = s.started.status.overrun := by
  have hreached := hb.overrun_reached s.started
  rcases runOperation_next h with ⟨r, u, hu, rfl⟩ | ⟨u, hu, rfl⟩
  all_goals simpa [reached, hu] using hreached

/-- Changes of the next state that agree on it. -/
theorem mapNext_congr {f g : State → State} {o : Host.Outcome State Fault Refusal}
    (h : ∀ t, o = .next t → f t = g t) : mapNext f o = mapNext g o := by
  cases o with
  | next t => exact congrArg Host.Outcome.next (h t rfl)
  | fault r => rfl
  | refused r => rfl

/-- An operation carries the word read at its start to its end. -/
theorem runOperation_readData {body : Micro Result} (hb : Blind Result body) {s t : State} {w : Word}
    (hs : t.started = { s.started with readData := w }) :
    runOperation body t = mapNext (fun u => { u with readData := w }) (runOperation body s) := by
  rw [runOperation_polled hb (o := s.started.status.overrun) (rd := w) hs]
  refine mapNext_congr fun u hu => ?_
  rw [State.polled, ← runOperation_overrun hb hu]

/-- One read while an accepted operation runs: it takes one free value, and the word read is that of
the state when `BUSY` is set. -/
theorem exec_of_read_overlap {i : Instr} {s : State} (h : Accepts i s) (r : HostReg) :
    exec i { s with overlap := [.read r] } =
      mapNext (fun t => { t with readData := s.nowBusy.busyReadWord r })
        (exec i { s with overlap := [], freeNo := s.freeNo + 1 }) := by
  rw [exec_accepted (s := { s with overlap := [.read r] }) h,
    exec_accepted (s := { s with overlap := [], freeNo := s.freeNo + 1 }) h]
  exact runOperation_readData (blind_bodyOf _ i) rfl

/-- Settles O12: the operation carries the word read, and the word has the layout of its register. -/
theorem statusWhileBusy : Obligations.StatusWhileBusy := by
  intro i s r hwf haccepts
  refine ⟨s.clearedForCommand.nowBusy.busyReadWord r,
    exec_of_read_overlap (s := s.clearedForCommand) ⟨hwf, haccepts⟩ r, ?_, ?_, ?_⟩
  · rintro rfl
    obtain ⟨hbusy, hdone, hcmdErr, hfault, hfaultSeen, hinited, hoverrun⟩ :=
      s.clearedForCommand.nowBusy.status.word_bits
        ((Config.freeWord s.freeNo).extractLsb' 0 2)
    obtain ⟨hseq, herrCode, hfaultCode, hreserved⟩ :=
      s.clearedForCommand.nowBusy.status.word_fields
        ((Config.freeWord s.freeNo).extractLsb' 0 2)
    exact ⟨hbusy, hdone, hcmdErr, hfault, hfaultSeen, hinited, hseq, herrCode, hfaultCode, hoverrun,
      hreserved⟩
  · rintro rfl
    rfl
  · intro hr
    cases r
    case cmd | status => simp at hr
    all_goals rfl

end Sys2Proof.Machine
end

section
/-!
PROOFS. The test registers: every operation but `RUN_TEST` leaves them alone.
-/

namespace Sys2Proof.Machine

open Sys2Proof.Config (Params)

/-- The test registers: the working registers but the last driven address and the delay counter. -/
def Regs.test (x : Regs) : Regs := { x with lda := 0#32, dcnt := 0 }

/-- The working registers are the test registers, the last driven address and the delay counter. -/
theorem Regs.eq_of_test_eq {x y : Regs} (h : x.test = y.test) :
    x = { y with lda := x.lda, dcnt := x.dcnt } :=
  calc x = { x.test with lda := x.lda, dcnt := x.dcnt } := rfl
    _ = { y.test with lda := x.lda, dcnt := x.dcnt } := by rw [h]
    _ = { y with lda := x.lda, dcnt := x.dcnt } := rfl

/-- A failed pin event writes no working register. -/
@[simp] theorem State.pinFailed_x (s : State) (sig : Signal) : (s.pinFailed sig).x = s.x := by
  unfold State.pinFailed
  split <;> rfl

@[simp] theorem State.started_x (s : State) : s.started.x = s.x := by
  obtain ⟨rd, h⟩ := started_eq s
  rw [h]

/-- Two states with the same test registers. -/
def SameTestRegisters (s t : State) : Prop := t.x.test = s.x.test

/-- An update of the state that leaves the working registers alone. -/
theorem SameTestRegisters.of_x_eq {s t : State} (h : t.x = s.x) : SameTestRegisters s t :=
  congrArg Regs.test h

theorem SameTestRegisters.trans (s t u : State) (h : SameTestRegisters s t)
    (h' : SameTestRegisters t u) : SameTestRegisters s u := Eq.trans h' h

/-- The events and the two registers of the address bus and the delay engine are no test register. -/
theorem tame_sameTestRegisters (K : Params) : Tame K SameTestRegisters where
  refl _ := rfl
  trans := SameTestRegisters.trans
  pinAt _ _ _ := .of_x_eq rfl
  pinFailed s sig := .of_x_eq (s.pinFailed_x sig)
  withIoFails _ _ := .of_x_eq rfl
  toggled _ _ := .of_x_eq rfl
  toggleFailed _ := rfl
  waited _ _ _ := rfl
  tookDout _ := .of_x_eq rfl
  withSeq _ _ := .of_x_eq rfl
  withLda _ _ := rfl

/-- The body of every operation but `RUN_TEST` has every closed property that the return from a fault
has as well: it writes no test register. -/
theorem Closed.bodyOf_of_ne_runTest {K : Params} {Φ : ∀ α : Type, Micro α → Prop} (T : Closed K Φ)
    (h : Φ Unit (modify State.recovered)) {i : Instr} (hi : ∀ lines, i ≠ .runTest lines) :
    Φ Result (Machine.bodyOf K i) := by
  by_cases hinit : i = .init
  · subst hinit
    exact T.initBody h
  · rw [bodyOf_plain hinit hi]
    exact T.plainBody i

/-- Settles O57: every part of such an operation respects "same test registers". -/
theorem testRegistersBelongToRunTest : Obligations.TestRegistersBelongToRunTest := by
  intro i s t hi h
  refine Regs.eq_of_test_eq (exec_related (R := SameTestRegisters) (error := fun _ => .of_x_eq rfl)
    (trans := SameTestRegisters.trans) (start := .of_x_eq s.started_x) (body := ?_)
    (finish := fun _ _ => .of_x_eq rfl) (fault := fun _ => .of_x_eq rfl) h)
  exact (tame_sameTestRegisters _).closed.bodyOf_of_ne_runTest (fun _ => .of_x_eq rfl) hi

end Sys2Proof.Machine
end

section
/-!
PROOFS. The error pattern of the address lines. `AddrToggle` and `x[LDA] <- a` each change it, and
only `AddrSet`, which does both, keeps it; so the micro-operations are gone through once more, with
`AddrSet` as one part.
-/

namespace Sys2Proof.Machine

open Sys2Proof.Safety
open Sys2Proof.Config (Params)

/-! ### Properties of all micro-operations that change the address as a whole -/

/-- A property of micro-operations as in `Closed`, which `AddrSet` has as a whole where its two halves
need not have it. -/
structure ClosedBus (K : Params) (Φ : ∀ α : Type, Micro α → Prop) : Prop where
  pure : ∀ {α : Type} (a : α), Φ α (Pure.pure a)
  bind : ∀ {α β : Type} {m : Micro α} {f : α → Micro β}, Φ α m → (∀ a, Φ β (f a)) → Φ β (m >>= f)
  look : ∀ {β : Type} {f : Regs → Micro β}, (∀ x, Φ β (f x)) → Φ β (do let s ← get; f s.x)
  pin : ∀ sig v, Φ Unit (pin sig v)
  addrSet : ∀ a, Φ Unit (addrSet K a)
  wait : ∀ c, Φ Unit (wait c)
  sample : Φ Bit sample
  setSeq : ∀ q, Φ Unit (setSeq q)

namespace ClosedBus

variable {K : Params} {Φ : ∀ α : Type, Micro α → Prop}

theorem times (T : ClosedBus K Φ) {m : Micro Unit} (h : Φ Unit m) (n : Nat) :
    Φ Unit (times n m) := by
  induction n with
  | zero => exact T.pure ()
  | succ n ih => exact T.bind h fun _ => ih

theorem forEach (T : ClosedBus K Φ) {f : Line → Micro Unit} (h : ∀ v, Φ Unit (f v))
    (vs : List Line) : Φ Unit (forEach f vs) := by
  induction vs with
  | nil => exact T.pure ()
  | cons v rest ih => exact T.bind (h v) fun _ => ih

/-! The protocol (`42_protocol_sequencer.md` R173 to R187). -/

theorem openRow (T : ClosedBus K Φ) (row : Line) : Φ Unit (openRow K row) :=
  T.bind (T.addrSet _) fun _ => T.bind (T.pin _ _) fun _ => T.bind (T.setSeq _) fun _ => T.wait _

theorem strobeColumn (T : ClosedBus K Φ) (col : Line) : Φ Unit (strobeColumn K col) :=
  T.bind (T.addrSet _) fun _ => T.bind (T.pin _ _) fun _ => T.bind (T.setSeq _) fun _ =>
    T.bind (T.wait _) fun _ => T.bind (T.pin _ _) fun _ => T.setSeq _

theorem strobeColumnRead (T : ClosedBus K Φ) (col : Line) : Φ Bit (strobeColumnRead K col) :=
  T.bind (T.addrSet _) fun _ => T.bind (T.pin _ _) fun _ => T.bind (T.setSeq _) fun _ =>
    T.bind (T.wait _) fun _ => T.bind (T.wait _) fun _ => T.bind T.sample fun _ =>
      T.bind (T.pin _ _) fun _ => T.bind (T.setSeq _) fun _ => T.pure _

theorem closeRow (T : ClosedBus K Φ) : Φ Unit (closeRow K) :=
  T.bind (T.pin _ _) fun _ => T.bind (T.setSeq _) fun _ => T.bind (T.wait _) fun _ => T.setSeq _

theorem pageWrite (T : ClosedBus K Φ) (col : Line) (b : Bit) : Φ Unit (pageWrite K col b) :=
  T.bind (T.pin _ _) fun _ => T.bind (T.pin _ _) fun _ => T.bind (T.strobeColumn _) fun _ =>
    T.bind (T.pin _ _) fun _ => T.wait _

theorem pageRead (T : ClosedBus K Φ) (col : Line) : Φ Bit (pageRead K col) :=
  T.bind (T.strobeColumnRead _) fun _ => T.bind (T.wait _) fun _ => T.pure _

theorem writeBitEarly (T : ClosedBus K Φ) (row col : Line) (b : Bit) :
    Φ Unit (writeBitEarly K row col b) :=
  T.bind (T.pin _ _) fun _ => T.bind (T.pin _ _) fun _ => T.bind (T.openRow _) fun _ =>
    T.bind (T.strobeColumn _) fun _ => T.bind (T.wait _) fun _ => T.bind T.closeRow fun _ =>
      T.pin _ _

theorem readBit (T : ClosedBus K Φ) (row col : Line) : Φ Bit (readBit K row col) :=
  T.bind (T.openRow _) fun _ => T.bind (T.strobeColumnRead _) fun _ => T.bind (T.wait _) fun _ =>
    T.bind T.closeRow fun _ => T.pure _

/-! The detections (`43_init_and_detection.md` R200 to R205). -/

theorem prechargePulse (T : ClosedBus K Φ) : Φ Unit (prechargePulse K) :=
  T.bind (T.pin _ _) fun _ => T.bind (T.wait _) fun _ => T.bind (T.pin _ _) fun _ => T.wait _

theorem isWorking (T : ClosedBus K Φ) : Φ Bool (isWorking K) :=
  T.bind (T.writeBitEarly _ _ _) fun _ => T.bind (T.readBit _ _) fun s1 => by
    cases s1
    · exact T.bind (T.writeBitEarly _ _ _) fun _ => T.readBit _ _
    · exact T.pure _

theorem isChip41256 (T : ClosedBus K Φ) : Φ Bool (isChip41256 K) :=
  T.bind (T.writeBitEarly _ _ _) fun _ => T.bind (T.writeBitEarly _ _ _) fun _ =>
    T.bind (T.readBit _ _) fun _ => T.pure _

/-! The moving-inversions test (`44_moving_inversions.md` R224 to R230). -/

theorem fillVisit (T : ClosedBus K Φ) (col : Line) : Φ Unit (fillVisit K col) :=
  T.look (f := fun x => Machine.pageWrite K col (x.pat.getLsbD 0)) fun _ => T.pageWrite _ _

/-- A checking visit: a read, and what its answer calls for. -/
theorem visit (T : ClosedBus K Φ) (col : Line) {f : Regs → Bit → Micro Unit}
    (h : ∀ x g, Φ Unit (f x g)) :
    Φ Unit (do let s ← get; let g ← Machine.pageRead K col; f s.x g) :=
  T.look (f := fun x => do let g ← Machine.pageRead K col; f x g) fun x =>
    T.bind (T.pageRead col) (h x)

theorem checkComplementVisit (T : ClosedBus K Φ) (U : ClosedTest Φ) (col : Line) :
    Φ Unit (checkComplementVisit K col) :=
  T.visit col (f := fun x g => if g != x.pat.getLsbD 0 then recordFailure
      else Machine.pageWrite K col (!x.pat.getLsbD 0)) fun x g => by
    split
    · exact U.recordFailure
    · exact T.pageWrite _ _

theorem checkVisit (T : ClosedBus K Φ) (U : ClosedTest Φ) (col : Line) :
    Φ Unit (checkVisit K col) :=
  T.visit col (f := fun x g => if g != !x.pat.getLsbD 0 then recordFailure else Pure.pure ())
    fun x g => by
    split
    · exact U.recordFailure
    · exact T.pure ()

theorem columnStep (T : ClosedBus K Φ) (U : ClosedTest Φ) {visit : Line → Micro Unit}
    (h : ∀ col, Φ Unit (visit col)) (col : Line) : Φ Unit (columnStep visit col) :=
  T.bind (U.setCol col) fun _ => T.bind (h col) fun _ =>
    T.look (f := fun x => setPat (rotl32 x.pat)) fun _ => U.setPat _

theorem sweep (T : ClosedBus K Φ) (U : ClosedTest Φ) {visit : Line → Micro Unit}
    (h : ∀ col, Φ Unit (visit col)) (dir : Direction) (n : Nat) : Φ Unit (sweep K visit dir n) :=
  T.bind (U.setPat _) fun _ => T.forEach (fun row => T.bind (U.setRow row) fun _ =>
    T.bind (T.openRow row) fun _ => T.bind (T.forEach (T.columnStep U h) _) fun _ => T.closeRow) _

theorem ifNoFailure (T : ClosedBus K Φ) {m : Micro Unit} (h : Φ Unit m) :
    Φ Unit (ifNoFailure m) :=
  T.look (f := fun x => if x.failCnt = 0#32 then m else Pure.pure ()) fun x => by
    split
    · exact h
    · exact T.pure ()

theorem runTestOn (T : ClosedBus K Φ) (U : ClosedTest Φ) (lines : BitVec 4) (n : Nat) :
    Φ Result (runTestOn K lines n) :=
  have fill : ∀ dir, Φ Unit (fillSweep K dir n) := fun dir => T.sweep U T.fillVisit dir n
  have complement : ∀ dir, Φ Unit (checkComplementSweep K dir n) := fun dir =>
    T.sweep U (T.checkComplementVisit U) dir n
  have check : ∀ dir, Φ Unit (checkSweep K dir n) := fun dir => T.sweep U (T.checkVisit U) dir n
  T.bind (U.setNlines _) fun _ => T.bind U.clearFailures fun _ =>
    T.bind (U.setSweep _) fun _ => T.bind (fill _) fun _ =>
    T.bind (U.setSweep _) fun _ => T.bind (complement _) fun _ =>
    T.bind (T.ifNoFailure (T.bind (U.setSweep _) fun _ => check _)) fun _ =>
    T.bind (T.ifNoFailure (T.bind (U.setSweep _) fun _ => T.bind (fill _) fun _ =>
      T.bind (U.setSweep _) fun _ => complement _)) fun _ =>
    T.bind (T.ifNoFailure (T.bind (U.setSweep _) fun _ => check _)) fun _ =>
    T.look (f := fun x => Pure.pure
      ({ outcome := if x.failCnt = 0#32 then .pass else .fail, lastSweep := x.sweep } : Result))
      fun _ => T.pure _

/-- The body of every operation has such a property, where the updates of the test registers and the
return from a fault have it as well. -/
theorem bodyOf (T : ClosedBus K Φ) (U : ClosedTest Φ) (h : Φ Unit (modify State.recovered))
    (i : Instr) : Φ Result (bodyOf K i) := by
  cases i with
  | delay sel => exact T.bind (T.wait _) fun _ => T.pure _
  | addrSet a => exact T.bind (T.addrSet _) fun _ => T.pure _
  | openRow row => exact T.bind (T.openRow _) fun _ => T.pure _
  | strobeCol col => exact T.bind (T.strobeColumn _) fun _ => T.pure _
  | closeRow => exact T.bind T.closeRow fun _ => T.pure _
  | pageWrite col b => exact T.bind (T.pageWrite _ _) fun _ => T.pure _
  | pageRead col => exact T.bind (T.pageRead _) fun _ => T.pure _
  | writeBitEarly row col b => exact T.bind (T.writeBitEarly _ _ _) fun _ => T.pure _
  | readBit row col => exact T.bind (T.readBit _ _) fun _ => T.pure _
  | init =>
    exact T.bind (T.pin _ _) fun _ => T.bind (T.pin _ _) fun _ => T.bind (T.pin _ _) fun _ =>
      T.bind (T.pin _ _) fun _ => T.bind (T.setSeq _) fun _ =>
        T.bind (T.times T.prechargePulse 8) fun _ => T.bind h fun _ => T.pure _
  | isPresent => exact T.bind T.isWorking fun _ => T.pure _
  | chipKind => exact T.bind T.isChip41256 fun _ => T.pure _
  | runTest lines => exact T.runTestOn U lines _

end ClosedBus

/-! ### The error pattern -/

/-- The error pattern of the address lines (`70_reset_and_hazards.md` R303). -/
def State.addrError (s : State) : Line := s.pin.a ^^^ wired s.x.lda

/-- `AddrInvariant` is that there is no error. -/
theorem addrInvariant_iff (s : State) : AddrInvariant s ↔ s.addrError = 0#9 :=
  BitVec.xor_eq_zero_iff.symm

/-- Where the environment fails nothing, it fails nothing later either, and the error pattern is the
same. -/
def SameAddrError (s t : State) : Prop :=
  s.ioFails = [] → t.ioFails = [] ∧ t.addrError = s.addrError

theorem SameAddrError.refl (s : State) : SameAddrError s s := fun h => ⟨h, rfl⟩

theorem SameAddrError.trans (s t u : State) (h : SameAddrError s t) (h' : SameAddrError t u) :
    SameAddrError s u := fun hs =>
  have ⟨ht, heq⟩ := h hs
  have ⟨hu, heq'⟩ := h' ht
  ⟨hu, heq'.trans heq⟩

/-- An update of the state that leaves the answers, the address lines and the last driven address
alone. -/
theorem SameAddrError.of_eq {s t : State} (hio : t.ioFails = s.ioFails) (ha : t.pin.a = s.pin.a)
    (hlda : t.x.lda = s.x.lda) : SameAddrError s t := fun h =>
  ⟨hio.trans h, by rw [State.addrError, ha, hlda, State.addrError]⟩

/-- Driving one of the four single outputs leaves the address lines alone. -/
@[simp] theorem Pins.drive_a (p : Pins) (sig : Signal) (v : Bit) : (p.drive sig v).a = p.a := by
  cases sig <;> rfl

/-- A pin event that is not failed leaves the address alone, also where it is refused. -/
theorem pin_sameAddrError (sig : Signal) (v : Bit) : Stays SameAddrError Unit (pin sig v) := by
  intro s hs
  rw [reached, pin, ioPoint_undisturbed _ _ _ hs, pinOk]
  cases s.dev.stray s.pin sig v with
  | none => exact SameAddrError.of_eq rfl (s.pin.drive_a sig v) rfl hs
  | some e => exact ⟨hs, rfl⟩

/-- `AddrSet` moves the lines by what it moves `x[LDA]` by (`41_address_bus.md` R160, R166). -/
theorem addrSet_sameAddrError (K : Params) (a : Word) :
    Stays SameAddrError Unit (addrSet K a) := by
  intro s hs
  rw [reached, addrSet_undisturbed K a s hs]
  refine ⟨hs, ?_⟩
  show s.pin.a ^^^ wired (a ^^^ s.x.lda) ^^^ wired a = s.pin.a ^^^ wired s.x.lda
  rw [wired_xor, BitVec.xor_comm (wired a), BitVec.xor_assoc, BitVec.xor_assoc, BitVec.xor_self,
    BitVec.xor_zero]

theorem sample_sameAddrError : Stays SameAddrError Bit sample := by
  intro s hs
  rw [reached, sample_undisturbed s hs]
  exact ⟨hs, rfl⟩

theorem closedBus_sameAddrError (K : Params) : ClosedBus K (Stays SameAddrError) where
  pure _ := SameAddrError.refl
  bind {α β m f} h hf := by
    intro s
    have hm := h s
    unfold reached at hm ⊢
    rw [micro_bind]
    cases hms : m s with
    | ok a t =>
      rw [hms] at hm
      exact hm.trans _ _ _ (hf a t)
    | error e t => rwa [hms] at hm
  look h := fun s => h s.x s
  pin := pin_sameAddrError
  addrSet := addrSet_sameAddrError K
  wait _ := fun _ => .of_eq rfl rfl rfl
  sample := sample_sameAddrError
  setSeq _ := fun _ => .of_eq rfl rfl rfl

theorem tameTest_sameAddrError : TameTest SameAddrError where
  withNlines _ _ := .of_eq rfl rfl rfl
  withSweep _ _ := .of_eq rfl rfl rfl
  withRow _ _ := .of_eq rfl rfl rfl
  withCol _ _ := .of_eq rfl rfl rfl
  withPat _ _ := .of_eq rfl rfl rfl
  failuresCleared _ := .of_eq rfl rfl rfl
  failureRecorded _ := .of_eq rfl rfl rfl

theorem started_sameAddrError (s : State) : SameAddrError s s.started := by
  obtain ⟨rd, h⟩ := started_eq s
  rw [h]
  exact .of_eq rfl rfl rfl

theorem hostRead_sameAddrError (s : State) (r : HostReg) : SameAddrError s (s.hostRead r) := by
  obtain ⟨rd, n, h⟩ := hostRead_frame s r
  rw [h]
  exact .of_eq rfl rfl rfl

/-- Every operation keeps the error pattern, where no event fails. -/
theorem exec_sameAddrError {i : Instr} {s t : State} (h : exec i s = .next t) :
    SameAddrError s t :=
  exec_related (error := fun _ => .of_eq rfl rfl rfl) (trans := SameAddrError.trans)
    (start := started_sameAddrError s)
    (body := (closedBus_sameAddrError _).bodyOf tameTest_sameAddrError.closed
      (fun _ => .of_eq rfl rfl rfl) i)
    (finish := fun _ _ => .of_eq rfl rfl rfl) (fault := fun _ => .of_eq rfl rfl rfl) h

/-- Every step does. -/
theorem step_sameAddrError {s t : State} (h : step s = .next t) : SameAddrError s t :=
  step_related (refl := SameAddrError.refl) (trans := SameAddrError.trans)
    (host := fun _ _ => .of_eq rfl rfl rfl) (read := hostRead_sameAddrError)
    (overrun := fun _ => .of_eq rfl rfl rfl) (clear := fun _ => .of_eq rfl rfl rfl)
    (error := fun _ _ => .of_eq rfl rfl rfl) (operation := fun _ _ _ => exec_sameAddrError) h

/-- Settles O54: every part of a step respects "same error pattern", and `AddrInvariant` is the
pattern 0. -/
theorem addressErrorIsKept : Obligations.AddressErrorIsKept := by
  intro s t hs h
  have herror : t.addrError = s.addrError := (step_sameAddrError h hs).2
  exact ⟨herror, by rw [addrInvariant_iff, addrInvariant_iff, herror]⟩

end Sys2Proof.Machine
end

section
/-!
PROOFS. The device's memory from a state of the invariant: a step always goes on, and an operation
changes only the cells it stores to. Then which cells the addresses of a chip reach.
-/

namespace Sys2Proof.Machine

open Sys2Proof.Safety

/-! ### Progress -/

/-- An operation comes from a write to `CMD` of a word that decodes to it, made while not busy, and
starts from the state that write leaves (`30_encoding.md` R117). -/
theorem nextAccess_operation {s t : State} {i : Instr} (h : s.nextAccess = .operation i t) :
    ∃ w later, s.host = .write .cmd w :: later ∧ s.status.busy = false ∧ decode w = .instr i ∧
      t = { s with host := later }.clearedForCommand := by
  unfold State.nextAccess at h
  split at h
  · cases h
  · next a later hhost =>
    split at h
    · cases h
    · next hbusy =>
      unfold State.idleAccess at h
      split at h
      · next w =>
        unfold State.command at h
        split at h <;> cases h
        next hdecode => exact ⟨w, later, hhost, Bool.eq_false_of_not_eq_true hbusy, hdecode, rfl⟩
      · cases h
      · cases h

/-- So it starts from a state of the invariant. -/
theorem inv_of_nextAccess_operation {s t : State} {i : Instr} (hs : Inv s)
    (h : s.nextAccess = .operation i t) : Inv t := by
  obtain ⟨w, later, -, -, -, rfl⟩ := nextAccess_operation h
  exact keepsInv_clearedForCommand { s with host := later } hs

/-- Every operation from a state of the invariant leaves a next state. -/
theorem exec_progress (i : Instr) {s : State} (hs : Inv s) : ∃ t, exec i s = .next t := by
  obtain ⟨t, ht, -⟩ :=
    exec_sound (i := i) (G := fun _ => True) hs trivial fun _ _ _ _ _ => trivial
  exact ⟨t, ht⟩

/-- Settles O53: only an operation could stop a step, and it starts from a state of the invariant. -/
theorem invariantStatesAlwaysStep : Obligations.InvariantStatesAlwaysStep := by
  intro s hs
  unfold step
  cases haccess : s.nextAccess with
  | idle => exact ⟨s, rfl⟩
  | done t => exact ⟨t, rfl⟩
  | operation i t => exact exec_progress i (inv_of_nextAccess_operation hs haccess)

/-! ### The frame of the cells -/

/-- An operation keeps every cell it does not store to, whatever the environment answers
(`20_memory.md` R74). -/
theorem exec_keeps_cell {i : Instr} {s t : State} {key : Nat} (hs : Inv s)
    (h : exec i s = .next t) (hkey : ¬ Stores s i key) : t.dev.cell key = s.dev.cell key := by
  obtain ⟨u, hu, -, hcell⟩ :=
    exec_sound (G := fun cs => Cells.lookup cs key = Cells.lookup s.dev.cells key) hs rfl
      fun k hk cs b hcs => by
        have hne : key ≠ k := fun heq => hkey (heq ▸ hk)
        exact (Cells.lookup_store_other cs b hne).trans hcs
  obtain rfl : u = t := by simpa [hu] using h
  exact congrArg (·.getD (unlistedCell key)) hcell

/-- Settles O59: the cells a storing operation may change are those of `Stores`. -/
theorem storesReachOnlyTheirCells : Obligations.StoresReachOnlyTheirCells := by
  refine ⟨fun col b s t hs h key hkey => exec_keeps_cell hs h hkey,
    fun row col b s t hs h key hkey => exec_keeps_cell hs h hkey,
    fun s t hs h key hkey => exec_keeps_cell hs h hkey,
    fun s t hs h key h8 h264 => exec_keeps_cell hs h (not_or.mpr ⟨h8, h264⟩),
    fun lines s t hs h key hkey => exec_keeps_cell hs h ?_⟩
  rintro ⟨r, hr, c, hc, heq⟩
  exact hkey r hr c hc heq

/-- The operations without an effect on cells store to no key. -/
theorem not_stores {i : Instr} (hi : i.opcode ∈
    [.delay, .addrSet, .openRow, .strobeCol, .closeRow, .pageRead, .readBit, .init])
    (s : State) (key : Nat) : ¬ Stores s i key := by
  cases i
  case pageWrite | writeBitEarly | isPresent | chipKind | runTest => simp [Instr.opcode] at hi
  all_goals exact id

/-- Settles O58: an operation that stores to no cell keeps every cell. -/
theorem nonStoringOperationsKeepEveryCell : Obligations.NonStoringOperationsKeepEveryCell :=
  fun _ s _ hs hi h key => exec_keeps_cell hs h (not_stores hi s key)

/-! ### Aliasing -/

/-- Eight lines show a row or a column modulo 256. -/
theorem seenLines_eight_toNat (v : Line) : (seenLines .eight v).toNat = v.toNat % 256 := by
  rw [seenLines, BitVec.toNat_and]
  exact Nat.and_two_pow_sub_one_eq_mod v.toNat 8

/-- An 8-line chip does not see bit 8 of an address. -/
@[simp] theorem seenLines_eight_xor (v : Line) :
    seenLines .eight (v ^^^ 256#9) = seenLines .eight v := by
  have hbit : (256#9).toNat % 2 ^ 8 = 0 := rfl
  apply BitVec.eq_of_toNat_eq
  rw [seenLines_eight_toNat, seenLines_eight_toNat, BitVec.toNat_xor, Nat.xor_mod_two_pow (n := 8),
    hbit, Nat.xor_zero]

/-- A key names one row and one column. -/
theorem cellKey_inj {r c r' c' : Line} (h : cellKey r c = cellKey r' c') : r = r' ∧ c = c' := by
  have hrow : r.toNat = r'.toNat := by rw [← cellKey_div r c, h, cellKey_div]
  have hcol : c.toNat = c'.toNat := by rw [← cellKey_mod r c, h, cellKey_mod]
  exact ⟨BitVec.eq_of_toNat_eq hrow, BitVec.eq_of_toNat_eq hcol⟩

/-- Settles O20: bit 8 is not seen by an 8-line chip, and a 9-line chip sees the whole address. -/
theorem addressLineAliasing : Obligations.AddressLineAliasing := by
  refine ⟨fun r c => ⟨?_, ?_, ?_, ?_⟩, fun _ _ _ _ => cellKey_inj⟩
  · rw [reachedKey, cellKey, seenLines_eight_toNat, seenLines_eight_toNat]
  all_goals simp [reachedKey]

end Sys2Proof.Machine
end

section
/-!
PROOFS. The events of a step: one relation, "only events are added, with configured waits",
respected by every part of a step.
-/

namespace Sys2Proof.Machine

/-- The second state has the events of the first and new ones, whose waits are configured counts. -/
def OnlyAddsEvents (s t : State) : Prop :=
  ∃ new, t.trace = new ++ s.trace ∧ ∀ c, Event.wait c ∈ new → Configured Config.machine c

/-- An update of the state that emits nothing. -/
theorem OnlyAddsEvents.of_trace_eq {s t : State} (h : t.trace = s.trace) : OnlyAddsEvents s t :=
  ⟨[], h, nofun⟩

/-- One more event, a configured count if it is a wait. -/
theorem OnlyAddsEvents.of_emit {s t : State} (e : Event) (h : t.trace = e :: s.trace)
    (he : ∀ c, e = .wait c → Configured Config.machine c) : OnlyAddsEvents s t :=
  ⟨[e], h, fun c hc => he c (List.mem_singleton.mp hc).symm⟩

theorem OnlyAddsEvents.trans (s t u : State) (h : OnlyAddsEvents s t) (h' : OnlyAddsEvents t u) :
    OnlyAddsEvents s u := by
  obtain ⟨new, htrace, hwaits⟩ := h
  obtain ⟨new', htrace', hwaits'⟩ := h'
  refine ⟨new' ++ new, by rw [htrace', htrace, List.append_assoc], fun c hc => ?_⟩
  exact (List.mem_append.mp hc).elim (hwaits' c) (hwaits c)

/-- In the order of emission the new events stand after those emitted. -/
theorem OnlyAddsEvents.events {s t : State} (h : OnlyAddsEvents s t) :
    ∃ new, t.events = s.events ++ new ∧ ∀ c, Event.wait c ∈ new → Configured Config.machine c := by
  obtain ⟨new, htrace, hwaits⟩ := h
  refine ⟨new.reverse, ?_, fun c hc => hwaits c (List.mem_reverse.mp hc)⟩
  rw [State.events, htrace, List.reverse_append, State.events]

/-- A failed pin event is not emitted (log 10). -/
@[simp] theorem State.pinFailed_trace (s : State) (sig : Signal) :
    (s.pinFailed sig).trace = s.trace := by
  unfold State.pinFailed
  split <;> rfl

/-- Each of the four events adds itself, a failure adds nothing. -/
theorem tame_onlyAddsEvents : Tame Config.machine OnlyAddsEvents where
  refl _ := .of_trace_eq rfl
  trans := OnlyAddsEvents.trans
  pinAt _ _ _ := .of_emit _ rfl nofun
  pinFailed s sig := .of_trace_eq (s.pinFailed_trace sig)
  withIoFails _ _ := .of_trace_eq rfl
  toggled _ _ := .of_emit _ rfl nofun
  toggleFailed _ := .of_trace_eq rfl
  waited _ _ hc := .of_emit _ rfl fun _ h => Event.wait.inj h ▸ hc
  tookDout _ := .of_emit _ rfl nofun
  withSeq _ _ := .of_trace_eq rfl
  withLda _ _ := .of_trace_eq rfl

theorem tameTest_onlyAddsEvents : TameTest OnlyAddsEvents where
  withNlines _ _ := .of_trace_eq rfl
  withSweep _ _ := .of_trace_eq rfl
  withRow _ _ := .of_trace_eq rfl
  withCol _ _ := .of_trace_eq rfl
  withPat _ _ := .of_trace_eq rfl
  failuresCleared _ := .of_trace_eq rfl
  failureRecorded _ := .of_trace_eq rfl

/-- The host's accesses emit nothing. -/
@[simp] theorem State.started_trace (s : State) : s.started.trace = s.trace := by
  obtain ⟨rd, h⟩ := started_eq s
  rw [h]

@[simp] theorem State.hostRead_trace (s : State) (r : HostReg) :
    (s.hostRead r).trace = s.trace := by
  obtain ⟨rd, n, h⟩ := hostRead_frame s r
  rw [h]

/-- An operation only adds events, and waits only the configured counts. -/
theorem exec_onlyAddsEvents {i : Instr} {s t : State} (h : exec i s = .next t) :
    OnlyAddsEvents s t :=
  exec_related (error := fun _ => .of_trace_eq rfl) (trans := OnlyAddsEvents.trans)
    (start := .of_trace_eq s.started_trace)
    (body := stays_bodyOf tame_onlyAddsEvents tameTest_onlyAddsEvents
      (fun _ => .of_trace_eq rfl) i)
    (finish := fun _ _ => .of_trace_eq rfl) (fault := fun _ => .of_trace_eq rfl) h

/-- Settles O56: every part of a step only adds events, and the waits among them are configured. -/
theorem onlyConfiguredWaits : Obligations.OnlyConfiguredWaits := by
  intro s t h
  have hadds : OnlyAddsEvents s t :=
    step_related (refl := fun _ => .of_trace_eq rfl) (trans := OnlyAddsEvents.trans)
      (host := fun _ _ => .of_trace_eq rfl) (read := fun s r => .of_trace_eq (s.hostRead_trace r))
      (overrun := fun _ => .of_trace_eq rfl) (clear := fun _ => .of_trace_eq rfl)
      (error := fun _ _ => .of_trace_eq rfl) (operation := fun _ _ _ => exec_onlyAddsEvents) h
  exact hadds.events

end Sys2Proof.Machine
end

section
/-!
PROOFS. The command word: decoder and encoder are inverse to each other, and a step runs what the
decoder reads. A word is accepted when it lies in a row of the opcode table, that is when its bits
under the row's mask are those of the row's match (`30_encoding.md` R108, R109).
-/

namespace Sys2Proof

/-! ### The rows of the opcode table -/

/-- A field under the mask of a row has the value the row's match gives it (R108). -/
theorem field_of_row {w : Word} {o : Opcode} {start len : Nat} (hrow : w &&& o.mask = o.pattern)
    (hmask : o.mask.extractLsb' start len = BitVec.allOnes len) :
    w.extractLsb' start len = o.pattern.extractLsb' start len := by
  rw [← hrow, BitVec.extractLsb'_and, hmask, BitVec.and_allOnes]

/-- Every mask covers the opcode byte, so the row fixes it. -/
theorem fieldOpc_of_row {w : Word} {o : Opcode} (hrow : w &&& o.mask = o.pattern) :
    fieldOpc w = o.code := by
  cases o <;> exact field_of_row hrow rfl

@[simp] theorem Opcode.ofCode_code (o : Opcode) : Opcode.ofCode o.code = some o := by
  cases o <;> rfl

/-- What the decoder accepts, and as what (R109). -/
theorem decode_eq_instr_iff {w : Word} {i : Instr} :
    decode w = .instr i ↔ ∃ o : Opcode, w &&& o.mask = o.pattern ∧ i = o.instrOf w := by
  constructor
  · unfold decode
    split
    · nofun
    · next o _ =>
      split
      · next hrow => exact fun h => ⟨o, hrow, (Verdict.instr.inj h).symm⟩
      · nofun
  · rintro ⟨o, hrow, rfl⟩
    simp [decode, fieldOpc_of_row hrow, hrow]

/-- The word of every well-formed operation lies in the row of its opcode. -/
theorem encode_row {i : Instr} (hwf : i.wellFormed = true) :
    encode i &&& i.opcode.mask = i.opcode.pattern := by
  have hstatement : Laws.TableRow.Statement i := by
    cases i with
    | delay sel => exact Laws.TableRow.delay sel
    | addrSet addr24 => exact Laws.TableRow.addrSet addr24
    | openRow row => exact Laws.TableRow.openRow row
    | strobeCol col => exact Laws.TableRow.strobeCol col
    | closeRow => exact Laws.TableRow.closeRow
    | pageWrite col b => exact Laws.TableRow.pageWrite col b
    | pageRead col => exact Laws.TableRow.pageRead col
    | writeBitEarly row col b => exact Laws.TableRow.writeBitEarly row col b
    | readBit row col => exact Laws.TableRow.readBit row col
    | init => exact Laws.TableRow.init
    | isPresent => exact Laws.TableRow.isPresent
    | chipKind => exact Laws.TableRow.chipKind
    | runTest lines => exact Laws.TableRow.runTest lines
  exact (hstatement hwf).2

/-! ### From an operation to its word and back -/

@[simp] theorem Selector.ofCode_code (sel : Selector) : Selector.ofCode sel.code = sel := by
  cases sel <;> rfl

@[simp] theorem fieldCol_formatC (o : Opcode) (b : Bit) (row col : Line) :
    fieldCol (formatC o b row col) = col :=
  BitVec.extractLsb'_append_eq_right

@[simp] theorem fieldRow_formatC (o : Opcode) (b : Bit) (row col : Line) :
    fieldRow (formatC o b row col) = row :=
  (BitVec.extractLsb'_append_eq_of_le (Nat.le_refl 9)).trans BitVec.extractLsb'_append_eq_right

@[simp] theorem fieldB_formatC (o : Opcode) (b : Bit) (row col : Line) :
    fieldB (formatC o b row col) = b := by
  unfold fieldB formatC
  repeat rw [BitVec.getLsbD_append]
  simp

/-- The fields of an operation's word are its operands. -/
theorem instrOf_encode (i : Instr) : i.opcode.instrOf (encode i) = i := by
  cases i with
  | delay sel =>
    have hsel : fieldSel (encode (.delay sel)) = sel.code := BitVec.extractLsb'_append_eq_right
    rw [Instr.opcode, Opcode.instrOf, hsel, Selector.ofCode_code]
  | addrSet addr24 => exact congrArg Instr.addrSet BitVec.extractLsb'_append_eq_right
  | runTest lines => exact congrArg Instr.runTest BitVec.extractLsb'_append_eq_right
  | openRow | strobeCol | pageWrite | pageRead | writeBitEarly | readBit =>
    simp [Instr.opcode, Opcode.instrOf, encode]
  | closeRow | init | isPresent | chipKind => rfl

/-- Settles O2: the word lies in its row, and its fields are the operands. -/
theorem decodeOfEncode : Obligations.DecodeOfEncode := fun i hwf =>
  decode_eq_instr_iff.mpr ⟨i.opcode, encode_row hwf, (instrOf_encode i).symm⟩

/-! ### From an accepted word to its operation and back -/

@[simp] theorem Selector.code_ofCode (c : BitVec 3) : (Selector.ofCode c).code = c := by
  decide +revert

theorem ofBool_fieldB (w : Word) : BitVec.ofBool (fieldB w) = w.extractLsb' 18 1 := by
  apply BitVec.eq_of_getLsbD_eq
  intro i hi
  obtain rfl : i = 0 := Nat.lt_one_iff.mp hi
  simp [fieldB]

/-- A row whose mask covers bit 18 and whose match has a 0 there admits only a 0. -/
theorem fieldB_of_row {w : Word} {o : Opcode} (hrow : w &&& o.mask = o.pattern)
    (hmask : o.mask.extractLsb' 18 1 = BitVec.allOnes 1)
    (hpattern : o.pattern.extractLsb' 18 1 = 0#1) : fieldB w = false := by
  have hb : BitVec.ofBool (fieldB w) = 0#1 := by
    rw [ofBool_fieldB, field_of_row hrow hmask, hpattern]
  exact BitVec.ofBool_eq_iff_eq.mp hb

/-- A word is put together again from the fields of format `C` (R105). -/
theorem formatC_fields {w : Word} {o : Opcode} (hrow : w &&& o.mask = o.pattern)
    (hmask : o.mask.extractLsb' 19 5 = BitVec.allOnes 5)
    (hpattern : o.pattern.extractLsb' 19 5 = 0#5) :
    formatC o (fieldB w) (fieldRow w) (fieldCol w) = w := by
  have hreserved : w.extractLsb' 19 5 = 0#5 := (field_of_row hrow hmask).trans hpattern
  rw [formatC, ← fieldOpc_of_row hrow, ← hreserved, ofBool_fieldB]
  simp only [fieldOpc, fieldRow, fieldCol, BitVec.extractLsb'_append_extractLsb'_eq_extractLsb']
  exact BitVec.extractLsb'_eq_self

/-- An operation without operands has one word, which the mask compares in full (R102). -/
theorem formatN_eq_of_row {w : Word} {o : Opcode} (hrow : w &&& o.mask = o.pattern)
    (hmask : o.mask = BitVec.allOnes 32) (hpattern : o.pattern = formatN o) : formatN o = w := by
  rw [← hpattern, ← hrow, hmask, BitVec.and_allOnes]

/-- A word in a row is put together again from the fields the row uses: the row's match fixes every
other bit (R111). -/
theorem encode_instrOf {w : Word} {o : Opcode} (hrow : w &&& o.mask = o.pattern) :
    encode (o.instrOf w) = w := by
  have hopc : fieldOpc w = o.code := fieldOpc_of_row hrow
  cases o with
  | delay =>
    have hreserved : w.extractLsb' 3 21 = 0#21 := field_of_row hrow rfl
    rw [Opcode.instrOf, encode, ← hopc, ← hreserved, Selector.code_ofCode]
    simp only [fieldOpc, fieldSel, BitVec.extractLsb'_append_extractLsb'_eq_extractLsb']
    exact BitVec.extractLsb'_eq_self
  | addrSet =>
    rw [Opcode.instrOf, encode, ← hopc]
    exact BitVec.extractLsb'_append_extractLsb'
  | runTest =>
    have hreserved : w.extractLsb' 4 20 = 0#20 := field_of_row hrow rfl
    rw [Opcode.instrOf, encode, ← hopc, ← hreserved]
    simp only [fieldOpc, fieldLines, BitVec.extractLsb'_append_extractLsb'_eq_extractLsb']
    exact BitVec.extractLsb'_eq_self
  | openRow =>
    have hcolField : fieldCol w = 0#9 := field_of_row hrow rfl
    have hword := formatC_fields hrow rfl rfl
    rwa [fieldB_of_row hrow rfl rfl, hcolField] at hword
  | strobeCol | pageRead =>
    have hrowField : fieldRow w = 0#9 := field_of_row hrow rfl
    have hword := formatC_fields hrow rfl rfl
    rwa [fieldB_of_row hrow rfl rfl, hrowField] at hword
  | pageWrite =>
    have hrowField : fieldRow w = 0#9 := field_of_row hrow rfl
    have hword := formatC_fields hrow rfl rfl
    rwa [hrowField] at hword
  | writeBitEarly => exact formatC_fields hrow rfl rfl
  | readBit =>
    have hword := formatC_fields hrow rfl rfl
    rwa [fieldB_of_row hrow rfl rfl] at hword
  | closeRow | init | isPresent | chipKind => exact formatN_eq_of_row hrow rfl rfl

/-- The line counts `RUN_TEST` admits are those its mask lets through (R106, R108). -/
theorem legalLines_iff (lines : BitVec 4) :
    legalLines lines = true ↔ lines &&& 0xE#4 = 0x8#4 := by
  decide +revert

/-- A row admits only words of well-formed operations. -/
theorem wellFormed_instrOf {w : Word} {o : Opcode} (hrow : w &&& o.mask = o.pattern) :
    (o.instrOf w).wellFormed = true := by
  cases o
  case runTest =>
    have hlines := congrArg (BitVec.extractLsb' 0 4) hrow
    rw [BitVec.extractLsb'_and] at hlines
    exact (legalLines_iff _).mpr hlines
  all_goals rfl

/-- Settles O3: the word lies in a row, and the row's match and the fields give all of its bits. -/
theorem encodeOfDecode : Obligations.EncodeOfDecode := by
  intro w i h
  obtain ⟨o, hrow, rfl⟩ := decode_eq_instr_iff.mp h
  exact ⟨wellFormed_instrOf hrow, encode_instrOf hrow⟩

/-- Settles O1: the decoder evaluated on the eight words. -/
theorem commandWordsDecode : Obligations.CommandWordsDecode := by
  unfold Obligations.CommandWordsDecode
  decide

/-! ### The step -/

namespace Machine

/-- A command word of an operation, written while no operation runs, starts that operation from the
state the write leaves (R109, R117). -/
theorem step_of_command {s : State} {later : List HostAccess} {w : Word} {i : Instr}
    (hbusy : s.status.busy = false) (hhost : s.host = .write .cmd w :: later)
    (hdecode : decode w = .instr i) :
    step s = exec i { s with host := later }.clearedForCommand := by
  simp [step, State.nextAccess, State.idleAccess, State.command, hhost, hbusy, hdecode]

/-- Settles O6: what the write clears is written out. -/
theorem stepRunsTheDecodedOperation : Obligations.StepRunsTheDecodedOperation :=
  fun _ _ _ _ => step_of_command

end Machine

end Sys2Proof
end

section
/-!
PROOFS. The delay engine and the timing profile: the algorithm of `cycles` is the rounded-up quotient,
and `DELAY` waits one of eight such counts (`40_delay_and_timing_profile.md`).
-/

namespace Sys2Proof.Machine

open Sys2Proof.Safety
open Sys2Proof.Config (Params)

/-! ### The rounded-up quotient

`a ≤ q * b` and `q * b < a + b` determine `q`; every fact about `ceil_div` is read off from the two. -/

/-- Rounding up gives the least number of parts of size `b` that cover `a`. -/
theorem ceilDiv_le_iff {a b q : Nat} (hb : 0 < b) : ceilDiv a b ≤ q ↔ a ≤ q * b := by
  rw [mul_comm]
  exact ceilDiv_le_iff_le_mul hb

theorem le_ceilDiv_mul (a : Nat) {b : Nat} (hb : 0 < b) : a ≤ ceilDiv a b * b :=
  (ceilDiv_le_iff hb).mp le_rfl

theorem ceilDiv_mul_lt (a : Nat) {b : Nat} (hb : 0 < b) : ceilDiv a b * b < a + b := by
  have hle : ceilDiv a b * b ≤ a + b - 1 := Nat.div_mul_le_self _ _
  omega

theorem ceilDiv_eq_of_bounds {a b q : Nat} (hcover : a ≤ q * b) (hleast : q * b < a + b) :
    ceilDiv a b = q := by
  have hb : 0 < b := by omega
  have hlt : q * b < (ceilDiv a b + 1) * b :=
    calc q * b < a + b := hleast
      _ ≤ ceilDiv a b * b + b := Nat.add_le_add_right (le_ceilDiv_mul a hb) b
      _ = (ceilDiv a b + 1) * b := (Nat.succ_mul _ _).symm
  exact le_antisymm ((ceilDiv_le_iff hb).mpr hcover)
    (Nat.le_of_lt_succ (Nat.lt_of_mul_lt_mul_right hlt))

theorem ceilDiv_mono {a a' b : Nat} (hb : 0 < b) (h : a ≤ a') : ceilDiv a b ≤ ceilDiv a' b :=
  (ceilDiv_le_iff hb).mpr (h.trans (le_ceilDiv_mul a' hb))

theorem ceilDiv_eq_one {a b : Nat} (ha : 0 < a) (hab : a ≤ b) : ceilDiv a b = 1 :=
  ceilDiv_eq_of_bounds (by omega) (by omega)

/-- Where the division leaves no remainder nothing is rounded. -/
theorem ceilDiv_mul_of_dvd {a b : Nat} (hb : 0 < b) (h : b ∣ a) : ceilDiv a b * b = a := by
  obtain ⟨q, rfl⟩ := h
  rw [ceilDiv_eq_of_bounds (q := q) (by rw [mul_comm]) (by rw [mul_comm]; omega), mul_comm]

/-! ### The cycle time -/

theorem nsPerCycle_pos (K : Params) : 0 < nsPerCycle K :=
  Nat.pos_of_mul_pos_right (Nat.lt_of_lt_of_le (by decide : 0 < 1000000000)
    (le_ceilDiv_mul 1000000000 K.clockHz.pos))

/-- Settles O13: from 1 GHz on one cycle covers the nanosecond. -/
theorem nsPerCycleIsRoundedUp : Obligations.NsPerCycleIsRoundedUp := by
  refine ⟨fun K => ⟨rfl, nsPerCycle_pos K, fun hfast => ?_⟩, ?_⟩
  · exact ceilDiv_eq_one (by decide) hfast
  · decide

/-! ### The cycle computation -/

/-- The turns of the 3-cycle loop and the single cycles together are the whole quotient (R131). -/
theorem cyclesAt_eq (p ns : Nat) : cyclesAt p ns = ns / p + extraCycle p ns := by
  rw [cyclesAt, Nat.div_add_mod, totalCycles]

/-- The extra cycle, taken where the division leaves a remainder, rounds the quotient up (R132). -/
theorem cyclesAt_eq_ceilDiv {p : Nat} (hp : 0 < p) (ns : Nat) : cyclesAt p ns = ceilDiv ns p := by
  have hdivision : ns / p * p + ns % p = ns := Nat.div_add_mod' ns p
  have hremainder : ns % p < p := Nat.mod_lt ns hp
  rw [cyclesAt_eq, extraCycle]
  split
  · have hsucc : (ns / p + 1) * p = ns / p * p + p := Nat.succ_mul _ _
    exact (ceilDiv_eq_of_bounds (by omega) (by omega)).symm
  · rw [Nat.add_zero]
    exact (ceilDiv_eq_of_bounds (by omega) (by omega)).symm

theorem cycles_eq_ceilDiv (K : Params) (ns : Nat) : cycles K ns = ceilDiv ns (nsPerCycle K) :=
  cyclesAt_eq_ceilDiv (nsPerCycle_pos K) ns

/-- Settles O14: each consequence is one of the rounded-up quotient. -/
theorem cyclesIsTheRoundedUpQuotient : Obligations.CyclesIsTheRoundedUpQuotient := by
  intro p hp
  refine ⟨cyclesAt_eq_ceilDiv hp, ?_⟩
  simp only [cyclesAt_eq_ceilDiv hp]
  exact ⟨zero_ceilDiv p, fun _ => ceilDiv_eq_one, fun _ _ => ceilDiv_mono hp,
    fun ns => ⟨le_ceilDiv_mul ns hp, ceilDiv_mul_lt ns hp⟩⟩

/-! ### How long a wait lasts -/

/-- Under `ClockDivides` a second is a whole number of cycles of `NS_PER_CYCLE` (C1). -/
theorem nsPerCycle_mul_clockHz {K : Params} (h : ClockDivides K) :
    nsPerCycle K * K.clockHz = 1000000000 :=
  ceilDiv_mul_of_dvd K.clockHz.pos h

/-- Under `ClockDivides`, `c` cycles last `c * NS_PER_CYCLE` nanoseconds: at least `ns` if that covers
them. -/
theorem lastsAtLeast_iff {K : Params} (h : ClockDivides K) (c ns : Nat) :
    lastsAtLeast K c ns ↔ ns ≤ c * nsPerCycle K := by
  rw [lastsAtLeast, ← nsPerCycle_mul_clockHz h, ← mul_assoc]
  exact Nat.mul_le_mul_right_iff K.clockHz.pos

/-- Under `ClockDivides`, `c` cycles last `c * NS_PER_CYCLE` nanoseconds: less than `ns` if that falls
short of them. -/
theorem lastsLessThan_iff {K : Params} (h : ClockDivides K) (c ns : Nat) :
    lastsLessThan K c ns ↔ c * nsPerCycle K < ns := by
  rw [lastsLessThan, ← nsPerCycle_mul_clockHz h, ← mul_assoc]
  exact Nat.mul_lt_mul_right K.clockHz.pos

/-- At 133 MHz the whole-nanosecond cycle time exceeds the true one, so 80 ns get 10 cycles. -/
theorem cycles_eighty_of_133MHz {K : Params} (h : K.clockHz = 133000000) : cycles K 80 = 10 := by
  rw [cycles, nsPerCycle, h]
  decide

/-- Settles O15: the bounds of the rounded-up quotient, in nanoseconds; the counterexample computed. -/
theorem delayContractUnderClockDivides : Obligations.DelayContractUnderClockDivides := by
  refine ⟨fun K ns hdivides => ?_, fun K hclock => ?_⟩
  · rw [lastsAtLeast_iff hdivides, lastsLessThan_iff hdivides, cycles_eq_ceilDiv]
    exact ⟨le_ceilDiv_mul ns (nsPerCycle_pos K), ceilDiv_mul_lt ns (nsPerCycle_pos K)⟩
  · rw [cycles_eighty_of_133MHz hclock, lastsLessThan, hclock]
    decide

/-! ### The profile -/

/-- `sat_sub` is the subtraction of the naturals. -/
theorem satSub_eq (a b : Nat) : satSub a b = a - b := by
  unfold satSub
  split <;> omega

/-- Over the integers `sat_sub` is the difference floored at zero. -/
theorem natCast_satSub (a b : Nat) : (satSub a b : Int) = max 0 ((a : Int) - b) := by
  rw [satSub_eq]
  omega

/-- Flooring the difference in between changes nothing, for what is taken off next is not negative. -/
theorem natCast_satSub_satSub (a b c : Nat) :
    (satSub (satSub a b) c : Int) = max 0 ((a : Int) - b - c) := by
  rw [satSub_eq, satSub_eq]
  omega

/-- Settles O16: five floored differences, and one of two steps. -/
theorem profileIsFlooredAtZero : Obligations.ProfileIsFlooredAtZero := fun _ =>
  ⟨natCast_satSub _ _, natCast_satSub _ _, natCast_satSub _ _, natCast_satSub _ _, natCast_satSub _ _,
    natCast_satSub_satSub _ _ _⟩

/-! ### `DELAY` -/

/-- A well-formed operation is accepted where its protocol state is legal (`60_exceptions.md` R270). -/
theorem accepts_of_accepting {i : Instr} {s : State} {q : SeqState} (hwf : i.wellFormed = true)
    (hlegal : legalIn i.opcode q = true) (h : Accepting s q) : Accepts i s := by
  obtain ⟨hfault, hinited, rfl⟩ := h
  exact ⟨hwf, .inr ⟨hfault, hinited, hlegal⟩⟩

/-- `DELAY` waits, from the state in which `BUSY` is set. -/
theorem exec_delay {sel : Selector} {s : State} (hsilent : HostSilent s)
    (haccepts : Accepts (.delay sel) s) :
    exec (.delay sel) s = .next
      ((s.nowBusy.waited.emit (.wait (selected Config.machine sel))).finished {}) := by
  refine exec_of_body haccepts ?_
  rw [started_of_hostSilent hsilent]
  rfl

/-- Settles O17: the next state of `DELAY`, the decoder evaluated on the eight words, and each count as
the rounded-up quotient of its duration. -/
theorem delayWaitsTheSelectedCount : Obligations.DelayWaitsTheSelectedCount := by
  refine ⟨fun sel s ⟨_, hsilent⟩ haccepting => ?_, by decide, fun K => ?_⟩
  · have haccepts : Accepts (.delay sel) s :=
      haccepting.elim (accepts_of_accepting rfl rfl) (accepts_of_accepting rfl rfl)
    rw [exec_delay hsilent haccepts]
    simp [State.finished, State.waited, State.emit, State.nowBusy, hsilent]
  · refine ⟨rfl, rfl, rfl, rfl, rfl, rfl, rfl, rfl, ?_⟩
    simp only [← satSub_eq, ← cycles_eq_ceilDiv]
    exact ⟨rfl, rfl, rfl, rfl, rfl, rfl, rfl, rfl⟩

end Sys2Proof.Machine
end

section
/-!
PROOFS. The address bus: `ADDR_SET` drives the address by one toggle mask, and setting the same address
again moves nothing (`41_address_bus.md`).
-/

namespace Sys2Proof.Machine

open Sys2Proof.Safety

/-- The state `ADDR_SET` leaves where nothing disturbs it, the address extended to 32 bits
(`41_address_bus.md` R160, R165). -/
def State.afterAddrSet (s : State) (a : Word) : State :=
  { s with
    pin.a := s.pin.a ^^^ wired (a ^^^ s.x.lda)
    x.lda := a
    x.dcnt := 0
    status.busy := false
    status.done := true
    result := {}
    trace := .wait (cAs Config.machine) :: .addrToggle (a ^^^ s.x.lda) :: s.trace }

theorem exec_addrSet (addr24 : BitVec 24) {s : State} (h : Undisturbed s)
    (haccepting : Accepting s .idle ∨ Accepting s .rowOpen) :
    exec (.addrSet addr24) s = .next (s.afterAddrSet (wideAddress addr24)) := by
  obtain ⟨hnoFault, hsilent⟩ := h
  have haccepts : Accepts (.addrSet addr24) s :=
    haccepting.elim (accepts_of_accepting rfl rfl) (accepts_of_accepting rfl rfl)
  have hstarted := started_of_hostSilent hsilent
  have hnoFaultStarted : s.started.ioFails = [] := by simpa [hstarted] using hnoFault
  have hbody := micro_bind_ok
    (addrSet_undisturbed Config.machine (wideAddress addr24) s.started hnoFaultStarted)
    fun _ => (pure {} : Micro Result)
  rw [exec_of_body haccepts hbody, hstarted]
  simp [State.finished, State.nowBusy, State.afterAddrSet, hsilent]

/-- Where the lines show the last driven address, the mask moves them to the new one (R166). -/
theorem addrInvariant_toggle {s : State} (h : AddrInvariant s) (a : Word) :
    s.pin.a ^^^ wired (a ^^^ s.x.lda) = wired a := by
  simpa using addr_after (e := 0#9) (a := a) (by simpa using h)

/-- Settles O18: whatever the lines showed, the mask is the new address against the last driven one;
the lines end at the new address where they showed the last. -/
theorem addrSetDrivesTheAddress : Obligations.AddrSetDrivesTheAddress :=
  fun addr24 _ h haccepting =>
    ⟨exec_addrSet addr24 h haccepting, fun hinv => addrInvariant_toggle hinv (wideAddress addr24)⟩

/-- The mask from an address to itself is zero (R162). -/
theorem afterAddrSet_twice_trace (s : State) (a : Word) :
    ((s.afterAddrSet a).afterAddrSet a).trace =
      .wait (cAs Config.machine) :: .addrToggle 0#32 :: (s.afterAddrSet a).trace := by
  simp [State.afterAddrSet]

/-- The zero mask moves no line (R162). -/
theorem afterAddrSet_twice_pin (s : State) (a : Word) :
    ((s.afterAddrSet a).afterAddrSet a).pin = (s.afterAddrSet a).pin := by
  simp [State.afterAddrSet, wired]

/-- Settles O19: the first `ADDR_SET` leaves a state that accepts the second, and whose last driven
address is the one to be set. -/
theorem repeatedAddrSetTogglesNothing : Obligations.RepeatedAddrSetTogglesNothing := by
  intro addr24 s h haccepting
  have hevents := congrArg List.reverse (afterAddrSet_twice_trace s (wideAddress addr24))
  exact ⟨_, _, exec_addrSet addr24 h haccepting, exec_addrSet addr24 h haccepting,
    by simpa [State.events] using hevents, afterAddrSet_twice_pin s _, rfl⟩

end Sys2Proof.Machine
end

section
/-!
PROOFS. The protocol sequencer: the next state of each of its operations where nothing disturbs it,
the bit a cycle stores or yields, and the totals of the cycles (`42_protocol_sequencer.md` R173 to
R191).
-/

namespace Sys2Proof.Machine

open Sys2Proof.Safety

/-! ### Where the timing is not met

`20_memory.md` R71 with log 9: the device is not reliable, and the bit stored or yielded is the next
free bit. -/

/-- In a state of the invariant the device's verdict on its timing is the premise of R71. -/
theorem reliable_eq_false_of_not_timingMet {s : State} (hinv : Inv s)
    (hmisfit : ¬ TimingMet Config.machine s.dev.least) : s.dev.reliable = false := by
  obtain ⟨-, hverdict⟩ := hinv
  have hnotMet : s.dev.timingMet = false := Bool.eq_false_iff.mpr (hmisfit ∘ hverdict.mp)
  simp [Device.reliable, hnotMet]

theorem cellsAfterWrite_of_not_timingMet {s : State} (hinv : Inv s)
    (hpresent : s.dev.present = true) (hmisfit : ¬ TimingMet Config.machine s.dev.least) (key : Nat)
    (b : Bit) : cellsAfterWrite s key b = Cells.store s.dev.cells key s.freeBit := by
  have hunreliable := reliable_eq_false_of_not_timingMet hinv hmisfit
  simp [cellsAfterWrite, Device.memWriteBit, hpresent, hunreliable]

theorem sampledBit_of_not_timingMet {s : State} (hinv : Inv s) (hpresent : s.dev.present = true)
    (hmisfit : ¬ TimingMet Config.machine s.dev.least) (key : Nat) :
    sampledBit s key = s.freeBit := by
  have hunreliable := reliable_eq_false_of_not_timingMet hinv hmisfit
  simp [sampledBit, Device.memReadBit, hpresent, hunreliable]

/-! ### Where a device answers -/

/-- A reliable device stores the data (`20_memory.md` R66). -/
theorem cellsAfterWrite_of_answers {s : State} (h : Answers s) (key : Nat) (b : Bit) :
    cellsAfterWrite s key b = Cells.store s.dev.cells key b := by
  obtain ⟨hpresent, hreliable⟩ := h
  simp [cellsAfterWrite, Device.memWriteBit, hpresent, hreliable]

/-- A healthy cell of a reliable device yields the bit a write cycle has just stored to it
(`20_memory.md` R66, R70). -/
theorem sampledBit_after_write {s t : State} {key : Nat} {b : Bit} (hanswers : Answers s)
    (hhealthy : NotStuck s.dev key)
    (hdev : t.dev = { s.dev with cells := cellsAfterWrite s key b }) : sampledBit t key = b := by
  rw [cellsAfterWrite_of_answers hanswers] at hdev
  obtain ⟨hpresent, hreliable⟩ := hanswers
  have hreads : t.dev.readCell key = b := by
    simp [hdev, Device.readCell, Device.cell, hhealthy]
  have hpresentAfter : t.dev.present = true := by rw [hdev, hpresent]
  have hreliableAfter : t.dev.reliable = true := by rwa [hdev]
  simp [sampledBit, Device.memReadBit, hpresentAfter, hreliableAfter, hreads]

/-- What the lines show for an address does not depend on the address driven before: the error
pattern stays (`70_reset_and_hazards.md` R303). -/
theorem presented_after {s t : State} {last : Line} (ha : t.pin.a = presented s last)
    (hlda : t.x.lda = lineAddress last) (v : Line) : presented t v = presented s v := by
  rw [presented, ha, hlda]
  exact shown_after _ _ _ _

/-- So the next single-bit cycle at the same place reaches the same cell. -/
theorem targetKey_after {s t : State} {last : Line} (ha : t.pin.a = presented s last)
    (hlda : t.x.lda = lineAddress last) (hlines : t.dev.lines = s.dev.lines) (row col : Line) :
    targetKey t row col = targetKey s row col := by
  rw [targetKey, presented_after ha hlda, presented_after ha hlda, hlines, targetKey]

/-- And the next page-mode cycle in the row still latched. -/
theorem pageKey_after {s t : State} {last : Line} (ha : t.pin.a = presented s last)
    (hlda : t.x.lda = lineAddress last) (hlines : t.dev.lines = s.dev.lines)
    (hlatch : t.dev.rowLatch = s.dev.rowLatch) (col : Line) : pageKey t col = pageKey s col := by
  rw [pageKey, presented_after ha hlda, hlines, hlatch, pageKey]

/-! ### The next state of an operation -/

/-- An accepted operation the host leaves alone runs its micro-operation `m` from the state in which
`BUSY` is set, and makes its result of the value `m` returns. -/
theorem exec_of_micro {α : Type} {m : Micro α} {f : α → Result} {s u : State} {a : α} (i : Instr)
    (hbody : bodyOf Config.machine i = m >>= fun v => pure (f v)) (haccepts : Accepts i s)
    (hsilent : HostSilent s) (hm : m s.nowBusy = .ok a u) :
    exec i s = .next (u.finished (f a)) := by
  refine exec_of_body haccepts ?_
  rw [started_of_hostSilent hsilent, hbody]
  exact micro_bind_ok hm _

/-- Settles O21: `openRow` from high strobes; an absent device had nothing latched and latches
nothing. -/
theorem openRowOpensTheRow : Obligations.OpenRowOpensTheRow := by
  rintro row s ⟨hnoFault, hsilent⟩ ⟨haccepting, hras, hcas, -, hlatch, -⟩
  have hmicro := openRow_undisturbed Config.machine row s.nowBusy hnoFault hras hcas
  rw [exec_of_micro (.openRow row) rfl (accepts_of_accepting rfl rfl haccepting) hsilent hmicro]
  simp [State.finished, State.nowBusy, presented, hsilent, hlatch]

/-- Settles O22: `strobeColumn` with the write enable high, from an open row back to an open row. -/
theorem strobeColChangesNoCell : Obligations.StrobeColChangesNoCell := by
  rintro col s ⟨hnoFault, hsilent⟩ ⟨haccepting, -, hcas, hwe, hlatch, hdrive⟩
  have ⟨_, _, hseq⟩ := haccepting
  have hmicro := strobeColumn_read_undisturbed Config.machine col s.nowBusy hnoFault hcas hwe hdrive
    hlatch
  rw [exec_of_micro (.strobeCol col) rfl (accepts_of_accepting rfl rfl haccepting) hsilent hmicro]
  simp [State.finished, State.nowBusy, presented, drawsOfStrobe, hsilent, hseq]

/-- Settles O23: `closeRow`; the device did not drive before. -/
theorem closeRowReleasesTheRow : Obligations.CloseRowReleasesTheRow := by
  rintro s ⟨hnoFault, hsilent⟩ ⟨haccepting, -, -, -, hlatch, hdrive⟩
  have hnothingLatched : s.dev.present = false → s.dev.rowLatch = none := fun habsent => by
    simpa using hlatch.trans habsent
  have hmicro := closeRow_undisturbed Config.machine s.nowBusy hnoFault
    fun habsent => ⟨hnothingLatched habsent, hdrive⟩
  rw [exec_of_micro .closeRow rfl (accepts_of_accepting rfl rfl haccepting) hsilent hmicro]
  simp [State.finished, State.nowBusy, hsilent, hdrive]

/-- Settles O24: `pageWrite` in an open row; the write enable ends high, as it was. -/
theorem pageWriteWritesTheCell : Obligations.PageWriteWritesTheCell := by
  refine ⟨?_, fun col b s hinv hpresent hmisfit =>
    cellsAfterWrite_of_not_timingMet hinv hpresent hmisfit (pageKey s col) b⟩
  rintro col b s ⟨hnoFault, hsilent⟩ ⟨haccepting, -, hcas, hwe, hlatch, hdrive⟩
  have ⟨_, _, hseq⟩ := haccepting
  have hmicro := pageWrite_undisturbed Config.machine col b s.nowBusy hnoFault hcas hdrive hlatch
  rw [exec_of_micro (.pageWrite col b) rfl (accepts_of_accepting rfl rfl haccepting) hsilent hmicro]
  simp [State.finished, State.nowBusy, presented, drawsOfStrobe, cellsAfterWrite, pageKey,
    State.freeBit, State.freeWord, hsilent, hwe, hseq]

/-- Settles O25: `pageRead` in an open row yields the bit that becomes the result. -/
theorem pageReadSamplesTheCell : Obligations.PageReadSamplesTheCell := by
  refine ⟨?_, fun col s hinv hpresent hmisfit =>
    sampledBit_of_not_timingMet hinv hpresent hmisfit (pageKey s col)⟩
  rintro col s ⟨hnoFault, hsilent⟩ ⟨haccepting, -, hcas, hwe, hlatch, hdrive⟩
  have ⟨_, _, hseq⟩ := haccepting
  have hmicro := pageRead_undisturbed Config.machine col s.nowBusy hnoFault hcas hwe hdrive hlatch
  rw [exec_of_micro (.pageRead col) rfl (accepts_of_accepting rfl rfl haccepting) hsilent hmicro]
  simp [State.finished, State.nowBusy, presented, drawsOfRead, sampledBit, pageKey, State.freeBit,
    State.freeWord, hsilent, hseq]

/-- Settles O26: `writeBitEarly` opens the row, writes and closes it; the write enable ends high, as
it was. -/
theorem writeBitEarlyWritesTheCell : Obligations.WriteBitEarlyWritesTheCell := by
  refine ⟨?_, fun row col b s hinv hpresent hmisfit =>
    cellsAfterWrite_of_not_timingMet hinv hpresent hmisfit (targetKey s row col) b⟩
  rintro row col b s ⟨hnoFault, hsilent⟩ ⟨haccepting, hras, hcas, hwe, hlatch, hdrive⟩
  have ⟨_, _, hseq⟩ := haccepting
  have hmicro := writeBitEarly_undisturbed Config.machine row col b s.nowBusy hnoFault hras hcas
    hlatch hdrive
  rw [exec_of_micro (.writeBitEarly row col b) rfl (accepts_of_accepting rfl rfl haccepting) hsilent
    hmicro]
  simp [State.finished, State.nowBusy, presented, drawsOfStrobe, cellsAfterWrite, targetKey,
    State.freeBit, State.freeWord, hsilent, hwe, hseq]

/-- Settles O27: `readBit` opens the row, samples and closes it; the bit becomes the result. -/
theorem readBitSamplesTheCell : Obligations.ReadBitSamplesTheCell := by
  refine ⟨?_, fun row col s hinv hpresent hmisfit =>
    sampledBit_of_not_timingMet hinv hpresent hmisfit (targetKey s row col)⟩
  rintro row col s ⟨hnoFault, hsilent⟩ ⟨haccepting, hras, hcas, hwe, hlatch, hdrive⟩
  have ⟨_, _, hseq⟩ := haccepting
  have hmicro := readBit_undisturbed Config.machine row col s.nowBusy hnoFault hras hcas hwe hlatch
    hdrive
  rw [exec_of_micro (.readBit row col) rfl (accepts_of_accepting rfl rfl haccepting) hsilent hmicro]
  simp [State.finished, State.nowBusy, presented, drawsOfRead, sampledBit, targetKey, State.freeBit,
    State.freeWord, hsilent, hseq]

/-! ### A bit written is read back -/

theorem sampledBit_after_writeBitEarly {s t : State} {row col : Line} {b : Bit}
    (hanswers : Answers s) (hhealthy : NotStuck s.dev (targetKey s row col))
    (ha : t.pin.a = presented s col) (hlda : t.x.lda = lineAddress col)
    (hdev : t.dev = { s.dev with cells := cellsAfterWrite s (targetKey s row col) b }) :
    sampledBit t (targetKey t row col) = b := by
  rw [targetKey_after ha hlda (by rw [hdev]), sampledBit_after_write hanswers hhealthy hdev]

theorem sampledBit_after_pageWrite {s t : State} {col : Line} {b : Bit} (hanswers : Answers s)
    (hhealthy : NotStuck s.dev (pageKey s col)) (ha : t.pin.a = presented s col)
    (hlda : t.x.lda = lineAddress col)
    (hdev : t.dev = { s.dev with cells := cellsAfterWrite s (pageKey s col) b }) :
    sampledBit t (pageKey t col) = b := by
  rw [pageKey_after ha hlda (by rw [hdev]) (by rw [hdev]),
    sampledBit_after_write hanswers hhealthy hdev]

/-- Settles O28: the write of each pair leaves the machine ready for the read, which reaches the
cell written. -/
theorem writtenBitReadsBack : Obligations.WrittenBitReadsBack := by
  refine ⟨fun row col b s h hready hanswers hhealthy => ?_,
    fun col b s h hready hanswers hhealthy => ?_, fun row col s haddr => ?_⟩
  · exact ⟨_, _, writeBitEarlyWritesTheCell.1 row col b s h hready,
      readBitSamplesTheCell.1 row col _ h hready,
      sampledBit_after_writeBitEarly hanswers hhealthy rfl rfl rfl⟩
  · exact ⟨_, _, pageWriteWritesTheCell.1 col b s h hready,
      pageReadSamplesTheCell.1 col _ h hready,
      sampledBit_after_pageWrite hanswers hhealthy rfl rfl rfl⟩
  · rw [targetKey, presented_of_invariant s row haddr, presented_of_invariant s col haddr]

/-! ### The totals of the cycles -/

/-- Events put in front of a trace, newest first, come after the events before. -/
theorem events_append_of_trace {s t : State} {new : List Event}
    (h : t.trace = new.reverse ++ s.trace) : t.events = s.events ++ new := by
  simp [State.events, h]

@[simp] theorem waitCycles_nil : waitCycles [] = 0 := rfl

@[simp] theorem waitCycles_cons (e : Event) (rest : List Event) :
    waitCycles (e :: rest) = e.waitCycles + waitCycles rest := by
  simp [waitCycles]

/-- Settles O29: the event lists of the four operations, counted and added up (R191). -/
theorem cycleTotals : Obligations.CycleTotals := by
  refine ⟨fun col b s h hready => ?_, fun row col b s h hready => ?_⟩
  · refine ⟨_, _, _, _, pageWriteWritesTheCell.1 col b s h hready, events_append_of_trace rfl, rfl,
      rfl, ?_, pageReadSamplesTheCell.1 col s h hready, events_append_of_trace rfl, rfl, rfl, ?_⟩ <;>
    · simp only [waitCycles_cons, waitCycles_nil, Event.waitCycles]
      omega
  · refine ⟨_, _, _, _, writeBitEarlyWritesTheCell.1 row col b s h hready,
      events_append_of_trace rfl, rfl, rfl, ?_, readBitSamplesTheCell.1 row col s h hready,
      events_append_of_trace rfl, rfl, rfl, ?_⟩ <;>
    · simp only [waitCycles_cons, waitCycles_nil, Event.waitCycles]
      omega

end Sys2Proof.Machine
end

section
/-!
PROOFS. `INIT`: the state it leaves where nothing disturbs it, and what it leaves alone whatever the
environment answers (`43_init_and_detection.md` R200 to R202).
-/

namespace Sys2Proof.Machine

open Sys2Proof.Safety
open Sys2Proof.Config (Params)

/-! ### Where nothing disturbs it -/

/-- The events of one precharge pulse (R200). -/
def pulseEvents (K : Params) : List Event :=
  [.pin .rasN false, .wait (cRas K), .pin .rasN true, .wait (cRp K)]

/-- Precharge pulses one after the other: each leaves the pins and the device as the next needs
them (R200, R201). -/
theorem times_prechargePulse_undisturbed (K : Params) (n : Nat) (s : State) (h : s.ioFails = [])
    (hr : s.pin.rasN = true) (hc : s.pin.casN = true)
    (hl : s.dev.present = true → s.dev.rowLatch = none)
    (hd : s.dev.present = true → s.dev.drive = none) :
    times (n + 1) (prechargePulse K) s = .ok () { s with
      x.dcnt := 0
      trace := (List.replicate (n + 1) (pulseEvents K)).flatten.reverse ++ s.trace } := by
  induction n generalizing s with
  | zero =>
    rw [times, micro_bind_ok (prechargePulse_undisturbed K s h hr hc hl hd)]
    rfl
  | succ n ih =>
    rw [times, micro_bind_ok (prechargePulse_undisturbed K s h hr hc hl hd)]
    refine (ih _ (by exact h) (by exact hr) (by exact hc) (by exact hl) (by exact hd)).trans ?_
    rw [List.replicate_succ (n := n + 1), List.flatten_cons, List.reverse_append, List.append_assoc]
    rfl

/-- The first four events of `INIT` from any state: no pin is raised outside the protocol, and a
present device is released by the two strobes (R201). -/
theorem initPins_undisturbed {α : Type} (f : Micro α) (s : State) (h : s.ioFails = []) :
    (do pin .weN true; pin .casN true; pin .rasN true; pin .din false; f) s = f { s with
      pin.rasN := true
      pin.casN := true
      pin.weN := true
      pin.din := false
      dev.rowLatch := if s.dev.present then none else s.dev.rowLatch
      dev.drive := if s.dev.present then none else s.dev.drive
      trace := .pin .din false :: .pin .rasN true :: .pin .casN true :: .pin .weN true
        :: s.trace } := by
  rw [micro_bind_ok (pin_undisturbed .weN true _ h (stray_rise _ _ _)),
    micro_bind_ok (pin_undisturbed .casN true _ (by exact h) (stray_rise _ _ _)),
    micro_bind_ok (pin_undisturbed .rasN true _ (by exact h) (stray_rise _ _ _)),
    micro_bind_ok (pin_undisturbed .din false _ (by exact h) (stray_din _ _ _))]
  congr 1
  obtain ⟨p, x, q, st, res, ⟨pres, l, stu, le, tm, up, cs, rl, dr⟩, tr, ho, ov, rd, io, fn⟩ := s
  cases pres <;>
    simp [State.pinAt, State.emit, Pins.drive, Device.react, Device.casRise, Device.rasRise,
      Device.reactDraws]

/-- The body of `INIT`: the four pin events leave any device as the eight pulses need it. -/
theorem initBody_undisturbed (K : Params) (s : State) (h : s.ioFails = []) :
    initBody K s = .ok {} { s with
      pin.rasN := true
      pin.casN := true
      pin.weN := true
      pin.din := false
      x.dcnt := 0
      seq := .idle
      status.inited := true
      status.fault := false
      dev.rowLatch := if s.dev.present then none else s.dev.rowLatch
      dev.drive := if s.dev.present then none else s.dev.drive
      trace := (List.replicate 8 (pulseEvents K)).flatten.reverse
        ++ .pin .din false :: .pin .rasN true :: .pin .casN true :: .pin .weN true :: s.trace } := by
  rw [initBody, initPins_undisturbed _ _ h, micro_bind_ok (setSeq_apply _ _),
    micro_bind_ok (times_prechargePulse_undisturbed K 7 _ (by exact h) rfl rfl
      (by exact fun hp => if_pos hp) (by exact fun hp => if_pos hp))]
  rfl

/-- Settles O30: `INIT` is accepted in every state, and its body runs undisturbed. -/
theorem initAlwaysCompletes : Obligations.InitAlwaysCompletes := by
  rintro s ⟨hnoFault, hsilent⟩
  have hbody : bodyOf Config.machine .init s.started = _ :=
    (congrArg _ (started_of_hostSilent hsilent)).trans (initBody_undisturbed _ s.nowBusy hnoFault)
  rw [exec_of_body ⟨rfl, .inl rfl⟩ hbody]
  cases hp : s.dev.present <;> simp [State.finished, State.nowBusy, pulseEvents, hsilent, hp]

/-! ### Whatever the environment answers -/

/-- What no part of `INIT` touches: the address lines, the working registers but the delay counter,
and the sticky bits of the status (R202). -/
def State.initFrame (s : State) : Line × Regs × Bit × Bit × Option FaultCode :=
  (s.pin.a, { s.x with dcnt := 0 }, s.status.overrun, s.status.faultSeen, s.status.faultCode)

/-- Two states that agree on it. -/
def SameInitFrame (s t : State) : Prop := t.initFrame = s.initFrame

theorem Stays.bind {R : State → State → Prop} (trans : ∀ s t u, R s t → R t u → R s u)
    {α β : Type} {m : Micro α} {f : α → Micro β} (h : Stays R α m) (hf : ∀ a, Stays R β (f a)) :
    Stays R β (m >>= f) := by
  intro s
  have hm := h s
  unfold reached at hm ⊢
  rw [micro_bind]
  cases hms : m s with
  | ok a t =>
    rw [hms] at hm
    exact trans _ _ _ hm (hf a t)
  | error e t => rwa [hms] at hm

theorem SameInitFrame.bind {α β : Type} {m : Micro α} {f : α → Micro β}
    (h : Stays SameInitFrame α m) (hf : ∀ a, Stays SameInitFrame β (f a)) :
    Stays SameInitFrame β (m >>= f) :=
  Stays.bind (R := SameInitFrame) (fun _ _ _ hst htu => Eq.trans htu hst) h hf

/-- A failed pin event leaves it alone. -/
theorem State.pinFailed_initFrame (s : State) (sig : Signal) :
    (s.pinFailed sig).initFrame = s.initFrame := by
  unfold State.pinFailed
  split <;> simp [State.initFrame]

/-- A pin event leaves it alone, also where it fails or is refused. -/
theorem pin_sameInitFrame (sig : Signal) (v : Bit) : Stays SameInitFrame Unit (pin sig v) := by
  have hok : Stays SameInitFrame Unit (pinOk sig v) := by
    intro s
    unfold reached pinOk
    cases s.dev.stray s.pin sig v with
    | none => simp [SameInitFrame, State.initFrame]
    | some e => rfl
  intro s
  unfold reached pin ioPoint
  cases s.ioFails with
  | nil => exact hok s
  | cons n later =>
    cases n with
    | zero => exact State.pinFailed_initFrame (s.withIoFails later) sig
    | succ n => exact hok (s.withIoFails (n :: later))

theorem prechargePulse_sameInitFrame (K : Params) :
    Stays SameInitFrame Unit (prechargePulse K) :=
  SameInitFrame.bind (pin_sameInitFrame _ _) fun _ => SameInitFrame.bind (fun _ => rfl) fun _ =>
    SameInitFrame.bind (pin_sameInitFrame _ _) fun _ _ => rfl

theorem times_sameInitFrame {m : Micro Unit} (h : Stays SameInitFrame Unit m) (n : Nat) :
    Stays SameInitFrame Unit (times n m) := by
  induction n with
  | zero => exact fun _ => rfl
  | succ n ih => exact SameInitFrame.bind h fun _ => ih

theorem initBody_sameInitFrame (K : Params) : Stays SameInitFrame Result (initBody K) :=
  SameInitFrame.bind (pin_sameInitFrame _ _) fun _ =>
    SameInitFrame.bind (pin_sameInitFrame _ _) fun _ =>
    SameInitFrame.bind (pin_sameInitFrame _ _) fun _ =>
    SameInitFrame.bind (pin_sameInitFrame _ _) fun _ => SameInitFrame.bind (fun _ => rfl) fun _ =>
    SameInitFrame.bind (times_sameInitFrame (prechargePulse_sameInitFrame K) 8) fun _ =>
    SameInitFrame.bind (fun _ => rfl) fun _ _ => rfl

/-- A host that writes no `CMD` meanwhile does not set `OVERRUN` either. -/
theorem started_sameInitFrame {s : State} (h : HostWaits s) : SameInitFrame s s.started := by
  obtain ⟨rd, hstarted⟩ := started_eq s
  have hnone : s.overlap.any isCommand = false := by simpa using h
  simp [SameInitFrame, State.initFrame, hstarted, hnone]

/-- The frame, field by field, between two states in which no wait is in progress. -/
theorem SameInitFrame.fields {s t : State} (h : SameInitFrame s t) (hs : s.x.dcnt = 0)
    (ht : t.x.dcnt = 0) : t.pin.a = s.pin.a ∧ t.x = s.x ∧ t.status.overrun = s.status.overrun ∧
      t.status.faultSeen = s.status.faultSeen ∧ t.status.faultCode = s.status.faultCode := by
  simp only [SameInitFrame, State.initFrame, Prod.mk.injEq] at h
  obtain ⟨ha, hx, hstatus⟩ := h
  refine ⟨ha, ?_, hstatus⟩
  calc t.x = { t.x with dcnt := 0 } := by rw [← ht]
    _ = { s.x with dcnt := 0 } := hx
    _ = s.x := by rw [← hs]

/-- `INIT` stores to no cell, whatever the environment answers (log 10). -/
theorem init_keeps_cells {s t : State} (hs : Inv s) (h : exec .init s = .next t) :
    t.dev.cells = s.dev.cells := by
  obtain ⟨u, hu, -, hcells⟩ :=
    exec_sound (i := .init) (G := (· = s.dev.cells)) hs rfl fun _ hk => hk.elim
  obtain rfl : u = t := by simpa [hu] using h
  exact hcells

/-- Settles O31: the body leaves the frame alone however it ends. Its normal end leaves the record of
faults alone too, and a fault, which does not, leaves `FAULT` set. -/
theorem initLeavesTheRest : Obligations.InitLeavesTheRest := by
  intro s t hinv hwaits h
  have ⟨⟨⟨_, hdcnt⟩, _⟩, _⟩ := hinv
  have ⟨⟨⟨_, hdcntAfter⟩, _⟩, _⟩ := keepsInv_exec h hinv
  have hcells := init_keeps_cells hinv h
  have hframe : SameInitFrame s (reached (initBody Config.machine) s.started) :=
    Eq.trans (initBody_sameInitFrame _ s.started) (started_sameInitFrame hwaits)
  obtain ⟨hne, -⟩ | ⟨-, ⟨r, u, hbody, rfl⟩ | ⟨u, hbody, rfl⟩⟩ := exec_cases h
  · exact absurd rfl hne
  all_goals
    rw [reached, show initBody Config.machine s.started = _ from hbody] at hframe
    obtain ⟨ha, hx, hoverrun, hrecord⟩ := hframe.fields hdcnt hdcntAfter
  · exact ⟨ha, hx, hcells, hoverrun, fun _ => hrecord⟩
  · exact ⟨ha, hx, hcells, hoverrun, nofun⟩

end Sys2Proof.Machine
end

section
/-!
PROOFS. The two detections are single-bit cycles one after the other. A cycle from an idle state leaves
an idle state, so what a detection does is put together cycle by cycle; its answers and what it leaves
in the cells are read off from the cells it wrote (`43_init_and_detection.md` R203 to R209).
-/

namespace Sys2Proof.Machine

open Sys2Proof.Safety
open Sys2Proof.Config (Params DevLines)

/-! ### Single-bit cycles one after the other -/

/-- The events of `writeBitEarly(row, col, b)` after an address `lda` (R183). -/
def writeBitEvents (K : Params) (lda : Word) (row col : Line) (b : Bit) : List Event :=
  [.pin .weN false, .pin .din b, .addrToggle (lineAddress row ^^^ lda), .wait (cAs K),
    .pin .rasN false, .wait (cRcd K), .addrToggle (lineAddress col ^^^ lineAddress row),
    .wait (cAs K), .pin .casN false, .wait (cCas K), .pin .casN true, .wait (cRest K),
    .pin .rasN true, .wait (cRp K), .pin .weN true]

/-- The events of `readBit(row, col)` after an address `lda`, where it samples `v` (R185). -/
def readBitEvents (K : Params) (lda : Word) (row col : Line) (v : Bit) : List Event :=
  [.addrToggle (lineAddress row ^^^ lda), .wait (cAs K), .pin .rasN false, .wait (cRcd K),
    .addrToggle (lineAddress col ^^^ lineAddress row), .wait (cAs K), .pin .casN false,
    .wait (cCas K), .wait (cXs K), .sample v, .pin .casN true, .wait (cRest K), .pin .rasN true,
    .wait (cRp K)]

@[simp] theorem writeBitEvents_length (K : Params) (lda : Word) (row col : Line) (b : Bit) :
    (writeBitEvents K lda row col b).length = 15 := rfl

@[simp] theorem readBitEvents_length (K : Params) (lda : Word) (row col : Line) (v : Bit) :
    (readBitEvents K lda row col v).length = 14 := rfl

@[simp] theorem otherEvents_writeBitEvents (K : Params) (lda : Word) (row col : Line) (b : Bit) :
    otherEvents (writeBitEvents K lda row col b) = 9 := rfl

@[simp] theorem otherEvents_readBitEvents (K : Params) (lda : Word) (row col : Line) (v : Bit) :
    otherEvents (readBitEvents K lda row col v) = 7 := rfl

@[simp] theorem waitCycles_writeBitEvents (K : Params) (lda : Word) (row col : Line) (b : Bit) :
    waitCycles (writeBitEvents K lda row col b) = writeBitWaits K := by
  simp only [writeBitEvents, waitCycles_cons, waitCycles_nil, Event.waitCycles, writeBitWaits]
  omega

@[simp] theorem waitCycles_readBitEvents (K : Params) (lda : Word) (row col : Line) (v : Bit) :
    waitCycles (readBitEvents K lda row col v) = readBitWaits K := by
  simp only [readBitEvents, waitCycles_cons, waitCycles_nil, Event.waitCycles, readBitWaits]
  omega

@[simp] theorem otherEvents_append (l m : List Event) :
    otherEvents (l ++ m) = otherEvents l + otherEvents m := by
  simp [otherEvents]

@[simp] theorem waitCycles_append (l m : List Event) :
    waitCycles (l ++ m) = waitCycles l + waitCycles m := by
  simp [waitCycles]

/-- The state single-bit cycles with the events `new` leave, the last of them at column `last`. -/
def State.cycled (s : State) (last : Line) (din : Bit) (cells : Cells) (freeNo : Nat)
    (new : List Event) : State :=
  { s with
    pin.a := presented s last
    pin.din := din
    x.lda := lineAddress last
    x.dcnt := 0
    dev.cells := cells
    freeNo := freeNo
    trace := new.reverse ++ s.trace }

section Cycled

variable (s : State) (last : Line) (din : Bit) (cells : Cells) (n : Nat) (new : List Event)

@[simp] theorem presented_cycled (v : Line) :
    presented (s.cycled last din cells n new) v = presented s v :=
  presented_after (last := last) rfl rfl v

@[simp] theorem targetKey_cycled (row col : Line) :
    targetKey (s.cycled last din cells n new) row col = targetKey s row col :=
  targetKey_after (s := s) (t := s.cycled last din cells n new) (last := last) rfl rfl rfl row col

/-- Cycles after cycles are cycles. -/
@[simp] theorem cycled_cycled (last' : Line) (din' : Bit) (cells' : Cells) (n' : Nat)
    (new' : List Event) : (s.cycled last din cells n new).cycled last' din' cells' n' new' =
      s.cycled last' din' cells' n' (new ++ new') := by
  rw [State.cycled, presented_cycled]
  simp [State.cycled]

/-- How the operation ends that ran them. -/
theorem cycled_finished {s : State} (h : HostSilent s) (r : Result) :
    (s.nowBusy.cycled last din cells n new).finished r = { s with
      pin.a := presented s last
      pin.din := din
      x.lda := lineAddress last
      x.dcnt := 0
      status.busy := false
      status.done := true
      result := r
      dev.cells := cells
      freeNo := n
      trace := new.reverse ++ s.trace } := by
  simp [State.cycled, State.finished, State.nowBusy, presented, h]

end Cycled

/-- Idle, with nothing to disturb the cycles to come; they touch nothing of it, so it holds after
them by definition. -/
abbrev AtIdle (s : State) : Prop :=
  NoIoFault s ∧ s.seq = .idle ∧ s.pin.rasN = true ∧ s.pin.casN = true ∧ s.pin.weN = true ∧
    s.dev.rowLatch = none ∧ s.dev.drive = none

theorem atIdle_nowBusy {s : State} (h : Undisturbed s) (hready : ReadyIdle s) :
    AtIdle s.nowBusy := by
  obtain ⟨⟨-, -, hseq⟩, hpins⟩ := hready
  exact ⟨h.1, hseq, hpins⟩

/-- The state `writeBitEarly(row, col, b)` leaves from idle (R183). -/
def State.bitWritten (s : State) (K : Params) (row col : Line) (b : Bit) : State :=
  s.cycled col b (cellsAfterWrite s (targetKey s row col) b) (s.freeNo + drawsOfStrobe s)
    (writeBitEvents K s.x.lda row col b)

/-- The state `readBit(row, col)` leaves from idle (R185). -/
def State.bitRead (s : State) (K : Params) (row col : Line) : State :=
  s.cycled col s.pin.din s.dev.cells (s.freeNo + drawsOfRead s)
    (readBitEvents K s.x.lda row col (sampledBit s (targetKey s row col)))

@[simp] theorem targetKey_bitWritten (s : State) (K : Params) (row col : Line) (b : Bit)
    (row' col' : Line) : targetKey (s.bitWritten K row col b) row' col' = targetKey s row' col' :=
  targetKey_cycled ..

theorem writeBitEarly_atIdle (K : Params) (row col : Line) (b : Bit) {s : State} (h : AtIdle s) :
    writeBitEarly K row col b s = .ok () (s.bitWritten K row col b) := by
  obtain ⟨hnoFault, hseq, hras, hcas, hwe, hlatch, hdrive⟩ := h
  rw [writeBitEarly_undisturbed K row col b s hnoFault hras hcas hlatch hdrive]
  simp [State.bitWritten, State.cycled, writeBitEvents, hwe, hseq]

theorem readBit_atIdle (K : Params) (row col : Line) {s : State} (h : AtIdle s) :
    readBit K row col s = .ok (sampledBit s (targetKey s row col)) (s.bitRead K row col) := by
  obtain ⟨hnoFault, hseq, hras, hcas, hwe, hlatch, hdrive⟩ := h
  rw [readBit_undisturbed K row col s hnoFault hras hcas hwe hlatch hdrive]
  simp [State.bitRead, State.cycled, readBitEvents, hseq]

/-! ### What the cells hold and what a read of them samples -/

theorem lookup_cellsAfterWrite_of_ne (s : State) {key k : Nat} (b : Bit) (h : k ≠ key) :
    Cells.lookup (cellsAfterWrite s key b) k = Cells.lookup s.dev.cells k := by
  unfold cellsAfterWrite
  split
  · exact Cells.lookup_store_other _ _ h
  · rfl

theorem lookup_cellsAfterWrite_same {s : State} (h : Answers s) (key : Nat) (b : Bit) :
    Cells.lookup (cellsAfterWrite s key b) key = some b := by
  rw [cellsAfterWrite_of_answers h, Cells.lookup_store_same]

theorem cellsAfterWrite_of_absent {s : State} (h : s.dev.present = false) (key : Nat) (b : Bit) :
    cellsAfterWrite s key b = s.dev.cells := by
  simp [cellsAfterWrite, h]

/-- A stuck cell reads as its stuck value, another as the bit it holds; where no reliable device
answers, the sample is free (`20_memory.md` R66, R68 to R71). -/
theorem sampledBit_of_lookup {s : State} {key : Nat} {b : Bit}
    (h : Answers s → Cells.lookup s.dev.cells key = some b) :
    sampledBit s key = if s.dev.present && s.dev.reliable then
      (Cells.lookup s.dev.stuck key).getD b else s.freeBit := by
  cases hpresent : s.dev.present
  · simp [sampledBit, hpresent]
  · cases hreliable : s.dev.reliable
    · simp [sampledBit, Device.memReadBit, hpresent, hreliable]
    · simp [sampledBit, Device.memReadBit, Device.readCell, Device.cell, hpresent, hreliable,
        h ⟨hpresent, hreliable⟩]

/-! ### `IS_PRESENT` -/

/-- One half of the presence probe: cell (0, 0) is written and read (R203). -/
def probe (K : Params) (b : Bit) : Micro Bit := do
  writeBitEarly K 0#9 0#9 b
  readBit K 0#9 0#9

theorem isWorking_eq (K : Params) : isWorking K = (do
    let s1 ← probe K false
    if s1 then return false else probe K true) := by
  simp only [isWorking, probe, bind_assoc]

/-- The bit a half samples: what a cell just written `b` reads as, or a free bit. -/
def probeAnswer (s : State) (b : Bit) : Bit :=
  if s.dev.present && s.dev.reliable then
    (Cells.lookup s.dev.stuck (targetKey s 0#9 0#9)).getD b
  else (Config.freeWord (s.freeNo + drawsOfStrobe s)).getLsbD 0

/-- The state after a half. -/
def State.probed (s : State) (K : Params) (b : Bit) : State :=
  (s.bitWritten K 0#9 0#9 b).bitRead K 0#9 0#9

theorem sampledBit_bitWritten (s : State) (K : Params) (b : Bit) :
    sampledBit (s.bitWritten K 0#9 0#9 b) (targetKey s 0#9 0#9) = probeAnswer s b :=
  sampledBit_of_lookup (s := s.bitWritten K 0#9 0#9 b)
    fun h => lookup_cellsAfterWrite_same (s := s) h (targetKey s 0#9 0#9) b

theorem probe_atIdle (K : Params) (b : Bit) {s : State} (h : AtIdle s) :
    probe K b s = .ok (probeAnswer s b) (s.probed K b) := by
  rw [probe, micro_bind_ok (writeBitEarly_atIdle K _ _ b h), readBit_atIdle K _ _ (by exact h),
    targetKey_bitWritten, sampledBit_bitWritten, State.probed]

theorem firstAnswer_eq (s : State) : firstAnswer s = probeAnswer s false := rfl

@[simp] theorem targetKey_probed (s : State) (K : Params) (b : Bit) (row col : Line) :
    targetKey (s.probed K b) row col = targetKey s row col :=
  (targetKey_cycled ..).trans (targetKey_bitWritten ..)

/-- The second half starts from the state the first one left. -/
theorem secondAnswer_eq (s : State) (K : Params) :
    secondAnswer s = probeAnswer (s.probed K false) true := by
  have hfree : s.freeNo + 2 * drawsOfStrobe s + drawsOfRead s =
      s.freeNo + drawsOfStrobe s + drawsOfRead s + drawsOfStrobe s := by omega
  rw [secondAnswer, hfree, probeAnswer, targetKey_probed]
  rfl

/-- The probe ends after its first half where that samples a 1 (R203). -/
theorem isWorking_atIdle (K : Params) {s : State} (h : AtIdle s) :
    isWorking K s = .ok (!firstAnswer s && secondAnswer s)
      (if firstAnswer s then s.probed K false else (s.probed K false).probed K true) := by
  rw [isWorking_eq, micro_bind_ok (probe_atIdle K false h), ← firstAnswer_eq, secondAnswer_eq s K]
  cases firstAnswer s
  · exact probe_atIdle K true h
  · rfl

/-- The events of a half after an address `lda`, where it samples `v`. -/
def probeEvents (K : Params) (lda : Word) (b v : Bit) : List Event :=
  writeBitEvents K lda 0#9 0#9 b ++ readBitEvents K (lineAddress 0#9) 0#9 0#9 v

@[simp] theorem probeEvents_length (K : Params) (lda : Word) (b v : Bit) :
    (probeEvents K lda b v).length = 29 := by
  simp [probeEvents]

@[simp] theorem otherEvents_probeEvents (K : Params) (lda : Word) (b v : Bit) :
    otherEvents (probeEvents K lda b v) = 16 := by
  simp [probeEvents]

@[simp] theorem waitCycles_probeEvents (K : Params) (lda : Word) (b v : Bit) :
    waitCycles (probeEvents K lda b v) = writeBitWaits K + readBitWaits K := by
  simp [probeEvents]

/-- A half is two cycles. -/
theorem probed_eq (s : State) (K : Params) (b : Bit) : s.probed K b =
    s.cycled 0#9 b (cellsAfterWrite s (targetKey s 0#9 0#9) b)
      (s.freeNo + drawsOfStrobe s + drawsOfRead s) (probeEvents K s.x.lda b (probeAnswer s b)) := by
  rw [State.probed, State.bitRead, targetKey_bitWritten, sampledBit_bitWritten]
  exact cycled_cycled ..

/-- Both halves are four cycles. -/
theorem probed_probed (s : State) (K : Params) : (s.probed K false).probed K true =
    s.cycled 0#9 true (cellsAfterWrite (s.probed K false) (targetKey s 0#9 0#9) true)
      ((s.probed K false).freeNo + drawsOfStrobe s + drawsOfRead s)
      (probeEvents K s.x.lda false (firstAnswer s) ++
        probeEvents K (lineAddress 0#9) true (secondAnswer s)) := by
  rw [probed_eq (s.probed K false), targetKey_probed, ← secondAnswer_eq]
  conv_lhs => rw [probed_eq s]
  exact cycled_cycled ..

/-- What writes of one cell leave, the last of them of `b`: the other cells as they were, `b` where a
reliable device answers, and all as it was where no device is present. -/
def WroteOnly (s : State) (key : Nat) (b : Bit) (cells : Cells) : Prop :=
  (∀ k, k ≠ key → Cells.lookup cells k = Cells.lookup s.dev.cells k) ∧
    (Answers s → Cells.lookup cells key = some b) ∧
    (s.dev.present = false → cells = s.dev.cells)

theorem wroteOnly_probed (s : State) (K : Params) (b : Bit) :
    WroteOnly s (targetKey s 0#9 0#9) b (s.probed K b).dev.cells :=
  ⟨fun _ => lookup_cellsAfterWrite_of_ne s b, fun h => lookup_cellsAfterWrite_same h _ b,
    fun h => cellsAfterWrite_of_absent h _ b⟩

/-- The second half writes the cell of the first. -/
theorem wroteOnly_probed_probed (s : State) (K : Params) : WroteOnly s (targetKey s 0#9 0#9) true
    (cellsAfterWrite (s.probed K false) (targetKey s 0#9 0#9) true) := by
  obtain ⟨hframe, -, habsent⟩ := wroteOnly_probed s K false
  exact ⟨fun k hk => (lookup_cellsAfterWrite_of_ne _ _ hk).trans (hframe k hk),
    fun h => lookup_cellsAfterWrite_same (s := s.probed K false) h _ _,
    fun h => (cellsAfterWrite_of_absent (s := s.probed K false) h _ _).trans (habsent h)⟩

@[simp] theorem firstAnswer_nowBusy (s : State) : firstAnswer s.nowBusy = firstAnswer s := rfl

@[simp] theorem secondAnswer_nowBusy (s : State) : secondAnswer s.nowBusy = secondAnswer s := rfl

/-- Settles O32: the probe runs from idle, and ends after one half or after both. -/
theorem isPresentRunsTheProbe : Obligations.IsPresentRunsTheProbe := by
  intro s h hready
  have hmicro := isWorking_atIdle Config.machine (atIdle_nowBusy h hready)
  rw [exec_of_micro .isPresent rfl (accepts_of_accepting rfl rfl hready.1) h.2 hmicro,
    firstAnswer_nowBusy, secondAnswer_nowBusy]
  cases firstAnswer s
  · rw [if_neg Bool.false_ne_true, probed_probed, cycled_finished _ _ _ _ _ h.2]
    refine ⟨_, _, _, rfl, ?_, ?_, ?_, wroteOnly_probed_probed s.nowBusy Config.machine⟩
    · simp
    · simp
    · simp [Nat.two_mul]
  · rw [if_pos rfl, probed_eq, cycled_finished _ _ _ _ _ h.2]
    refine ⟨_, _, _, rfl, ?_, ?_, ?_, wroteOnly_probed s.nowBusy Config.machine false⟩ <;> simp

/-- What the first half samples of a reliable device. -/
theorem firstAnswer_of_answers {s : State} (h : Answers s) :
    firstAnswer s = (Cells.lookup s.dev.stuck (targetKey s 0#9 0#9)).getD false := by
  simp [firstAnswer, h.1, h.2]

theorem secondAnswer_of_answers {s : State} (h : Answers s) :
    secondAnswer s = (Cells.lookup s.dev.stuck (targetKey s 0#9 0#9)).getD true := by
  simp [secondAnswer, h.1, h.2]

/-- With no device the two samples are the next two free values. -/
theorem firstAnswer_of_absent {s : State} (h : s.dev.present = false) :
    firstAnswer s = (Config.freeWord s.freeNo).getLsbD 0 := by
  simp [firstAnswer, drawsOfStrobe, h]

theorem secondAnswer_of_absent {s : State} (h : s.dev.present = false) :
    secondAnswer s = (Config.freeWord (s.freeNo + 1)).getLsbD 0 := by
  simp [secondAnswer, drawsOfStrobe, drawsOfRead, h]

/-- Settles O33: the two answers in each environment, put into what `IS_PRESENT` makes of them. -/
theorem presenceByEnvironment : Obligations.PresenceByEnvironment := by
  intro s h hready
  obtain ⟨new, cells, n, hexec, hlength, -, -, -, hstored, -⟩ := isPresentRunsTheProbe s h hready
  refine ⟨_, new, hexec, events_append_of_trace rfl, fun hanswers => ?_, fun habsent => ?_⟩
  · have hfirst := firstAnswer_of_answers hanswers
    have hsecond := secondAnswer_of_answers hanswers
    have hcell := hstored hanswers
    refine ⟨fun hhealthy => ?_, fun hstuck => ?_, fun hstuck => ?_⟩
    · rw [hhealthy, Option.getD_none] at hfirst hsecond
      simp [hfirst, hsecond, hlength, Device.cell, hcell]
    · rw [hstuck, Option.getD_some] at hfirst hsecond
      simp [hfirst, hsecond, hlength]
    · rw [hstuck, Option.getD_some] at hfirst
      simp [hfirst, hlength]
  · have hfirst := firstAnswer_of_absent habsent
    exact ⟨fun hone => by simp [hfirst.trans hone, hlength],
      fun hzero => by simp [hfirst.trans hzero, secondAnswer_of_absent habsent, hlength]⟩

/-! ### `CHIP_KIND` -/

/-- The state after the two writes of the kind probe: a 0 at (8, 8), then a 1 at (264, 264), which an
8-line chip takes for (8, 8) (R205, R206). -/
def State.kindWritten (s : State) (K : Params) : State :=
  (s.bitWritten K 8#9 8#9 false).bitWritten K 264#9 264#9 true

theorem kindWritten_cells (s : State) (K : Params) : (s.kindWritten K).dev.cells =
    cellsAfterWrite (s.bitWritten K 8#9 8#9 false) (targetKey s 264#9 264#9) true := by
  rw [← targetKey_bitWritten s K 8#9 8#9 false]
  rfl

/-- A cell neither write reaches is as it was. -/
theorem lookup_kindWritten_of_ne (s : State) (K : Params) {key : Nat}
    (h8 : key ≠ targetKey s 8#9 8#9) (h264 : key ≠ targetKey s 264#9 264#9) :
    Cells.lookup (s.kindWritten K).dev.cells key = Cells.lookup s.dev.cells key := by
  rw [kindWritten_cells, lookup_cellsAfterWrite_of_ne _ _ h264]
  exact lookup_cellsAfterWrite_of_ne s _ h8

/-- The second write stands. -/
theorem lookup_kindWritten_second {s : State} (h : Answers s) (K : Params) :
    Cells.lookup (s.kindWritten K).dev.cells (targetKey s 264#9 264#9) = some true := by
  rw [kindWritten_cells]
  exact lookup_cellsAfterWrite_same (s := s.bitWritten K 8#9 8#9 false) h _ _

/-- The first one stands unless the second reached the same cell. -/
theorem lookup_kindWritten_first {s : State} (h : Answers s) (K : Params) :
    Cells.lookup (s.kindWritten K).dev.cells (targetKey s 8#9 8#9) =
      some (decide (targetKey s 264#9 264#9 = targetKey s 8#9 8#9)) := by
  by_cases hsame : targetKey s 264#9 264#9 = targetKey s 8#9 8#9
  · rw [decide_eq_true hsame, ← hsame, lookup_kindWritten_second h K]
  · rw [decide_eq_false hsame, kindWritten_cells,
      lookup_cellsAfterWrite_of_ne _ _ (Ne.symm hsame)]
    exact lookup_cellsAfterWrite_same h _ _

theorem kindWritten_cells_of_absent {s : State} (h : s.dev.present = false) (K : Params) :
    (s.kindWritten K).dev.cells = s.dev.cells := by
  rw [kindWritten_cells, cellsAfterWrite_of_absent (s := s.bitWritten K 8#9 8#9 false) h]
  exact cellsAfterWrite_of_absent h _ _

/-- The read of the kind probe, after both writes. -/
theorem sampledBit_kindWritten (s : State) (K : Params) :
    sampledBit (s.kindWritten K) (targetKey s 8#9 8#9) = kindAnswer s := by
  have hfree : s.freeNo + 2 * drawsOfStrobe s = s.freeNo + drawsOfStrobe s + drawsOfStrobe s := by
    omega
  rw [kindAnswer, hfree]
  exact sampledBit_of_lookup (s := s.kindWritten K) fun h => lookup_kindWritten_first (s := s) h K

@[simp] theorem targetKey_kindWritten (s : State) (K : Params) (row col : Line) :
    targetKey (s.kindWritten K) row col = targetKey s row col := by
  rw [State.kindWritten, targetKey_bitWritten, targetKey_bitWritten]

/-- The kind probe: two writes and a read of the first cell (R205). -/
theorem isChip41256_atIdle (K : Params) {s : State} (h : AtIdle s) :
    isChip41256 K s = .ok (!kindAnswer s) ((s.kindWritten K).bitRead K 8#9 8#9) := by
  have hwritten : AtIdle (s.bitWritten K 8#9 8#9 false) := h
  have hboth : AtIdle (s.kindWritten K) := h
  rw [isChip41256, micro_bind_ok (writeBitEarly_atIdle K _ _ _ h),
    micro_bind_ok (writeBitEarly_atIdle K _ _ _ hwritten), ← State.kindWritten,
    micro_bind_ok (readBit_atIdle K _ _ hboth), targetKey_kindWritten, sampledBit_kindWritten]
  rfl

/-- The events of the kind probe after an address `lda`, where it samples `v`. -/
def kindEvents (K : Params) (lda : Word) (v : Bit) : List Event :=
  writeBitEvents K lda 8#9 8#9 false ++ writeBitEvents K (lineAddress 8#9) 264#9 264#9 true ++
    readBitEvents K (lineAddress 264#9) 8#9 8#9 v

/-- The kind probe is three cycles. -/
theorem kindWritten_bitRead (s : State) (K : Params) : (s.kindWritten K).bitRead K 8#9 8#9 =
    s.cycled 8#9 true (s.kindWritten K).dev.cells
      (s.freeNo + drawsOfStrobe s + drawsOfStrobe s + drawsOfRead s)
      (kindEvents K s.x.lda (kindAnswer s)) := by
  rw [State.bitRead, targetKey_kindWritten, sampledBit_kindWritten]
  conv_lhs =>
    rw [State.kindWritten, State.bitWritten, State.bitWritten, cycled_cycled]
  exact cycled_cycled ..

@[simp] theorem kindAnswer_nowBusy (s : State) : kindAnswer s.nowBusy = kindAnswer s := rfl

/-- Settles O34: the kind probe runs from idle, and its answer becomes the value and the kind. -/
theorem chipKindRunsTheProbe : Obligations.ChipKindRunsTheProbe := by
  intro s h hready
  have hmicro := isChip41256_atIdle Config.machine (atIdle_nowBusy h hready)
  have hkind : (if !kindAnswer s then ChipKind.dram41256 else ChipKind.dram4164) =
      if kindAnswer s then ChipKind.dram4164 else ChipKind.dram41256 := by
    cases kindAnswer s <;> rfl
  rw [exec_of_micro (f := fun k => { value := k, kind := if k then .dram41256 else .dram4164 })
      .chipKind rfl (accepts_of_accepting rfl rfl hready.1) h.2 hmicro,
    kindWritten_bitRead, kindAnswer_nowBusy, cycled_finished _ _ _ _ _ h.2, hkind]
  refine ⟨_, _, _, rfl, ?_, ?_, ?_, fun key h8 h264 => ?_, fun hanswers => ?_,
    fun hanswers hdiffer => ?_, fun habsent => ?_⟩
  · simp [kindEvents]
  · simp [kindEvents]
  · simp [kindEvents, Nat.two_mul, Nat.add_assoc]
  · exact lookup_kindWritten_of_ne s.nowBusy Config.machine h8 h264
  · exact lookup_kindWritten_second (s := s.nowBusy) hanswers Config.machine
  · have hfirst := lookup_kindWritten_first (s := s.nowBusy) hanswers Config.machine
    exact hfirst.trans (congrArg some (decide_eq_false hdiffer))
  · exact kindWritten_cells_of_absent (s := s.nowBusy) habsent Config.machine

/-! The two addresses of the kind probe differ in bit 8, whatever the error pattern of the lines. -/

/-- An 8-line chip does not see the difference (R206). -/
theorem targetKey_264_of_eight {s : State} (h : s.dev.lines = .eight) :
    targetKey s 264#9 264#9 = targetKey s 8#9 8#9 := by
  have hbit : presented s 264#9 = presented s 8#9 ^^^ 256#9 := by
    rw [presented, presented, shown_eq, shown_eq, BitVec.xor_comm 8#9, BitVec.xor_assoc,
      BitVec.xor_comm 264#9]
    rfl
  rw [targetKey, targetKey, h, reachedKey, hbit, seenLines_eight_xor, reachedKey]

/-- A 9-line chip does. -/
theorem targetKey_264_ne_of_nine {s : State} (h : s.dev.lines = .nine) :
    targetKey s 264#9 264#9 ≠ targetKey s 8#9 8#9 := by
  rw [targetKey, targetKey, h]
  intro hkey
  have hrow : presented s 264#9 = presented s 8#9 := (cellKey_inj hkey).1
  rw [presented, presented, shown_eq, shown_eq, BitVec.xor_left_inj] at hrow
  exact absurd hrow (by decide)

/-- The answer of a reliable chip: that of a stuck cell (8, 8), else whether the two writes met. -/
theorem kindAnswer_of_answers {s : State} (h : Answers s) :
    kindAnswer s = (Cells.lookup s.dev.stuck (targetKey s 8#9 8#9)).getD
      (decide (targetKey s 264#9 264#9 = targetKey s 8#9 8#9)) := by
  simp [kindAnswer, h.1, h.2]

/-- Settles O35: the two writes meet in an 8-line chip and miss each other in a 9-line one. -/
theorem chipKindTellsTheChip : Obligations.ChipKindTellsTheChip := by
  intro s h hready hanswers
  obtain ⟨new, cells, n, hexec, -⟩ := chipKindRunsTheProbe s h hready
  have hkind := kindAnswer_of_answers hanswers
  refine ⟨_, hexec, fun hhealthy => ?_, fun hstuck => ?_, fun hstuck => ?_⟩
  · rw [hhealthy, Option.getD_none] at hkind
    refine ⟨fun hlines => ?_, fun hlines => ?_⟩
    · simp [hkind, targetKey_264_of_eight hlines]
    · simp [hkind, targetKey_264_ne_of_nine hlines]
  · simp [hkind, hstuck]
  · simp [hkind, hstuck]

/-! ### What the detections leave -/

theorem targetKey_of_addrInvariant {s : State} (h : AddrInvariant s) (row col : Line) :
    targetKey s row col = reachedKey s.dev.lines row col := by
  rw [targetKey, presented_of_invariant s row h, presented_of_invariant s col h]

/-- A cell of the first 256 rows and columns is reached under its own address in both chips. -/
theorem reachedKey_of_bit8_clear (l : DevLines) {row col : Line} (hrow : row &&& 255#9 = row)
    (hcol : col &&& 255#9 = col) : reachedKey l row col = cellKey row col := by
  cases l
  · rw [reachedKey, seenLines, hrow, seenLines, hcol]
  · rfl

theorem Device.cell_of_lookup {d : Device} {key : Nat} {b : Bit}
    (h : Cells.lookup d.cells key = some b) : d.cell key = b := by
  simp [Device.cell, h]

theorem Device.cell_congr {d e : Device} {key : Nat}
    (h : Cells.lookup d.cells key = Cells.lookup e.cells key) : d.cell key = e.cell key := by
  rw [Device.cell, Device.cell, h]

/-- Settles O36: the presence probe ends with a 1 at (0, 0); of the two writes of the kind probe both
stand where they reach different cells. -/
theorem detectionSideEffects : Obligations.DetectionSideEffects := by
  intro s h hready hanswers haddr hhealthy
  have h0 : targetKey s 0#9 0#9 = cellKey 0#9 0#9 :=
    (targetKey_of_addrInvariant haddr _ _).trans (reachedKey_of_bit8_clear _ rfl rfl)
  have h8 : targetKey s 8#9 8#9 = cellKey 8#9 8#9 :=
    (targetKey_of_addrInvariant haddr _ _).trans (reachedKey_of_bit8_clear _ rfl rfl)
  have h264 : s.dev.lines = .nine → targetKey s 264#9 264#9 = cellKey 264#9 264#9 := fun hlines => by
    rw [targetKey_of_addrInvariant haddr, hlines]
    rfl
  have hfirst : firstAnswer s = false := by
    rw [firstAnswer_of_answers hanswers, h0, hhealthy, Option.getD_none]
  obtain ⟨_, cells, _, hpresent, -, -, -, hframe, hstored, -⟩ := isPresentRunsTheProbe s h hready
  obtain ⟨_, cells', _, hkind, -, -, -, hframe', hsecond, hlow, -⟩ :=
    chipKindRunsTheProbe s h hready
  rw [h0, hfirst] at hstored
  rw [h0] at hframe
  refine ⟨_, _, hpresent, hkind, Device.cell_of_lookup (hstored hanswers),
    fun key hkey => Device.cell_congr (hframe key hkey), fun hlines => ?_, fun hlines => ⟨?_, ?_⟩,
    fun key hkey hkey' => Device.cell_congr (hframe' key (h8 ▸ hkey) ?_)⟩
  · rw [← h8, ← targetKey_264_of_eight hlines]
    exact Device.cell_of_lookup (hsecond hanswers)
  · rw [← h8]
    exact Device.cell_of_lookup (hlow hanswers (targetKey_264_ne_of_nine hlines))
  · rw [← h264 hlines]
    exact Device.cell_of_lookup (hsecond hanswers)
  · cases hlines : s.dev.lines
    · rw [targetKey_264_of_eight hlines, h8]
      exact hkey
    · rw [h264 hlines]
      exact hkey' hlines

end Sys2Proof.Machine
end

section
/-!
PROOFS. The rotating pattern of the moving-inversions test: its closed form by visit index and by
column (`44_moving_inversions.md` R221, R222).
-/

namespace Sys2Proof.Machine

open Sys2Proof.Safety

/-- One rotation moves every bit up by one place, and the top bit to the bottom. -/
theorem getLsbD_rotl32 (v : Word) {i : Nat} (h : i < 32) :
    (rotl32 v).getLsbD i = v.getLsbD ((i + 31) % 32) := by
  rw [rotl32, BitVec.getLsbD_append]
  by_cases h0 : i = 0
  · simp [h0]
  · have hprev : (i + 31) % 32 = i - 1 := by omega
    have hlow : i - 1 < 31 := by omega
    simp [h0, hprev, hlow]

/-- The closed form of R222: `k` rotations bring the bit `k` places below bit 0 there. -/
theorem getLsbD_iterate_rotl32 (init : Word) (k : Nat) :
    (rotl32^[k] init).getLsbD 0 = patBit init k := by
  induction k generalizing init with
  | zero => rfl
  | succ k ih =>
    rw [Function.iterate_succ_apply, ih, patBit, getLsbD_rotl32 _ (Nat.mod_lt _ (by decide)), patBit]
    congr 1
    omega

/-- The pattern depends on the place within a word only. -/
theorem patBit_congr (init : Word) {j k : Nat} (h : j % 32 = k % 32) :
    patBit init j = patBit init k := by
  rw [patBit, patBit, h]

/-- In an ascending sweep it is a pattern of columns. -/
theorem patBit_row_add (init : Word) {n : Nat} (hn : 32 ∣ n) (r c : Nat) :
    patBit init (r * n + c) = patBit init c := by
  obtain ⟨m, rfl⟩ := hn
  refine patBit_congr init ?_
  rw [Nat.mul_left_comm, Nat.mul_add_mod]

/-- In a descending sweep the columns run the other way. -/
theorem patBit_descending (init : Word) {n c : Nat} (hn : 32 ∣ n) (hc : c < n) :
    patBit init (n - 1 - c) = init.getLsbD ((c + 1) % 32) := by
  rw [patBit]
  congr 1
  omega

/-- Settles O37: each clause from the closed form; the example is evaluated. -/
theorem patternClosedForm : Obligations.PatternClosedForm :=
  ⟨getLsbD_iterate_rotl32, fun init k => patBit_congr init (by omega),
    fun init _ r _ hn hc => ⟨patBit_row_add init hn r _, patBit_descending init hn hc⟩, by decide⟩

end Sys2Proof.Machine
end

section
/-!
PROOFS. A sweep of the moving-inversions test as a function of the state. Where nothing disturbs it,
each micro-operation of a sweep leaves a state that is written down here; a sweep is their
composition, row by row and column by column (`44_moving_inversions.md` R221 to R226, R231).
-/

namespace Sys2Proof.Machine

open Sys2Proof.Safety
open Sys2Proof.Config (Params)

/-- A sweep of a test: the parameters of the machine, its number, what it does at a cell, its direction
and the side of the array (R223, R231). -/
structure Sweep where
  K : Params
  number : BitVec 3
  kind : SweepKind
  dir : Direction
  n : Nat

/-- The number of the row, or of the column, at place `k` of the order of a sweep (R231). -/
def Sweep.index (p : Sweep) (k : Nat) : Nat :=
  match p.dir with
  | .ascending => k
  | .descending => p.n - 1 - k

/-- That row, or column. -/
def Sweep.place (p : Sweep) (k : Nat) : Line := BitVec.ofNat 9 (p.index k)

/-- What a sweep does at a cell (R224 to R226). -/
def Sweep.visit (p : Sweep) : Line → Micro Unit :=
  match p.kind with
  | .fill => fillVisit p.K
  | .checkComplement => checkComplementVisit p.K
  | .check => checkVisit p.K

/-- The sweep as a micro-operation (R230). -/
def Sweep.run (p : Sweep) : Micro Unit := do
  setSweep p.number
  sweep p.K p.visit p.dir p.n

/-- Whether an answer is a mismatch where the pattern bit is `e` (R225, R226). -/
def Sweep.fails (p : Sweep) (answer e : Bit) : Bool :=
  match p.kind with
  | .fill => false
  | .checkComplement => answer != e
  | .check => answer != !e

/-! ### The events -/

/-- The events of `openRow(row)` after an address `lda` (`42_protocol_sequencer.md` R173). -/
def openRowEvents (K : Params) (lda : Word) (row : Line) : List Event :=
  [.addrToggle (lineAddress row ^^^ lda), .wait (cAs K), .pin .rasN false, .wait (cRcd K)]

/-- The events of `closeRow()` (`42_protocol_sequencer.md` R177). -/
def closeRowEvents (K : Params) : List Event := [.pin .rasN true, .wait (cRp K)]

/-- The events of `pageWrite(col, b)` after an address `lda` (`42_protocol_sequencer.md` R179). -/
def pageWriteEvents (K : Params) (lda : Word) (col : Line) (b : Bit) : List Event :=
  [.pin .weN false, .pin .din b, .addrToggle (lineAddress col ^^^ lda), .wait (cAs K),
    .pin .casN false, .wait (cCas K), .pin .casN true, .pin .weN true, .wait (cCp K)]

/-- The events of `pageRead(col)` after an address `lda`, where it samples `v`
(`42_protocol_sequencer.md` R187). -/
def pageReadEvents (K : Params) (lda : Word) (col : Line) (v : Bit) : List Event :=
  [.addrToggle (lineAddress col ^^^ lda), .wait (cAs K), .pin .casN false, .wait (cCas K),
    .wait (cXs K), .sample v, .pin .casN true, .wait (cCp K)]

/-! ### The states -/

/-- The state `openRow(row)` leaves from idle. -/
def State.rowOpened (s : State) (K : Params) (row : Line) : State :=
  { s.cycled row s.pin.din s.dev.cells s.freeNo (openRowEvents K s.x.lda row) with
    pin.rasN := false
    seq := .rowOpen
    dev.rowLatch :=
      if s.dev.present then some (seenLines s.dev.lines (presented s row)) else none }

/-- The state `closeRow()` leaves from an open row. -/
def State.rowClosed (s : State) (K : Params) : State :=
  { s with
    pin.rasN := true
    x.dcnt := 0
    seq := .idle
    dev.rowLatch := none
    trace := (closeRowEvents K).reverse ++ s.trace }

/-- The bit `pageRead(col)` samples. -/
def State.answer (s : State) (col : Line) : Bit := sampledBit s (pageKey s col)

/-- The state `pageWrite(col, b)` leaves in an open row. -/
def State.pageWritten (s : State) (K : Params) (col : Line) (b : Bit) : State :=
  s.cycled col b (cellsAfterWrite s (pageKey s col) b) (s.freeNo + drawsOfStrobe s)
    (pageWriteEvents K s.x.lda col b)

/-- The state `pageRead(col)` leaves in an open row. -/
def State.pageSampled (s : State) (K : Params) (col : Line) : State :=
  s.cycled col s.pin.din s.dev.cells (s.freeNo + drawsOfRead s)
    (pageReadEvents K s.x.lda col (s.answer col))

/-- The state the visit of a cell leaves (R224 to R226). -/
def State.cellVisited (s : State) (p : Sweep) (col : Line) : State :=
  match p.kind with
  | .fill => s.pageWritten p.K col s.patternBit
  | .checkComplement =>
    if s.answer col != s.patternBit then (s.pageSampled p.K col).failureRecorded
    else (s.pageSampled p.K col).pageWritten p.K col (!s.patternBit)
  | .check =>
    if s.answer col != !s.patternBit then (s.pageSampled p.K col).failureRecorded
    else s.pageSampled p.K col

/-- The pattern rotated once (R221). -/
def State.rotated (s : State) : State := s.withPat (rotl32 s.x.pat)

/-- The state one column step leaves. -/
def State.columnVisited (s : State) (p : Sweep) (col : Line) : State :=
  ((s.withCol col).cellVisited p col).rotated

/-- The state after the first columns of an open row. -/
def State.afterColumns (s : State) (p : Sweep) : Nat → State
  | 0 => s
  | c + 1 => (s.afterColumns p c).columnVisited p (p.place c)

/-- The state in which a row has just been opened for its visits. -/
def State.rowEntered (s : State) (p : Sweep) (row : Line) : State :=
  (s.withRow row).rowOpened p.K row

/-- The state after the first rows of a sweep. -/
def State.afterRows (s : State) (p : Sweep) : Nat → State
  | 0 => (s.withSweep p.number).withPat p.K.patternInit
  | r + 1 => (((s.afterRows p r).rowEntered p (p.place r)).afterColumns p p.n).rowClosed p.K

/-- The state within row `r` of a sweep, after `c` columns. -/
def State.inRow (s : State) (p : Sweep) (r c : Nat) : State :=
  ((s.afterRows p r).rowEntered p (p.place r)).afterColumns p c

/-- The state a sweep leaves. -/
def State.swept (s : State) (p : Sweep) : State := s.afterRows p p.n

/-- A sweep, told once: what holds at its start and is kept where a row is opened, where a column is
visited and where a row is closed, holds after each of its rows. -/
theorem sweep_induction {p : Sweep} {Rows : Nat → Prop} {InRow : Nat → Nat → Prop} (start : Rows 0)
    (enter : ∀ r, Rows r → InRow r 0) (visit : ∀ r, ∀ c < p.n, InRow r c → InRow r (c + 1))
    (close : ∀ r, InRow r p.n → Rows (r + 1)) :
    (∀ r, Rows r) ∧ ∀ r, ∀ c ≤ p.n, InRow r c := by
  have columns : ∀ r, Rows r → ∀ c ≤ p.n, InRow r c := fun r hr c => by
    induction c with
    | zero => exact fun _ => enter r hr
    | succ c ih => exact fun hc => visit r c hc (ih (by omega))
  have rows : ∀ r, Rows r := fun r => by
    induction r with
    | zero => exact start
    | succ r ih => exact close r (columns r ih p.n le_rfl)
  exact ⟨rows, fun r => columns r (rows r)⟩

/-! ### The engine does it -/

/-- A row open, with nothing to disturb the page-mode cycles to come. -/
abbrev AtRow (s : State) : Prop :=
  NoIoFault s ∧ s.seq = .rowOpen ∧ s.pin.rasN = false ∧ s.pin.casN = true ∧ s.pin.weN = true ∧
    s.dev.rowLatch.isSome = s.dev.present ∧ s.dev.drive = none

theorem openRow_atIdle (K : Params) (row : Line) {s : State} (h : AtIdle s) :
    openRow K row s = .ok () (s.rowOpened K row) := by
  obtain ⟨hnoFault, -, hras, hcas, -, hlatch, -⟩ := h
  rw [openRow_undisturbed K row s hnoFault hras hcas]
  simp [State.rowOpened, State.cycled, openRowEvents, hlatch]

theorem atRow_rowOpened {s : State} (h : AtIdle s) (K : Params) (row : Line) :
    AtRow (s.rowOpened K row) := by
  obtain ⟨hnoFault, -, -, hcas, hwe, -, hdrive⟩ := h
  refine ⟨hnoFault, rfl, rfl, hcas, hwe, ?_, hdrive⟩
  cases hpresent : s.dev.present <;> simp [State.rowOpened, State.cycled, hpresent]

theorem pageWrite_atRow (K : Params) (col : Line) (b : Bit) {s : State} (h : AtRow s) :
    pageWrite K col b s = .ok () (s.pageWritten K col b) := by
  obtain ⟨hnoFault, hseq, -, hcas, hwe, hlatch, hdrive⟩ := h
  rw [pageWrite_undisturbed K col b s hnoFault hcas hdrive hlatch]
  simp [State.pageWritten, State.cycled, pageWriteEvents, hwe, hseq]

theorem pageRead_atRow (K : Params) (col : Line) {s : State} (h : AtRow s) :
    pageRead K col s = .ok (s.answer col) (s.pageSampled K col) := by
  obtain ⟨hnoFault, hseq, -, hcas, hwe, hlatch, hdrive⟩ := h
  rw [pageRead_undisturbed K col s hnoFault hcas hwe hdrive hlatch]
  simp [State.pageSampled, State.answer, State.cycled, pageReadEvents, hseq]

theorem closeRow_atRow (K : Params) {s : State} (h : AtRow s) :
    closeRow K s = .ok () (s.rowClosed K) := by
  obtain ⟨hnoFault, -, -, -, -, hlatch, hdrive⟩ := h
  rw [closeRow_undisturbed K s hnoFault fun habsent => ⟨by simpa using hlatch.trans habsent, hdrive⟩]
  simp [State.rowClosed, closeRowEvents, hdrive]

theorem atIdle_rowClosed {s : State} (h : AtRow s) (K : Params) : AtIdle (s.rowClosed K) := by
  obtain ⟨hnoFault, -, -, hcas, hwe, -, hdrive⟩ := h
  exact ⟨hnoFault, rfl, rfl, hcas, hwe, rfl, hdrive⟩

theorem visit_atRow (p : Sweep) (col : Line) {s : State} (h : AtRow s) :
    p.visit col s = .ok () (s.cellVisited p col) := by
  have hsampled : AtRow (s.pageSampled p.K col) := h
  unfold Sweep.visit State.cellVisited
  cases p.kind with
  | fill => exact pageWrite_atRow p.K col _ h
  | checkComplement =>
    refine (micro_bind_ok (pageRead_atRow p.K col h) _).trans ?_
    cases hfail : s.answer col != s.patternBit
    · simpa [hfail] using pageWrite_atRow p.K col (!s.patternBit) hsampled
    · simp only [if_true]
      rfl
  | check =>
    refine (micro_bind_ok (pageRead_atRow p.K col h) _).trans ?_
    cases hfail : s.answer col != !s.patternBit
    · simp
    · simp only [if_true]
      rfl

theorem atRow_cellVisited {s : State} (h : AtRow s) (p : Sweep) (col : Line) :
    AtRow (s.cellVisited p col) := by
  unfold State.cellVisited
  cases p.kind with
  | fill => exact h
  | checkComplement => simp only; split <;> exact h
  | check => simp only; split <;> exact h

theorem atRow_columnVisited {s : State} (h : AtRow s) (p : Sweep) (col : Line) :
    AtRow (s.columnVisited p col) :=
  atRow_cellVisited (s := s.withCol col) h p col

theorem columnStep_atRow (p : Sweep) (col : Line) {s : State} (h : AtRow s) :
    columnStep p.visit col s = .ok () (s.columnVisited p col) :=
  micro_bind_ok (visit_atRow p col (s := s.withCol col) h) _

/-- A loop over the rows, or the columns, of a sweep that takes `state k` to `state (k + 1)` at
place `k`. -/
theorem forEach_places (p : Sweep) {f : Line → Micro Unit} {state : Nat → State}
    (h : ∀ k < p.n, f (p.place k) (state k) = .ok () (state (k + 1))) :
    forEach f (indices p.dir p.n) (state 0) = .ok () (state p.n) := by
  obtain ⟨t, ht, hlast⟩ := forEach_ok (f := f) (I := fun k t => t = state k) (indices p.dir p.n)
    (fun k v s hv hs => by
      have hk : k < p.n := by
        rw [← indices_length p.dir p.n]
        exact (List.getElem?_eq_some_iff.mp hv).1
      rw [indices_getElem? p.dir p.n k hk, Option.some.injEq] at hv
      exact ⟨_, by rw [hs, ← hv]; exact h k hk, rfl⟩) rfl
  rw [ht, hlast, indices_length]

theorem atIdle_afterRows {s : State} (h : AtIdle s) (p : Sweep) :
    (∀ r, AtIdle (s.afterRows p r)) ∧ ∀ r, ∀ c ≤ p.n, AtRow (s.inRow p r c) :=
  sweep_induction h (fun r hr => atRow_rowOpened (by exact hr) _ _)
    (fun r c _ hc => atRow_columnVisited hc p _) fun r hr => atIdle_rowClosed hr _

theorem atIdle_swept {s : State} (h : AtIdle s) (p : Sweep) : AtIdle (s.swept p) :=
  (atIdle_afterRows h p).1 p.n

/-- The engine sweeps as told. -/
theorem sweep_atIdle (p : Sweep) {s : State} (h : AtIdle s) : p.run s = .ok () (s.swept p) := by
  obtain ⟨hrows, hcolumns⟩ := atIdle_afterRows h p
  refine forEach_places (state := s.afterRows p) p fun r hr => ?_
  refine (micro_bind_ok (openRow_atIdle p.K (p.place r)
    (s := (s.afterRows p r).withRow (p.place r)) (hrows r)) _).trans ?_
  refine (micro_bind_ok (forEach_places (state := s.inRow p r) p fun c hc =>
    columnStep_atRow p _ (hcolumns r c hc.le)) _).trans ?_
  exact closeRow_atRow p.K (hcolumns r p.n le_rfl)

end Sys2Proof.Machine
end

section
/-!
PROOFS. What a sweep of the moving-inversions test leaves alone, and what it does to the pattern, the
bits sampled, the failure record, the totals of its events and the cells: one lemma each, by the
induction over its rows and columns (`44_moving_inversions.md` R221 to R238).
-/

namespace Sys2Proof.Safety

/-- A mismatch at a cell, in the record of a test (R225, R228). -/
def TestRecord.fail (r : TestRecord) (cell : Line × Line) : TestRecord :=
  { r with failCnt := r.failCnt + 1#32, lfRow := cell.1, lfCol := cell.2 }

/-- One more mismatch counts once and is the last one. -/
theorem recordOf_snoc (dir : Machine.Direction) (n : Nat) (failed : List Nat) (k : Nat)
    (last : BitVec 3) : recordOf dir n (failed ++ [k]) last =
      (recordOf dir n failed last).fail (visited dir n k) := by
  simp [recordOf, TestRecord.fail, BitVec.ofNat_add]

end Sys2Proof.Safety

namespace Sys2Proof.Machine

open Sys2Proof.Safety
open Sys2Proof.Config (Params)

/-! ### What it leaves alone -/

/-- What no part of a sweep touches; the fields a sweep may change are masked. -/
def State.testFrame (s : State) : State :=
  { s with
    pin.a := 0#9
    pin.rasN := true
    pin.din := false
    x := { s.x with lda := 0#32, dcnt := 0, sweep := 0#3, row := 0#9, col := 0#9, pat := 0#32,
                    failCnt := 0#32, lfRow := 0#9, lfCol := 0#9 }
    seq := .idle
    dev.cells := []
    dev.rowLatch := none
    freeNo := 0
    trace := [] }

/-- `t` is a state a sweep that started in `s` may be in. -/
structure Follows (s t : State) : Prop where
  frame : t.testFrame = s.testFrame
  shows : ∀ v, presented t v = presented s v
  grows : s.trace <:+ t.trace

namespace Follows

variable {s t u : State}

theorem refl (s : State) : Follows s s := ⟨rfl, fun _ => rfl, List.suffix_rfl⟩

theorem trans (h : Follows s t) (h' : Follows t u) : Follows s u :=
  ⟨h'.frame.trans h.frame, fun v => (h'.shows v).trans (h.shows v), h.grows.trans h'.grows⟩

/-- An address change keeps the error pattern. -/
theorem cycled (h : Follows s t) (last : Line) (din : Bit) (cells : Cells) (n : Nat)
    (new : List Event) : Follows s (t.cycled last din cells n new) :=
  ⟨h.frame, fun v => (presented_cycled ..).trans (h.shows v),
    h.grows.trans (List.suffix_append _ _)⟩

theorem rowEntered (h : Follows s t) (p : Sweep) (row : Line) : Follows s (t.rowEntered p row) := by
  have hcycled := h.cycled row t.pin.din t.dev.cells t.freeNo (openRowEvents p.K t.x.lda row)
  exact ⟨hcycled.frame, hcycled.shows, hcycled.grows⟩

theorem rowClosed (h : Follows s t) (K : Params) : Follows s (t.rowClosed K) :=
  ⟨h.frame, h.shows, h.grows.trans (List.suffix_append _ _)⟩

end Follows

/-- The visit of a cell is put together from reads, writes and records: what each of them keeps, it
keeps. -/
theorem cellVisited_keeps {R : State → Prop} {p : Sweep} {col : Line}
    (write : ∀ t b, R t → R (t.pageWritten p.K col b)) (read : ∀ t, R t → R (t.pageSampled p.K col))
    (record : ∀ t, R t → R t.failureRecorded) {s : State} (h : R s) : R (s.cellVisited p col) := by
  unfold State.cellVisited
  cases p.kind with
  | fill => exact write s _ h
  | checkComplement =>
    simp only
    split
    · exact record _ (read s h)
    · exact write _ _ (read s h)
  | check =>
    simp only
    split
    · exact record _ (read s h)
    · exact read s h

theorem Follows.columnVisited {s t : State} (h : Follows s t) (p : Sweep) (col : Line) :
    Follows s (t.columnVisited p col) := by
  have hvisited : Follows s ((t.withCol col).cellVisited p col) :=
    cellVisited_keeps (R := Follows s) (fun _ _ hu => hu.cycled ..) (fun _ hu => hu.cycled ..)
      (fun _ hu => ⟨hu.frame, hu.shows, hu.grows⟩) ⟨h.frame, h.shows, h.grows⟩
  exact ⟨hvisited.frame, hvisited.shows, hvisited.grows⟩

theorem follows_afterRows (s : State) (p : Sweep) :
    (∀ r, Follows s (s.afterRows p r)) ∧ ∀ r, ∀ c ≤ p.n, Follows s (s.inRow p r c) :=
  sweep_induction ⟨rfl, fun _ => rfl, List.suffix_rfl⟩ (fun _ hr => hr.rowEntered p _)
    (fun _ _ _ hc => hc.columnVisited p _) fun _ hr => hr.rowClosed p.K

theorem follows_swept (s : State) (p : Sweep) : Follows s (s.swept p) := (follows_afterRows s p).1 p.n

theorem inRow_succ (s : State) (p : Sweep) (r c : Nat) :
    s.inRow p r (c + 1) = (s.inRow p r c).columnVisited p (p.place c) := rfl

/-- Within a row the row register and the latch stand (R224). -/
theorem row_inRow (s : State) (p : Sweep) (r c : Nat) :
    (s.inRow p r c).x.row = p.place r ∧ (s.inRow p r c).dev.rowLatch = (s.inRow p r 0).dev.rowLatch := by
  induction c with
  | zero => exact ⟨rfl, rfl⟩
  | succ c ih =>
    exact cellVisited_keeps (R := fun t => t.x.row = p.place r ∧
        t.dev.rowLatch = (s.inRow p r 0).dev.rowLatch) (s := (s.inRow p r c).withCol (p.place c))
      (fun _ _ h => h) (fun _ h => h) (fun _ h => h) ih

/-- The device but for its cells and its latch. -/
theorem Follows.dev {s t : State} (h : Follows s t) :
    t.dev = { s.dev with cells := t.dev.cells, rowLatch := t.dev.rowLatch } := by
  have hdev := congrArg (fun u : State => { u.dev with
    cells := t.dev.cells, rowLatch := t.dev.rowLatch }) h.frame
  exact hdev

/-- Keys are those of the start. -/
theorem Follows.targetKey {s t : State} (h : Follows s t) (row col : Line) :
    Safety.targetKey t row col = Safety.targetKey s row col := by
  rw [Safety.targetKey, h.shows, h.shows, h.dev, Safety.targetKey]

theorem Follows.answers {s t : State} (h : Follows s t) (hs : Answers s) : Answers t := by
  rw [Answers, h.dev]
  exact hs

/-- Within a row of a present device a page-mode cycle reaches the cell in that row. -/
theorem pageKey_inRow {s : State} (hpresent : s.dev.present = true) (p : Sweep) (r : Nat) {c : Nat}
    (hc : c ≤ p.n) (col : Line) :
    pageKey (s.inRow p r c) col = targetKey s (p.place r) col := by
  obtain ⟨hrows, hcolumns⟩ := follows_afterRows s p
  have hlatch : (s.inRow p r c).dev.rowLatch = some (seenLines s.dev.lines (presented s (p.place r))) := by
    rw [(row_inRow s p r c).2, ← (hrows r).shows]
    have hlines : (s.afterRows p r).dev.lines = s.dev.lines := by rw [(hrows r).dev]
    have hthere : (s.afterRows p r).dev.present = true := by rw [(hrows r).dev, hpresent]
    rw [← hlines]
    exact if_pos hthere
  rw [pageKey, hlatch, (hcolumns r c hc).shows, (hcolumns r c hc).dev]
  rfl

/-! ### The visits by their index -/

/-- What holds at the start and is kept where rows are opened and closed, and goes from index to index
where a column is visited, holds at every visit index (R231). -/
theorem visits_induction {R : Nat → State → Prop} {s : State} {p : Sweep}
    (start : R 0 ((s.withSweep p.number).withPat p.K.patternInit)) (enter : ∀ k t row, R k t → R k (t.rowEntered p row))
    (close : ∀ k t, R k t → R k (t.rowClosed p.K))
    (visit : ∀ r, ∀ c < p.n, R (r * p.n + c) (s.inRow p r c) →
      R (r * p.n + c + 1) (s.inRow p r (c + 1))) :
    (∀ r, R (r * p.n) (s.afterRows p r)) ∧ ∀ r, ∀ c ≤ p.n, R (r * p.n + c) (s.inRow p r c) :=
  sweep_induction (by rwa [Nat.zero_mul]) (fun r hr => enter _ _ _ hr) visit fun r hr => by
    rw [Nat.succ_mul]
    exact close _ _ hr

/-- The bit sampled at visit `k`. -/
def State.answerAt (s : State) (p : Sweep) (k : Nat) : Bit :=
  (s.inRow p (k / p.n) (k % p.n)).answer (p.place (k % p.n))

/-- Whether visit `k` is a mismatch. -/
def State.failsAt (s : State) (p : Sweep) (k : Nat) : Bool :=
  p.fails (s.answerAt p k) (patBit p.K.patternInit k)

/-- The mismatches among the first `k` visits. -/
def State.failures (s : State) (p : Sweep) (k : Nat) : List Nat :=
  (List.range k).filter (s.failsAt p)

/-- The mismatches of the whole sweep. -/
abbrev State.sweepFailures (s : State) (p : Sweep) : List Nat := s.failures p (p.n * p.n)

theorem failures_succ (s : State) (p : Sweep) (k : Nat) :
    s.failures p (k + 1) = s.failures p k ++ if s.failsAt p k then [k] else [] := by
  rw [State.failures, List.range_succ, List.filter_append, List.filter_singleton, State.failures]
  cases s.failsAt p k <;> rfl

/-- The row of a visit index. -/
theorem visit_div {n c : Nat} (r : Nat) (hc : c < n) : (r * n + c) / n = r := by
  rw [Nat.mul_comm, Nat.mul_add_div (by omega), Nat.div_eq_of_lt hc, Nat.add_zero]

/-- The column of a visit index. -/
theorem visit_mod {n c : Nat} (r : Nat) (hc : c < n) : (r * n + c) % n = c := by
  rw [Nat.mul_comm, Nat.mul_add_mod, Nat.mod_eq_of_lt hc]

theorem answerAt_eq (s : State) {p : Sweep} (r : Nat) {c : Nat} (hc : c < p.n) :
    s.answerAt p (r * p.n + c) = (s.inRow p r c).answer (p.place c) := by
  rw [State.answerAt, visit_div r hc, visit_mod r hc]

theorem visited_eq (p : Sweep) (k : Nat) :
    visited p.dir p.n k = (p.place (k / p.n), p.place (k % p.n)) := by
  unfold visited Sweep.place Sweep.index
  cases p.dir <;> rfl

theorem visited_place (p : Sweep) (r : Nat) {c : Nat} (hc : c < p.n) :
    visited p.dir p.n (r * p.n + c) = (p.place r, p.place c) := by
  rw [visited_eq, visit_div r hc, visit_mod r hc]

/-! ### The pattern -/

theorem cellVisited_pat (s : State) (p : Sweep) (col : Line) :
    (s.cellVisited p col).x.pat = s.x.pat :=
  cellVisited_keeps (R := fun t => t.x.pat = s.x.pat) (fun _ _ h => h) (fun _ h => h)
    (fun _ h => h) rfl

/-- The pattern bit at a visit is that of the closed form (R222). -/
theorem patternBit_inRow (s : State) (p : Sweep) (r : Nat) {c : Nat} (hc : c ≤ p.n) :
    (s.inRow p r c).patternBit = patBit p.K.patternInit (r * p.n + c) := by
  have hpat : (s.inRow p r c).x.pat = rotl32^[r * p.n + c] p.K.patternInit :=
    (visits_induction (R := fun k t => t.x.pat = rotl32^[k] p.K.patternInit) rfl
      (fun _ _ _ h => h) (fun _ _ h => h) fun r c _ ih => by
        rw [Function.iterate_succ_apply', ← ih]
        exact congrArg rotl32 (cellVisited_pat _ _ _)).2 r c hc
  rw [State.patternBit, hpat, getLsbD_iterate_rotl32]

theorem failsAt_eq (s : State) {p : Sweep} (r : Nat) {c : Nat} (hc : c < p.n) :
    s.failsAt p (r * p.n + c) =
      p.fails ((s.inRow p r c).answer (p.place c)) (s.inRow p r c).patternBit := by
  rw [State.failsAt, answerAt_eq s r hc, patternBit_inRow s p r hc.le]

/-! ### The failure record -/

/-- The failure record as it stands. -/
def State.record (s : State) : TestRecord where
  failCnt := s.x.failCnt
  lfRow := s.x.lfRow
  lfCol := s.x.lfCol
  lastSweep := s.x.sweep

theorem record_columnVisited (s : State) (p : Sweep) (col : Line) :
    (s.columnVisited p col).record =
      if p.fails (s.answer col) s.patternBit then s.record.fail (s.x.row, col) else s.record := by
  rw [State.columnVisited, State.cellVisited, Sweep.fails]
  cases p.kind with
  | fill => rfl
  | checkComplement => exact apply_ite (fun t : State => t.rotated.record) _ _ _
  | check => exact apply_ite (fun t : State => t.rotated.record) _ _ _

/-- No mismatch has been recorded (R230). -/
def Unfailed (s : State) : Prop := s.x.failCnt = 0#32 ∧ s.x.lfRow = 0#9 ∧ s.x.lfCol = 0#9

/-- A sweep that starts with no failure leaves the record of its own mismatches (R228). -/
theorem record_swept {s : State} (h : Unfailed s) (p : Sweep) :
    (s.swept p).record = recordOf p.dir p.n (s.sweepFailures p) p.number := by
  obtain ⟨hcnt, hrow, hcol⟩ := h
  refine (visits_induction (R := fun k t => t.record = recordOf p.dir p.n (s.failures p k) p.number)
    ?_ (fun _ _ _ h => h) (fun _ _ h => h) fun r c hc ih => ?_).1 p.n
  · simp [State.record, State.withSweep, State.withPat, recordOf, State.failures, hcnt, hrow, hcol]
  · rw [failures_succ, failsAt_eq s r hc, inRow_succ, record_columnVisited, (row_inRow s p r c).1, ih]
    split
    · rw [recordOf_snoc, visited_place p r hc]
    · rw [List.append_nil]

end Sys2Proof.Machine
end

section
/-!
PROOFS. The events of a sweep of the moving-inversions test: the bits it samples and the totals of its
events (`44_moving_inversions.md` R225, R226, R238).
-/

namespace Sys2Proof.Machine

open Sys2Proof.Safety
open Sys2Proof.Config (Params)

/-- The events of the visit of a cell (R224 to R226). -/
def State.visitEvents (s : State) (p : Sweep) (col : Line) : List Event :=
  match p.kind with
  | .fill => pageWriteEvents p.K s.x.lda col s.patternBit
  | .checkComplement =>
    if s.answer col != s.patternBit then pageReadEvents p.K s.x.lda col (s.answer col)
    else pageReadEvents p.K s.x.lda col (s.answer col) ++
      pageWriteEvents p.K (lineAddress col) col (!s.patternBit)
  | .check => pageReadEvents p.K s.x.lda col (s.answer col)

theorem events_pageWritten (s : State) (K : Params) (col : Line) (b : Bit) :
    (s.pageWritten K col b).events = s.events ++ pageWriteEvents K s.x.lda col b :=
  events_append_of_trace rfl

theorem events_pageSampled (s : State) (K : Params) (col : Line) :
    (s.pageSampled K col).events = s.events ++ pageReadEvents K s.x.lda col (s.answer col) :=
  events_append_of_trace rfl

theorem events_rowEntered (s : State) (p : Sweep) (row : Line) :
    (s.rowEntered p row).events = s.events ++ openRowEvents p.K s.x.lda row :=
  events_append_of_trace rfl

theorem events_rowClosed (s : State) (K : Params) :
    (s.rowClosed K).events = s.events ++ closeRowEvents K :=
  events_append_of_trace rfl

theorem events_cellVisited (s : State) (p : Sweep) (col : Line) :
    (s.cellVisited p col).events = s.events ++ s.visitEvents p col := by
  rw [State.cellVisited, State.visitEvents]
  cases p.kind with
  | fill => exact events_pageWritten ..
  | checkComplement =>
    simp only
    split
    · exact events_pageSampled ..
    · rw [events_pageWritten, events_pageSampled, List.append_assoc]
      rfl
  | check =>
    simp only
    split <;> exact events_pageSampled ..

theorem events_columnVisited (s : State) (p : Sweep) (col : Line) :
    (s.columnVisited p col).events = s.events ++ s.visitEvents p col :=
  events_cellVisited (s.withCol col) p col

/-! ### The bits sampled -/

theorem samples_append (l m : List Event) : samples (l ++ m) = samples l ++ samples m :=
  List.filterMap_append

/-- A checking sweep samples once at a visit, a filling one never. -/
theorem samples_visitEvents (s : State) (p : Sweep) (col : Line) :
    samples (s.visitEvents p col) = if p.kind = .fill then [] else [s.answer col] := by
  rw [State.visitEvents]
  cases p.kind with
  | fill => rfl
  | checkComplement => exact (apply_ite samples _ _ _).trans (ite_self _)
  | check => rfl

/-- The bits a sweep samples (R225, R226). -/
def State.sweepSamples (s : State) (p : Sweep) (k : Nat) : List Bit :=
  if p.kind = .fill then [] else (List.range k).map (s.answerAt p)

theorem samples_swept (s : State) (p : Sweep) :
    samples (s.swept p).events = samples s.events ++ s.sweepSamples p (p.n * p.n) :=
  (visits_induction (R := fun k t => samples t.events = samples s.events ++ s.sweepSamples p k)
    (by simp [State.sweepSamples]; rfl)
    (fun k t row h => by
      rw [events_rowEntered, samples_append, h]
      exact List.append_nil _)
    (fun k t h => by
      rw [events_rowClosed, samples_append, h]
      exact List.append_nil _)
    fun r c hc h => by
      rw [inRow_succ, events_columnVisited, samples_append, h, samples_visitEvents,
        List.append_assoc, ← answerAt_eq s r hc, State.sweepSamples, State.sweepSamples,
        List.range_succ, List.map_append]
      split <;> rfl).1 p.n

/-! ### The totals -/

/-- The weight of an event by its kind: `o` for an event that is no wait, `f c` for a wait of `c`
cycles. The three totals of R238 are sums of such weights. -/
def Event.weight (o : Nat) (f : Nat → Nat) : Event → Nat
  | .pin _ _ => o
  | .addrToggle _ => o
  | .wait c => f c
  | .sample _ => o

/-- The weight of an event list. -/
def weigh (o : Nat) (f : Nat → Nat) (t : List Event) : Nat := (t.map (Event.weight o f)).sum

theorem weigh_append (o : Nat) (f : Nat → Nat) (l m : List Event) :
    weigh o f (l ++ m) = weigh o f l + weigh o f m := by
  simp [weigh]

theorem length_eq_weigh (t : List Event) : t.length = weigh 1 (fun _ => 1) t := by
  have hone : Event.weight 1 (fun _ => 1) = fun _ => 1 := by funext e; cases e <;> rfl
  simp [weigh, hone]

theorem otherEvents_eq_weigh (t : List Event) : otherEvents t = weigh 1 (fun _ => 0) t := by
  have hother : Event.weight 1 (fun _ => 0) = Event.other := by funext e; cases e <;> rfl
  rw [weigh, hother, otherEvents]

theorem waitCycles_eq_weigh (t : List Event) : waitCycles t = weigh 0 id t := by
  have hwait : Event.weight 0 id = Event.waitCycles := by funext e; cases e <;> rfl
  rw [weigh, hwait, waitCycles]

/-- The weight of opening and closing a row. -/
def rowWeight (o : Nat) (f : Nat → Nat) (K : Params) : Nat :=
  3 * o + f (cAs K) + f (cRcd K) + f (cRp K)

/-- The weight of a page write. -/
def writeWeight (o : Nat) (f : Nat → Nat) (K : Params) : Nat :=
  6 * o + f (cAs K) + f (cCas K) + f (cCp K)

/-- The weight of a page read. -/
def readWeight (o : Nat) (f : Nat → Nat) (K : Params) : Nat :=
  4 * o + f (cAs K) + f (cCas K) + f (cXs K) + f (cCp K)

/-- The weight of a visit without a mismatch. -/
def Sweep.visitWeight (o : Nat) (f : Nat → Nat) (p : Sweep) : Nat :=
  match p.kind with
  | .fill => writeWeight o f p.K
  | .checkComplement => readWeight o f p.K + writeWeight o f p.K
  | .check => readWeight o f p.K

/-- The weight a mismatch leaves out (R238). -/
def Sweep.skipWeight (o : Nat) (f : Nat → Nat) (p : Sweep) : Nat :=
  match p.kind with
  | .fill => 0
  | .checkComplement => writeWeight o f p.K
  | .check => 0

variable (o : Nat) (f : Nat → Nat)

theorem weigh_rowEvents (K : Params) (lda : Word) (row : Line) :
    weigh o f (openRowEvents K lda row) + weigh o f (closeRowEvents K) = rowWeight o f K := by
  simp only [weigh, openRowEvents, closeRowEvents, rowWeight, List.map_cons, List.map_nil,
    List.sum_cons, List.sum_nil, Event.weight]
  omega

theorem weigh_pageWriteEvents (K : Params) (lda : Word) (col : Line) (b : Bit) :
    weigh o f (pageWriteEvents K lda col b) = writeWeight o f K := by
  simp only [weigh, pageWriteEvents, writeWeight, List.map_cons, List.map_nil,
    List.sum_cons, List.sum_nil, Event.weight]
  omega

theorem weigh_pageReadEvents (K : Params) (lda : Word) (col : Line) (v : Bit) :
    weigh o f (pageReadEvents K lda col v) = readWeight o f K := by
  simp only [weigh, pageReadEvents, readWeight, List.map_cons, List.map_nil,
    List.sum_cons, List.sum_nil, Event.weight]
  omega

theorem weigh_visitEvents (s : State) (p : Sweep) (col : Line) :
    weigh o f (s.visitEvents p col) +
      (if p.fails (s.answer col) s.patternBit then p.skipWeight o f else 0) = p.visitWeight o f := by
  rw [State.visitEvents, Sweep.fails, Sweep.skipWeight, Sweep.visitWeight]
  cases p.kind with
  | fill => exact weigh_pageWriteEvents ..
  | checkComplement =>
    simp only
    split
    · rw [weigh_pageReadEvents]
    · rw [weigh_append, weigh_pageReadEvents, weigh_pageWriteEvents, Nat.add_zero]
  | check =>
    rw [ite_self]
    exact weigh_pageReadEvents ..

/-- The totals of a sweep by its mismatches (R238). -/
theorem weigh_swept (s : State) (p : Sweep) :
    weigh o f (s.swept p).events + p.skipWeight o f * (s.sweepFailures p).length =
      weigh o f s.events + p.n * (rowWeight o f p.K + p.n * p.visitWeight o f) := by
  refine (sweep_induction (p := p)
    (Rows := fun r => weigh o f (s.afterRows p r).events +
        p.skipWeight o f * (s.failures p (r * p.n)).length =
      weigh o f s.events + r * (rowWeight o f p.K + p.n * p.visitWeight o f))
    (InRow := fun r c => weigh o f (s.inRow p r c).events + weigh o f (closeRowEvents p.K) +
        p.skipWeight o f * (s.failures p (r * p.n + c)).length =
      weigh o f s.events + r * (rowWeight o f p.K + p.n * p.visitWeight o f) +
        rowWeight o f p.K + c * p.visitWeight o f) ?_ ?_ ?_ ?_).1 p.n
  · simp [State.failures]
    rfl
  · intro r hr
    have hevents : (s.inRow p r 0).events =
        (s.afterRows p r).events ++ openRowEvents p.K (s.afterRows p r).x.lda (p.place r) :=
      events_rowEntered _ p _
    rw [hevents, weigh_append]
    have hrow := weigh_rowEvents o f p.K (s.afterRows p r).x.lda (p.place r)
    simp only [Nat.add_zero, Nat.zero_mul]
    omega
  · intro r c hc h
    have hvisit := weigh_visitEvents o f (s.inRow p r c) p (p.place c)
    rw [inRow_succ, events_columnVisited, weigh_append, ← Nat.add_assoc, failures_succ,
      failsAt_eq s r hc, List.length_append, Nat.succ_mul]
    split at hvisit
    · rw [if_pos ‹_›, List.length_singleton, Nat.mul_add, Nat.mul_one]
      omega
    · rw [if_neg ‹_›, List.length_nil, Nat.add_zero]
      omega
  · intro r h
    have hevents : (s.afterRows p (r + 1)).events =
        (s.inRow p r p.n).events ++ closeRowEvents p.K := events_rowClosed _ _
    rw [hevents, weigh_append, Nat.succ_mul, Nat.succ_mul, h]
    omega

end Sys2Proof.Machine
end

section
/-!
PROOFS. The cells under a sweep of the moving-inversions test (`44_moving_inversions.md` R223 to R226),
sweeps one after the other, and `RUN_TEST` as the sweeps it runs (R227, R230).
-/

namespace Sys2Proof.Machine

open Sys2Proof.Safety
open Sys2Proof.Config (Params)

/-! ### The cells -/

/-- The cells and the failure record of a state. -/
def State.view (s : State) : TestView where
  cells := s.dev.cells
  failCnt := s.x.failCnt
  lfRow := s.x.lfRow
  lfCol := s.x.lfCol

/-- A device that answers is asked for no draw. -/
theorem draws_of_answers {s : State} (h : Answers s) : drawsOfRead s = 0 ∧ drawsOfStrobe s = 0 := by
  obtain ⟨hpresent, hreliable⟩ := h
  simp [drawsOfRead, drawsOfStrobe, hpresent, hreliable]

/-- It answers what the cell reads as. -/
theorem answer_of_answers {s : State} (h : Answers s) (col : Line) :
    s.answer col = s.view.read s.dev (pageKey s col) := by
  obtain ⟨hpresent, hreliable⟩ := h
  simp only [State.answer, sampledBit, hpresent, if_true, Device.memReadBit, hreliable]
  rfl

theorem view_pageWritten {s : State} (h : Answers s) (K : Params) (col : Line) (b : Bit) :
    (s.pageWritten K col b).view = s.view.write (pageKey s col) b := by
  have hcells : (s.pageWritten K col b).dev.cells = Cells.store s.dev.cells (pageKey s col) b :=
    cellsAfterWrite_of_answers h _ b
  rw [State.view, hcells]
  rfl

theorem pageKey_pageSampled (s : State) (K : Params) (col : Line) :
    pageKey (s.pageSampled K col) col = pageKey s col :=
  pageKey_after (s := s) (t := s.pageSampled K col) (last := col) rfl rfl rfl rfl col

theorem view_columnVisited {s : State} (h : Answers s) (p : Sweep) (col : Line) :
    (s.columnVisited p col).view =
      s.view.visit s.dev p.kind (s.x.row, col) (pageKey s col) s.patternBit := by
  have hcell : (s.columnVisited p col).view = ((s.withCol col).cellVisited p col).view := rfl
  have hanswer : (s.withCol col).answer col = s.view.read s.dev (pageKey s col) :=
    answer_of_answers h col
  rw [hcell, State.cellVisited]
  unfold TestView.visit
  cases p.kind with
  | fill => exact view_pageWritten (s := s.withCol col) h ..
  | checkComplement =>
    simp only [hanswer, bne_iff_ne, ne_eq, ite_not]
    refine (apply_ite State.view _ _ _).trans ?_
    congr 1
    refine (view_pageWritten (s := (s.withCol col).pageSampled p.K col) h ..).trans ?_
    rw [pageKey_pageSampled]
    rfl
  | check =>
    simp only [hanswer, bne_iff_ne, ne_eq, ite_not]
    exact apply_ite State.view _ _ _

theorem cellVisited_freeNo {s : State} (h : Answers s) (p : Sweep) (col : Line) :
    (s.cellVisited p col).freeNo = s.freeNo := by
  refine (cellVisited_keeps (R := fun t => Answers t ∧ t.freeNo = s.freeNo) (fun t b ht => ?_)
    (fun t ht => ?_) (fun _ ht => ht) ⟨h, rfl⟩).2
  · exact ⟨ht.1, (congrArg (t.freeNo + ·) (draws_of_answers ht.1).2).trans ht.2⟩
  · exact ⟨ht.1, (congrArg (t.freeNo + ·) (draws_of_answers ht.1).1).trans ht.2⟩

/-- The key of the cell of visit `k`. -/
def visitKey (s : State) (dir : Direction) (n k : Nat) : Nat :=
  targetKey s (visited dir n k).1 (visited dir n k).2

theorem pageKey_eq_visitKey {s : State} (hpresent : s.dev.present = true) (p : Sweep) (r : Nat)
    {c : Nat} (hc : c < p.n) :
    pageKey (s.inRow p r c) (p.place c) = visitKey s p.dir p.n (r * p.n + c) := by
  rw [visitKey, visited_place p r hc, pageKey_inRow hpresent p r hc.le]

theorem inRow_view {s : State} (h : Answers s) (p : Sweep) :
    (∀ r, (s.afterRows p r).view =
      TestView.visits s p.K.patternInit p.kind p.dir p.n (r * p.n) s.view) ∧
    ∀ r, ∀ c ≤ p.n, (s.inRow p r c).view =
      TestView.visits s p.K.patternInit p.kind p.dir p.n (r * p.n + c) s.view :=
  visits_induction (R := fun k t => t.view =
      TestView.visits s p.K.patternInit p.kind p.dir p.n k s.view) rfl (fun _ _ _ h => h)
    (fun _ _ h => h) fun r c hc ih => by
      have hfollows := (follows_afterRows s p).2 r c hc.le
      rw [inRow_succ, view_columnVisited (hfollows.answers h), ih, (row_inRow s p r c).1,
        pageKey_eq_visitKey h.1 p r hc, patternBit_inRow s p r hc.le, hfollows.dev,
        TestView.visits, ← visitKey, visited_place p r hc]
      rfl

/-- Where a device answers, a sweep does to the cells and to the failure record what the sweep of the
rules does to cells (R223 to R226). -/
theorem view_swept {s : State} (h : Answers s) (p : Sweep) :
    (s.swept p).view = s.view.sweep s p.K.patternInit p.kind p.dir p.n :=
  (inRow_view h p).1 p.n

theorem freeNo_swept {s : State} (h : Answers s) (p : Sweep) : (s.swept p).freeNo = s.freeNo :=
  (visits_induction (R := fun _ t => t.freeNo = s.freeNo) rfl (fun _ _ _ h => h) (fun _ _ h => h)
    fun r c hc ih => (cellVisited_freeNo (s := (s.inRow p r c).withCol (p.place c))
      (((follows_afterRows s p).2 r c hc.le).answers h) p (p.place c)).trans ih).1 p.n

/-- And a visit samples what its cell reads as. -/
theorem answerAt_of_answers {s : State} (h : Answers s) {p : Sweep} {k : Nat}
    (hk : k < p.n * p.n) : s.answerAt p k =
      (TestView.visits s p.K.patternInit p.kind p.dir p.n k s.view).read s.dev
        (visitKey s p.dir p.n k) := by
  have hc : k % p.n < p.n := Nat.mod_lt _ (Nat.pos_of_lt_mul_left hk)
  have hk' : k = k / p.n * p.n + k % p.n := (Nat.div_add_mod' k p.n).symm
  have hfollows := (follows_afterRows s p).2 (k / p.n) (k % p.n) hc.le
  rw [State.answerAt, answer_of_answers (hfollows.answers h), pageKey_eq_visitKey h.1 p _ hc,
    (inRow_view h p).2 _ _ hc.le, ← hk', hfollows.dev]
  rfl

/-- What a sweep of the rules does depends on the stuck cells and on the keys only. -/
theorem visits_congr {s t : State} (hstuck : t.dev.stuck = s.dev.stuck)
    (hkey : ∀ row col, targetKey t row col = targetKey s row col) (init : Word) (kind : SweepKind)
    (dir : Direction) (n k : Nat) (v : TestView) :
    TestView.visits t init kind dir n k v = TestView.visits s init kind dir n k v := by
  induction k with
  | zero => rfl
  | succ k ih =>
    have hread : ∀ (w : TestView) key, w.read t.dev key = w.read s.dev key := fun w key => by
      simp only [TestView.read, Device.readCell, Device.cell, hstuck]
    rw [TestView.visits, ih, hkey, TestView.visits]
    unfold TestView.visit
    rw [hread]

theorem Follows.viewSweep {s t : State} (h : Follows s t) (v : TestView) (init : Word)
    (kind : SweepKind) (dir : Direction) (n : Nat) :
    v.sweep t init kind dir n = v.sweep s init kind dir n :=
  visits_congr (by rw [h.dev]) h.targetKey ..

/-! ### The mismatches of a sweep -/

theorem length_failures_le (s : State) (p : Sweep) (k : Nat) : (s.failures p k).length ≤ k := by
  simpa [State.failures] using List.length_filter_le (s.failsAt p) (List.range k)

theorem failures_of_fill (s : State) {p : Sweep} (h : p.kind = .fill) (k : Nat) :
    s.failures p k = [] := by
  simp [State.failures, State.failsAt, Sweep.fails, h]

theorem failCnt_swept {s : State} (h : Unfailed s) (p : Sweep) :
    (s.swept p).x.failCnt = BitVec.ofNat 32 (s.sweepFailures p).length :=
  congrArg TestRecord.failCnt (record_swept h p)

/-- The counter does not wrap (R233). -/
theorem failCnt_swept_toNat {s : State} (h : Unfailed s) {p : Sweep} (hn : p.n ≤ 512) :
    (s.swept p).x.failCnt.toNat = (s.sweepFailures p).length := by
  have hlength : (s.sweepFailures p).length ≤ p.n * p.n := length_failures_le s p _
  have hside : p.n * p.n ≤ 512 * 512 := Nat.mul_le_mul hn hn
  rw [failCnt_swept h, BitVec.toNat_ofNat, Nat.mod_eq_of_lt (by omega)]

/-- So it is 0 exactly where there was no mismatch. -/
theorem failCnt_swept_eq_zero {s : State} (h : Unfailed s) {p : Sweep} (hn : p.n ≤ 512) :
    (s.swept p).x.failCnt = 0#32 ↔ s.sweepFailures p = [] := by
  rw [← List.length_eq_zero_iff, ← failCnt_swept_toNat h hn, ← BitVec.toNat_inj]
  rfl

theorem unfailed_swept {s : State} (h : Unfailed s) {p : Sweep} (hp : s.sweepFailures p = []) :
    Unfailed (s.swept p) := by
  have hrecord := record_swept h p
  rw [hp] at hrecord
  exact ⟨congrArg TestRecord.failCnt hrecord, congrArg TestRecord.lfRow hrecord,
    congrArg TestRecord.lfCol hrecord⟩

/-! ### Sweeps one after the other -/

/-- The state sweeps one after the other leave. -/
def State.ran (s : State) : List Sweep → State
  | [] => s
  | p :: rest => (s.swept p).ran rest

/-- Sweeps without a mismatch. -/
def State.passes (s : State) : List Sweep → Prop
  | [] => True
  | p :: rest => s.sweepFailures p = [] ∧ (s.swept p).passes rest

/-- The bits they sample, a list for each sweep that samples. -/
def State.ranSamples (s : State) : List Sweep → List (List Bit)
  | [] => []
  | p :: rest =>
    if p.kind = .fill then (s.swept p).ranSamples rest
    else s.sweepSamples p (p.n * p.n) :: (s.swept p).ranSamples rest

theorem ran_nil (s : State) : s.ran [] = s := rfl

theorem ran_cons (s : State) (p : Sweep) (rest : List Sweep) :
    s.ran (p :: rest) = (s.swept p).ran rest := rfl

theorem ran_append (s : State) (l m : List Sweep) : s.ran (l ++ m) = (s.ran l).ran m := by
  induction l generalizing s with
  | nil => rfl
  | cons p rest ih => exact ih (s.swept p)

theorem follows_ran (s : State) (l : List Sweep) : Follows s (s.ran l) := by
  induction l generalizing s with
  | nil => exact Follows.refl s
  | cons p rest ih => exact (follows_swept s p).trans (ih (s.swept p))

theorem atIdle_ran {s : State} (h : AtIdle s) (l : List Sweep) : AtIdle (s.ran l) := by
  induction l generalizing s with
  | nil => exact h
  | cons p rest ih => exact ih (atIdle_swept h p)

theorem unfailed_ran {s : State} (h : Unfailed s) {l : List Sweep} (hl : s.passes l) :
    Unfailed (s.ran l) := by
  induction l generalizing s with
  | nil => exact h
  | cons p rest ih => exact ih (unfailed_swept h hl.1) hl.2

theorem samples_ran (s : State) (l : List Sweep) :
    samples (s.ran l).events = samples s.events ++ (s.ranSamples l).flatten := by
  induction l generalizing s with
  | nil => exact (List.append_nil _).symm
  | cons p rest ih =>
    rw [State.ran, ih, samples_swept, State.ranSamples, List.append_assoc]
    by_cases hkind : p.kind = .fill
    · simp [State.sweepSamples, hkind]
    · simp [hkind]

/-- The totals of sweeps without a mismatch. -/
theorem weigh_ran (o : Nat) (f : Nat → Nat) {s : State} {l : List Sweep} (hl : s.passes l) :
    weigh o f (s.ran l).events = weigh o f s.events +
      (l.map fun p => p.n * (rowWeight o f p.K + p.n * p.visitWeight o f)).sum := by
  induction l generalizing s with
  | nil => rfl
  | cons p rest ih =>
    have hswept := weigh_swept o f s p
    rw [hl.1, List.length_nil, Nat.mul_zero, Nat.add_zero] at hswept
    rw [State.ran, ih hl.2, hswept, List.map_cons, List.sum_cons, Nat.add_assoc]

end Sys2Proof.Machine
end

section
/-!
PROOFS. `RUN_TEST` as the sweeps it runs (`44_moving_inversions.md` R223, R227, R230).
-/

namespace Sys2Proof.Machine

open Sys2Proof.Safety
open Sys2Proof.Config (Params)

/-! The six sweeps (R223). -/

def fillUp (K : Params) (n : Nat) : Sweep := ⟨K, 1#3, .fill, .ascending, n⟩

def complementUp (K : Params) (n : Nat) : Sweep := ⟨K, 2#3, .checkComplement, .ascending, n⟩

def checkUp (K : Params) (n : Nat) : Sweep := ⟨K, 3#3, .check, .ascending, n⟩

def fillDown (K : Params) (n : Nat) : Sweep := ⟨K, 4#3, .fill, .descending, n⟩

def complementDown (K : Params) (n : Nat) : Sweep := ⟨K, 5#3, .checkComplement, .descending, n⟩

def checkDown (K : Params) (n : Nat) : Sweep := ⟨K, 6#3, .check, .descending, n⟩

/-- The state in which the sweeps of a test begin (R230). -/
def State.testStarted (s : State) (lines : BitVec 4) : State :=
  (s.withNlines lines).failuresCleared

theorem unfailed_testStarted (s : State) (lines : BitVec 4) : Unfailed (s.testStarted lines) :=
  ⟨rfl, rfl, rfl⟩

theorem atIdle_testStarted {s : State} (h : AtIdle s) (lines : BitVec 4) :
    AtIdle (s.testStarted lines) := h

/-- The early stop (R227). -/
def State.ifUnfailed (s : State) (f : State → State) : State :=
  if s.x.failCnt = 0#32 then f s else s

/-- The state a test leaves, from the state in which its sweeps begin. -/
def State.tested (s : State) (K : Params) (n : Nat) : State :=
  ((((s.swept (fillUp K n)).swept (complementUp K n)).ifUnfailed (·.swept (checkUp K n))).ifUnfailed
    fun t => (t.swept (fillDown K n)).swept (complementDown K n)).ifUnfailed (·.swept (checkDown K n))

/-! ### The engine does it -/

theorem runTestOn_eq (K : Params) (lines : BitVec 4) (n : Nat) : runTestOn K lines n = (do
    setNlines lines
    clearFailures
    (fillUp K n).run
    (complementUp K n).run
    ifNoFailure (checkUp K n).run
    ifNoFailure (do (fillDown K n).run; (complementDown K n).run)
    ifNoFailure (checkDown K n).run
    let s ← get
    return s.testResult) := by
  simp only [Sweep.run, bind_assoc]
  rfl

theorem ifNoFailure_atIdle {m : Micro Unit} {f : State → State}
    (h : ∀ s, AtIdle s → m s = .ok () (f s) ∧ AtIdle (f s)) {s : State} (hs : AtIdle s) :
    ifNoFailure m s = .ok () (s.ifUnfailed f) ∧ AtIdle (s.ifUnfailed f) := by
  have heq : ifNoFailure m s = if s.x.failCnt = 0#32 then m s else .ok () s :=
    apply_ite (fun m : Micro Unit => m s) _ _ _
  rw [heq, State.ifUnfailed]
  split
  · exact h s hs
  · exact ⟨rfl, hs⟩

theorem runTestOn_atIdle (K : Params) (lines : BitVec 4) (n : Nat) {s : State} (h : AtIdle s) :
    runTestOn K lines n s = .ok ((s.testStarted lines).tested K n).testResult
      ((s.testStarted lines).tested K n) := by
  have hstart := atIdle_testStarted h lines
  have hone := atIdle_swept hstart (fillUp K n)
  have htwo := atIdle_swept hone (complementUp K n)
  obtain ⟨hcheckUp, hthree⟩ := ifNoFailure_atIdle (m := (checkUp K n).run)
    (fun t ht => ⟨sweep_atIdle _ ht, atIdle_swept ht _⟩) htwo
  obtain ⟨hdown, hfive⟩ := ifNoFailure_atIdle
    (m := do (fillDown K n).run; (complementDown K n).run)
    (fun t ht => ⟨(micro_bind_ok (sweep_atIdle _ ht) _).trans (sweep_atIdle _ (atIdle_swept ht _)),
      atIdle_swept (atIdle_swept ht _) _⟩) hthree
  obtain ⟨hcheckDown, -⟩ := ifNoFailure_atIdle (m := (checkDown K n).run)
    (fun t ht => ⟨sweep_atIdle _ ht, atIdle_swept ht _⟩) hfive
  rw [runTestOn_eq]
  refine (micro_bind_ok (sweep_atIdle (fillUp K n) hstart) _).trans ?_
  refine (micro_bind_ok (sweep_atIdle (complementUp K n) hone) _).trans ?_
  refine (micro_bind_ok hcheckUp _).trans ?_
  refine (micro_bind_ok hdown _).trans ?_
  exact micro_bind_ok hcheckDown _

/-- The operation is its sweeps. -/
theorem exec_runTest {lines : BitVec 4} {s : State} (hlines : legalLines lines = true)
    (h : Undisturbed s) (hready : ReadyIdle s) :
    exec (.runTest lines) s = .next
      (((s.nowBusy.testStarted lines).tested Config.machine (sideOf lines)).finished
        ((s.nowBusy.testStarted lines).tested Config.machine (sideOf lines)).testResult) := by
  refine exec_of_body (accepts_of_accepting hlines rfl hready.1) ?_
  rw [started_of_hostSilent h.2]
  exact runTestOn_atIdle _ _ _ (atIdle_nowBusy h hready)

/-! ### Where it ends -/

theorem ifUnfailed_of_eq {s : State} (h : s.x.failCnt = 0#32) (f : State → State) :
    s.ifUnfailed f = f s := if_pos h

theorem ifUnfailed_of_ne {s : State} (h : s.x.failCnt ≠ 0#32) (f : State → State) :
    s.ifUnfailed f = s := if_neg h

/-- The sweeps before the last one, and the last one, by where a test ends (R223, R227). -/
def testEnds (K : Params) (n : Nat) : List (List Sweep × Sweep) :=
  [([fillUp K n], complementUp K n),
    ([fillUp K n, complementUp K n], checkUp K n),
    ([fillUp K n, complementUp K n, checkUp K n, fillDown K n], complementDown K n),
    ([fillUp K n, complementUp K n, checkUp K n, fillDown K n, complementDown K n], checkDown K n)]

/-- A test that begins in `s` and leaves `t` has run `before` without a mismatch and then `last`; if
that is not the sixth sweep, it had a mismatch. -/
structure EndsAfter (K : Params) (n : Nat) (s t : State) (before : List Sweep) (last : Sweep) :
    Prop where
  ends : (before, last) ∈ testEnds K n
  passed : s.passes before
  state : t = (s.ran before).swept last
  stopped : last.number = 6#3 ∨ (s.ran before).sweepFailures last ≠ []

section

variable {s : State} {K : Params} {n : Nat}

/-- The counter is 0 exactly after a sweep without a mismatch. -/
theorem failCnt_ran_ne_zero (h : Unfailed s) {before : List Sweep} (hpassed : s.passes before)
    {last : Sweep} (hn : last.n ≤ 512) (hfails : (s.ran before).sweepFailures last ≠ []) :
    ((s.ran before).swept last).x.failCnt ≠ 0#32 :=
  (failCnt_swept_eq_zero (unfailed_ran h hpassed) hn).not.mpr hfails

theorem tested_of_two_fails (h : Unfailed s) (hn : n ≤ 512) (hpassed : s.passes [fillUp K n])
    (hfails : (s.ran [fillUp K n]).sweepFailures (complementUp K n) ≠ []) :
    s.tested K n = (s.ran [fillUp K n]).swept (complementUp K n) := by
  have hstop := failCnt_ran_ne_zero h hpassed (last := complementUp K n) hn hfails
  simp only [ran_cons, ran_nil] at hstop ⊢
  rw [State.tested, ifUnfailed_of_ne hstop, ifUnfailed_of_ne hstop, ifUnfailed_of_ne hstop]

theorem tested_of_three_fails (h : Unfailed s) (hn : n ≤ 512)
    (hpassed : s.passes [fillUp K n, complementUp K n])
    (hfails : (s.ran [fillUp K n, complementUp K n]).sweepFailures (checkUp K n) ≠ []) :
    s.tested K n = (s.ran [fillUp K n, complementUp K n]).swept (checkUp K n) := by
  have htwo := (unfailed_ran h hpassed).1
  have hstop := failCnt_ran_ne_zero h hpassed (last := checkUp K n) hn hfails
  simp only [ran_cons, ran_nil] at htwo hstop ⊢
  rw [State.tested, ifUnfailed_of_eq htwo, ifUnfailed_of_ne hstop, ifUnfailed_of_ne hstop]

theorem tested_of_five_fails (h : Unfailed s) (hn : n ≤ 512)
    (hpassed : s.passes [fillUp K n, complementUp K n, checkUp K n, fillDown K n])
    (hfails : (s.ran [fillUp K n, complementUp K n, checkUp K n, fillDown K n]).sweepFailures
      (complementDown K n) ≠ []) : s.tested K n =
      (s.ran [fillUp K n, complementUp K n, checkUp K n, fillDown K n]).swept
        (complementDown K n) := by
  have hstop := failCnt_ran_ne_zero h hpassed (last := complementDown K n) hn hfails
  obtain ⟨h1, h2, h3, -⟩ := hpassed
  have htwo := (unfailed_ran h (l := [fillUp K n, complementUp K n]) ⟨h1, h2, trivial⟩).1
  have hthree := (unfailed_ran h (l := [fillUp K n, complementUp K n, checkUp K n])
    ⟨h1, h2, h3, trivial⟩).1
  simp only [ran_cons, ran_nil] at htwo hthree hstop ⊢
  rw [State.tested, ifUnfailed_of_eq htwo, ifUnfailed_of_eq hthree, ifUnfailed_of_ne hstop]

theorem tested_of_five_passes (h : Unfailed s) (hpassed : s.passes
    [fillUp K n, complementUp K n, checkUp K n, fillDown K n, complementDown K n]) :
    s.tested K n = (s.ran [fillUp K n, complementUp K n, checkUp K n, fillDown K n,
      complementDown K n]).swept (checkDown K n) := by
  have hfive := (unfailed_ran h hpassed).1
  obtain ⟨h1, h2, h3, -⟩ := hpassed
  have htwo := (unfailed_ran h (l := [fillUp K n, complementUp K n]) ⟨h1, h2, trivial⟩).1
  have hthree := (unfailed_ran h (l := [fillUp K n, complementUp K n, checkUp K n])
    ⟨h1, h2, h3, trivial⟩).1
  simp only [ran_cons, ran_nil] at htwo hthree hfive ⊢
  rw [State.tested, ifUnfailed_of_eq htwo, ifUnfailed_of_eq hthree, ifUnfailed_of_eq hfive]

end

/-- A test ends after sweep 2, 3, 5 or 6 (R227). -/
theorem tested_endsAfter {s : State} (h : Unfailed s) (K : Params) {n : Nat} (hn : n ≤ 512) :
    ∃ before last, EndsAfter K n s (s.tested K n) before last := by
  have h1 := failures_of_fill s (p := fillUp K n) rfl (n * n)
  by_cases h2 : (s.ran [fillUp K n]).sweepFailures (complementUp K n) = []
  case neg =>
    exact ⟨_, _, List.mem_of_getElem? (i := 0) rfl, ⟨h1, trivial⟩,
      tested_of_two_fails h hn ⟨h1, trivial⟩ h2, .inr h2⟩
  by_cases h3 : (s.ran [fillUp K n, complementUp K n]).sweepFailures (checkUp K n) = []
  case neg =>
    exact ⟨_, _, List.mem_of_getElem? (i := 1) rfl, ⟨h1, h2, trivial⟩,
      tested_of_three_fails h hn ⟨h1, h2, trivial⟩ h3, .inr h3⟩
  have h4 := failures_of_fill (s.ran [fillUp K n, complementUp K n, checkUp K n])
    (p := fillDown K n) rfl (n * n)
  by_cases h5 : (s.ran [fillUp K n, complementUp K n, checkUp K n, fillDown K n]).sweepFailures
      (complementDown K n) = []
  case neg =>
    exact ⟨_, _, List.mem_of_getElem? (i := 2) rfl, ⟨h1, h2, h3, h4, trivial⟩,
      tested_of_five_fails h hn ⟨h1, h2, h3, h4, trivial⟩ h5, .inr h5⟩
  exact ⟨_, _, List.mem_of_getElem? (i := 3) rfl, ⟨h1, h2, h3, h4, h5, trivial⟩,
    tested_of_five_passes h ⟨h1, h2, h3, h4, h5, trivial⟩, .inl rfl⟩

end Sys2Proof.Machine
end

section
/-!
PROOFS. The totals of `RUN_TEST`, its record and its refinement of the cell test
(`44_moving_inversions.md` R223 to R238).
-/

namespace Sys2Proof.Machine

open Sys2Proof.Safety
open Sys2Proof.Config (Params)

namespace EndsAfter

variable {K : Params} {n : Nat} {s t : State} {before : List Sweep} {last : Sweep}

/-- The four ends of a test. -/
theorem cases (h : EndsAfter K n s t before last) :
    (before = [fillUp K n] ∧ last = complementUp K n) ∨
    (before = [fillUp K n, complementUp K n] ∧ last = checkUp K n) ∨
    (before = [fillUp K n, complementUp K n, checkUp K n, fillDown K n] ∧
      last = complementDown K n) ∨
    (before = [fillUp K n, complementUp K n, checkUp K n, fillDown K n, complementDown K n] ∧
      last = checkDown K n) := by
  simpa [testEnds] using h.ends

theorem side (h : EndsAfter K n s t before last) : last.n = n := by
  obtain ⟨-, rfl⟩ | ⟨-, rfl⟩ | ⟨-, rfl⟩ | ⟨-, rfl⟩ := h.cases <;> rfl

theorem unfailed (h : EndsAfter K n s t before last) (hs : Unfailed s) : Unfailed (s.ran before) :=
  unfailed_ran hs h.passed

/-- The record is that of the last sweep (R228). -/
theorem record (h : EndsAfter K n s t before last) (hs : Unfailed s) :
    t.record = recordOf last.dir n ((s.ran before).sweepFailures last) last.number := by
  rw [h.state, record_swept (h.unfailed hs), h.side]

theorem sweep_eq (h : EndsAfter K n s t before last) (hs : Unfailed s) : t.x.sweep = last.number :=
  congrArg TestRecord.lastSweep (h.record hs)

theorem failCnt_toNat (h : EndsAfter K n s t before last) (hs : Unfailed s) (hn : n ≤ 512) :
    t.x.failCnt.toNat = ((s.ran before).sweepFailures last).length := by
  rw [h.state, failCnt_swept_toNat (h.unfailed hs) (h.side ▸ hn)]

/-! ### The totals (R238) -/

theorem skippedWrites_eq (h : EndsAfter K n s t before last) (hs : Unfailed s) (hn : n ≤ 512)
    (o : Nat) (f : Nat → Nat) : writeWeight o f K * skippedWrites t.x.sweep t.x.failCnt =
      last.skipWeight o f * ((s.ran before).sweepFailures last).length := by
  rw [h.sweep_eq hs, skippedWrites, h.failCnt_toNat hs hn]
  obtain ⟨-, rfl⟩ | ⟨-, rfl⟩ | ⟨-, rfl⟩ | ⟨-, rfl⟩ := h.cases <;>
    simp [complementUp, checkUp, complementDown, checkDown, Sweep.skipWeight]

theorem totals (h : EndsAfter K n s t before last) (hs : Unfailed s) (hn : n ≤ 512)
    (o : Nat) (f : Nat → Nat) {new : List Event} (hnew : t.events = s.events ++ new) :
    weigh o f new + writeWeight o f K * skippedWrites t.x.sweep t.x.failCnt =
      n * (fillSweepsRun t.x.sweep * (rowWeight o f K + n * writeWeight o f K) +
        fillSweepsRun t.x.sweep * (rowWeight o f K + n * (readWeight o f K + writeWeight o f K)) +
        checkSweepsRun t.x.sweep * (rowWeight o f K + n * readWeight o f K)) := by
  have hlast := weigh_swept o f (s.ran before) last
  rw [← h.state, ← h.skippedWrites_eq hs hn, weigh_ran o f h.passed, hnew, weigh_append] at hlast
  rw [Nat.add_assoc, Nat.add_assoc, Nat.add_left_cancel_iff] at hlast
  rw [hlast, h.sweep_eq hs]
  obtain ⟨rfl, rfl⟩ | ⟨rfl, rfl⟩ | ⟨rfl, rfl⟩ | ⟨rfl, rfl⟩ := h.cases <;>
    simp [fillUp, complementUp, checkUp, fillDown, complementDown, checkDown, Sweep.visitWeight,
      fillSweepsRun, checkSweepsRun] <;> ring

/-! ### The record from the samples (R225 to R228) -/

/-- The sweeps of a test are followed by nothing but its end. -/
theorem ran_eq (h : EndsAfter K n s t before last) : t = s.ran (before ++ [last]) := by
  rw [h.state, ran_append]
  rfl

end EndsAfter

theorem getD_flatten_blocks {N : Nat} {blocks : List (List Bit)} (h : ∀ b ∈ blocks, b.length = N)
    {m k : Nat} (hk : k < N) {b : List Bit} (hb : blocks[m]? = some b) :
    blocks.flatten.getD (m * N + k) false = b.getD k false := by
  induction blocks generalizing m with
  | nil => simp at hb
  | cons a rest ih =>
    have ha : a.length = N := h a List.mem_cons_self
    cases m with
    | zero =>
      obtain rfl : a = b := by simpa using hb
      rw [List.flatten_cons, Nat.zero_mul, Nat.zero_add, List.getD_append _ _ _ _ (ha ▸ hk)]
    | succ m =>
      have hbeyond : a.length ≤ (m + 1) * N + k := by
        rw [ha, Nat.succ_mul]
        omega
      rw [List.flatten_cons, List.getD_append_right _ _ _ _ hbeyond,
        show (m + 1) * N + k - a.length = m * N + k by rw [ha, Nat.succ_mul]; omega]
      exact ih (fun b hb => h b (List.mem_cons_of_mem _ hb)) (by simpa using hb)

theorem length_flatten_blocks {N : Nat} {blocks : List (List Bit)}
    (h : ∀ b ∈ blocks, b.length = N) : blocks.flatten.length = blocks.length * N := by
  rw [List.length_flatten, List.map_congr_left h, List.map_const', List.sum_replicate, smul_eq_mul]

/-- Every sweep that samples does so once for each cell. -/
theorem length_ranSamples {n : Nat} {s : State} {l : List Sweep} (hl : ∀ p ∈ l, p.n = n) :
    ∀ b ∈ s.ranSamples l, b.length = n * n := by
  induction l generalizing s with
  | nil => simp [State.ranSamples]
  | cons p rest ih =>
    have hp : p.n = n := hl p List.mem_cons_self
    have hrest := ih (s := s.swept p) fun q hq => hl q (List.mem_cons_of_mem _ hq)
    rw [State.ranSamples]
    split
    · exact hrest
    · refine List.forall_mem_cons.mpr ⟨?_, hrest⟩
      simp [State.sweepSamples, ‹¬ p.kind = .fill›, hp]

/-- The bit a checking sweep expects at visit `k` (R225, R226). -/
def Sweep.expected (p : Sweep) (k : Nat) : Bit :=
  match p.kind with
  | .fill => patBit p.K.patternInit k
  | .checkComplement => patBit p.K.patternInit k
  | .check => !patBit p.K.patternInit k

theorem fails_eq {p : Sweep} (h : p.kind ≠ .fill) (answer : Bit) (k : Nat) :
    p.fails answer (patBit p.K.patternInit k) = (answer != p.expected k) := by
  unfold Sweep.fails Sweep.expected
  cases hkind : p.kind with
  | fill => exact absurd hkind h
  | checkComplement => rfl
  | check => rfl

/-- The mismatches of a sweep among the samples in block `m`. -/
def blockMismatches (p : Sweep) (blocks : List (List Bit)) (m : Nat) : List Nat :=
  mismatches p.n (fun k => blocks.flatten.getD (m * (p.n * p.n) + k) false) p.expected

/-- The mismatches found in the samples of a sweep are the mismatches of the sweep. -/
theorem blockMismatches_eq {s : State} {p : Sweep} {blocks : List (List Bit)} {m : Nat}
    (hblocks : ∀ b ∈ blocks, b.length = p.n * p.n) (hkind : p.kind ≠ .fill)
    (hm : blocks[m]? = some (s.sweepSamples p (p.n * p.n))) :
    blockMismatches p blocks m = s.sweepFailures p := by
  refine List.filter_congr fun k hk => ?_
  have hk' : k < p.n * p.n := List.mem_range.mp hk
  beta_reduce
  rw [getD_flatten_blocks hblocks hk' hm, State.failsAt, fails_eq hkind]
  simp [State.sweepSamples, hkind, hk']

/-- The record of samples in blocks, by the sweeps that took them. -/
theorem sampledTest_flatten (K : Params) (n : Nat) (blocks : List (List Bit)) :
    sampledTest K.patternInit n blocks.flatten =
      if blockMismatches (complementUp K n) blocks 0 ≠ [] then
        recordOf .ascending n (blockMismatches (complementUp K n) blocks 0) 2#3
      else if blockMismatches (checkUp K n) blocks 1 ≠ [] then
        recordOf .ascending n (blockMismatches (checkUp K n) blocks 1) 3#3
      else if blockMismatches (complementDown K n) blocks 2 ≠ [] then
        recordOf .descending n (blockMismatches (complementDown K n) blocks 2) 5#3
      else recordOf .descending n (blockMismatches (checkDown K n) blocks 3) 6#3 := rfl

end Sys2Proof.Machine
end

section
/-!
PROOFS. `RUN_TEST` told by its samples, its totals, and its refinement of the test at the level of cells
(`44_moving_inversions.md` R223 to R234, R238).
-/

namespace Sys2Proof.Machine

open Sys2Proof.Safety
open Sys2Proof.Config (Params)

namespace EndsAfter

variable {K : Params} {n : Nat} {s t : State} {before : List Sweep} {last : Sweep}

theorem sides (h : EndsAfter K n s t before last) : ∀ p ∈ before ++ [last], p.n = n := by
  obtain ⟨rfl, rfl⟩ | ⟨rfl, rfl⟩ | ⟨rfl, rfl⟩ | ⟨rfl, rfl⟩ := h.cases <;>
    simp [fillUp, complementUp, checkUp, fillDown, complementDown, checkDown]

/-- The bits a test samples, a list for each sweep that samples. -/
theorem length_blocks (h : EndsAfter K n s t before last) :
    ∀ b ∈ s.ranSamples (before ++ [last]), b.length = n * n :=
  length_ranSamples h.sides

/-- The samples, compared with the pattern, give the record (R225 to R228). -/
theorem sampledTest_eq (h : EndsAfter K n s t before last) (hs : Unfailed s) :
    sampledTest K.patternInit n (s.ranSamples (before ++ [last])).flatten = t.record := by
  have hblocks := h.length_blocks
  have hstopped := h.stopped
  have hpassed := h.passed
  rw [h.record hs, sampledTest_flatten]
  obtain ⟨rfl, rfl⟩ | ⟨rfl, rfl⟩ | ⟨rfl, rfl⟩ | ⟨rfl, rfl⟩ := h.cases
  · have htwo := blockMismatches_eq (p := complementUp K n) (m := 0) hblocks nofun rfl
    have hfails := hstopped.resolve_left (nofun : ¬ 2#3 = 6#3)
    rw [htwo]
    exact if_pos hfails
  · obtain ⟨-, h2, -⟩ := hpassed
    have htwo := (blockMismatches_eq (p := complementUp K n) (m := 0) hblocks nofun rfl).trans h2
    have hthree := blockMismatches_eq (p := checkUp K n) (m := 1) hblocks nofun rfl
    have hfails := hstopped.resolve_left (nofun : ¬ 3#3 = 6#3)
    rw [htwo, if_neg (not_not.mpr rfl), hthree]
    exact if_pos hfails
  · obtain ⟨-, h2, h3, -⟩ := hpassed
    have htwo := (blockMismatches_eq (p := complementUp K n) (m := 0) hblocks nofun rfl).trans h2
    have hthree := (blockMismatches_eq (p := checkUp K n) (m := 1) hblocks nofun rfl).trans h3
    have hfive := blockMismatches_eq (p := complementDown K n) (m := 2) hblocks nofun rfl
    have hfails := hstopped.resolve_left (nofun : ¬ 5#3 = 6#3)
    rw [htwo, if_neg (not_not.mpr rfl), hthree, if_neg (not_not.mpr rfl), hfive]
    exact if_pos hfails
  · obtain ⟨-, h2, h3, -, h5, -⟩ := hpassed
    have htwo := (blockMismatches_eq (p := complementUp K n) (m := 0) hblocks nofun rfl).trans h2
    have hthree := (blockMismatches_eq (p := checkUp K n) (m := 1) hblocks nofun rfl).trans h3
    have hfive := (blockMismatches_eq (p := complementDown K n) (m := 2) hblocks nofun rfl).trans h5
    have hsix := blockMismatches_eq (p := checkDown K n) (m := 3) hblocks nofun rfl
    rw [htwo, if_neg (not_not.mpr rfl), hthree, if_neg (not_not.mpr rfl), hfive,
      if_neg (not_not.mpr rfl), hsix]
    rfl

end EndsAfter

/-! ### What a test leaves -/

theorem index_lt (p : Sweep) {k : Nat} (hk : k < p.n) : p.index k < p.n := by
  unfold Sweep.index
  cases p.dir
  · exact hk
  · simp only
    omega

theorem place_lt (p : Sweep) {k : Nat} (hk : k < p.n) : (p.place k).toNat < p.n :=
  lt_of_le_of_lt (BitVec.toNat_ofNat .. ▸ Nat.mod_le _ _) (index_lt p hk)

/-- The place recorded is one of the array (R233). -/
theorem recordOf_place_lt {p : Sweep} (hpos : 0 < p.n) {failed : List Nat}
    (hfailed : ∀ k ∈ failed, k < p.n * p.n) (last : BitVec 3) :
    (recordOf p.dir p.n failed last).lfRow.toNat < p.n ∧
      (recordOf p.dir p.n failed last).lfCol.toNat < p.n := by
  unfold recordOf
  cases hlast : failed.getLast? with
  | none => exact ⟨hpos, hpos⟩
  | some k =>
    have hk := hfailed k (List.mem_of_getLast? hlast)
    simp only [Option.elim_some, visited_eq]
    exact ⟨place_lt p (Nat.div_lt_of_lt_mul hk), place_lt p (Nat.mod_lt _ hpos)⟩

/-- After a sweep the last column visited is the address last driven, and no wait is in progress
(R234). -/
theorem regs_swept (s : State) {p : Sweep} (hpos : 0 < p.n) :
    (s.swept p).x.lda = lineAddress (p.place (p.n - 1)) ∧ (s.swept p).x.dcnt = 0 := by
  have lda : ∀ (t : State) (col : Line), (t.cellVisited p col).x.lda = lineAddress col := fun t col => by
    unfold State.cellVisited
    cases p.kind with
    | fill => rfl
    | checkComplement => simp only; split <;> rfl
    | check => simp only; split <;> rfl
  obtain ⟨m, hm⟩ := Nat.exists_eq_succ_of_ne_zero hpos.ne'
  have hrow : s.swept p = (s.inRow p m (m + 1)).rowClosed p.K := by
    rw [State.swept, hm, State.afterRows, hm]
    rfl
  rw [hrow, hm]
  exact ⟨lda _ _, rfl⟩

/-- The lines show the address last driven. -/
theorem pin_a_eq_presented (s : State) : s.pin.a = presented s (wired s.x.lda) := by
  simp [presented, shown, wired_xor]

namespace EndsAfter

variable {K : Params} {n : Nat} {s t : State} {before : List Sweep} {last : Sweep}

theorem follows (h : EndsAfter K n s t before last) : Follows s t := by
  rw [h.ran_eq]
  exact follows_ran ..

theorem atIdle (h : EndsAfter K n s t before last) (hs : AtIdle s) : AtIdle t := by
  rw [h.ran_eq]
  exact atIdle_ran hs _

theorem samples_eq (h : EndsAfter K n s t before last) {new : List Event}
    (hnew : t.events = s.events ++ new) :
    samples new = (s.ranSamples (before ++ [last])).flatten := by
  have hsamples := samples_ran s (before ++ [last])
  rwa [← h.ran_eq, hnew, samples_append, List.append_cancel_left_eq] at hsamples

theorem length_samples (h : EndsAfter K n s t before last) (hs : Unfailed s) {new : List Event}
    (hnew : t.events = s.events ++ new) : (samples new).length =
      (fillSweepsRun t.x.sweep + checkSweepsRun t.x.sweep) * (n * n) := by
  rw [h.samples_eq hnew, length_flatten_blocks h.length_blocks, h.sweep_eq hs]
  obtain ⟨rfl, rfl⟩ | ⟨rfl, rfl⟩ | ⟨rfl, rfl⟩ | ⟨rfl, rfl⟩ := h.cases <;> rfl

theorem sweep_mem (h : EndsAfter K n s t before last) (hs : Unfailed s) :
    t.x.sweep ∈ [2#3, 3#3, 5#3, 6#3] := by
  rw [h.sweep_eq hs]
  obtain ⟨-, rfl⟩ | ⟨-, rfl⟩ | ⟨-, rfl⟩ | ⟨-, rfl⟩ := h.cases <;>
    simp [complementUp, checkUp, complementDown, checkDown]

/-- A test that counted no failure ran to its end (R227, R229). -/
theorem of_failCnt_zero (h : EndsAfter K n s t before last) (hs : Unfailed s) (hn : n ≤ 512)
    (hzero : t.x.failCnt = 0#32) : t.x.sweep = 6#3 ∧ t.x.lfRow = 0#9 ∧ t.x.lfCol = 0#9 := by
  rw [h.state, failCnt_swept_eq_zero (h.unfailed hs) (h.side ▸ hn)] at hzero
  obtain ⟨-, hrow, hcol⟩ := unfailed_swept (h.unfailed hs) hzero
  rw [h.sweep_eq hs, h.state]
  exact ⟨h.stopped.resolve_right (not_not.mpr hzero), hrow, hcol⟩

theorem failCnt_le (h : EndsAfter K n s t before last) (hs : Unfailed s) (hn : n ≤ 512) :
    t.x.failCnt.toNat ≤ n * n := by
  rw [h.failCnt_toNat hs hn, ← h.side]
  exact length_failures_le ..

theorem place_lt (h : EndsAfter K n s t before last) (hs : Unfailed s) (hpos : 0 < n) :
    t.x.lfRow.toNat < n ∧ t.x.lfCol.toNat < n := by
  have hrow := congrArg TestRecord.lfRow (h.record hs)
  have hcol := congrArg TestRecord.lfCol (h.record hs)
  obtain rfl := h.side
  refine ⟨lt_of_eq_of_lt (congrArg BitVec.toNat hrow) (recordOf_place_lt hpos ?_ _).1,
    lt_of_eq_of_lt (congrArg BitVec.toNat hcol) (recordOf_place_lt hpos ?_ _).2⟩ <;>
  · intro k hk
    exact List.mem_range.mp (List.mem_of_mem_filter hk)

/-- The address a test leaves (R234). -/
theorem lda_eq (h : EndsAfter K n s t before last) (hs : Unfailed s) (hn : n ≤ 512) (hpos : 0 < n) :
    t.x.lda = if t.x.sweep.toNat ≤ 3 then BitVec.ofNat 32 (n - 1) else 0#32 := by
  have hlast : lineAddress (BitVec.ofNat 9 (n - 1)) = BitVec.ofNat 32 (n - 1) := by
    rw [lineAddress, BitVec.setWidth_ofNat_of_le_of_lt (by decide) (by omega)]
  have hfirst : lineAddress (BitVec.ofNat 9 (n - 1 - (n - 1))) = 0#32 := by
    rw [Nat.sub_self]
    rfl
  rw [h.sweep_eq hs, h.state, (regs_swept _ (h.side ▸ hpos)).1]
  obtain ⟨-, rfl⟩ | ⟨-, rfl⟩ | ⟨-, rfl⟩ | ⟨-, rfl⟩ := h.cases
  · exact hlast
  · exact hlast
  · exact hfirst
  · exact hfirst

end EndsAfter

/-! ### The statements -/

theorem sideOf_cases {lines : BitVec 4} (h : legalLines lines = true) :
    sideOf lines = 256 ∨ sideOf lines = 512 := by
  simp only [legalLines, Bool.or_eq_true, beq_iff_eq] at h
  obtain rfl | rfl := h
  · exact .inl rfl
  · exact .inr rfl

theorem sideOf_le {lines : BitVec 4} (h : legalLines lines = true) : sideOf lines ≤ 512 := by
  obtain hn | hn := sideOf_cases h <;> omega

theorem sideOf_pos (lines : BitVec 4) : 0 < sideOf lines := Nat.two_pow_pos _

/-- What a test adds to the events. -/
theorem Follows.exists_new {s t : State} (h : Follows s t) : ∃ new, t.events = s.events ++ new := by
  obtain ⟨new, hnew⟩ := h.grows
  exact ⟨new.reverse, by simp [State.events, ← hnew]⟩

/-- The operation ends where its sweeps do. -/
theorem exec_runTest_ends {lines : BitVec 4} {s : State} (hlines : legalLines lines = true)
    (h : Undisturbed s) (hready : ReadyIdle s) : ∃ t before last,
      exec (.runTest lines) s = .next (t.finished t.testResult) ∧
      EndsAfter Config.machine (sideOf lines) (s.nowBusy.testStarted lines) t before last := by
  obtain ⟨before, last, hends⟩ := tested_endsAfter (unfailed_testStarted s.nowBusy lines)
    Config.machine (sideOf_le hlines)
  exact ⟨_, before, last, exec_runTest hlines h hready, hends⟩

/-- Settles O38: the test ends after one of four sweeps, its record is that of the last one, and the
samples of each sweep have its mismatches in them. -/
theorem runTestCompletes : Obligations.RunTestCompletes := by
  intro lines s hlines h hready
  have hn := sideOf_le hlines
  have hpos := sideOf_pos lines
  have hstart := unfailed_testStarted s.nowBusy lines
  obtain ⟨t, before, last, hexec, hends⟩ := exec_runTest_ends hlines h hready
  have hframe := hends.follows.frame
  obtain ⟨new, hnew⟩ := hends.follows.exists_new
  have hstatus : t.status = { s.status with busy := true } := congrArg (fun u => u.status) hframe
  have hnlines : t.x.nlines = lines := congrArg (fun u => u.x.nlines) hframe
  obtain ⟨-, hseq, hpins⟩ := hends.atIdle (atIdle_testStarted (atIdle_nowBusy h hready) lines)
  obtain ⟨hrow, hcol⟩ := hends.place_lt hstart hpos
  refine ⟨_, new, hexec, ⟨⟨?_, ?_, hseq⟩, hpins⟩, hnew, hends.length_samples hstart hnew, ?_, ?_,
    hnlines, rfl, ?_, rfl, rfl, rfl, hends.sweep_mem hstart, hends.of_failCnt_zero hstart hn,
    hends.failCnt_le hstart hn, hrow, hcol, hends.lda_eq hstart hn hpos, ?_,
    congrArg (fun u => u.host) hframe, congrArg (fun u => u.readData) hframe⟩
  · exact (congrArg Status.fault hstatus).trans hready.1.1
  · exact (congrArg Status.inited hstatus).trans hready.1.2.1
  · rw [hends.samples_eq hnew]
    exact hends.sampledTest_eq hstart
  · exact congrArg (fun u : Status => { u with busy := false, done := true }) hstatus
  · rw [hends.state]
    exact (regs_swept _ (hends.side ▸ hpos)).2
  · exact (pin_a_eq_presented t).trans (hends.follows.shows _)

/-- Settles O43: the totals of the sweeps a test ran, for the three weights. -/
theorem runTestEventTotals : Obligations.RunTestEventTotals := by
  intro lines s hlines h hready
  obtain ⟨t, before, last, hexec, hends⟩ := exec_runTest_ends hlines h hready
  obtain ⟨new, hnew⟩ := hends.follows.exists_new
  have htotals := fun o f =>
    hends.totals (unfailed_testStarted s.nowBusy lines) (sideOf_le hlines) o f hnew
  refine ⟨_, new, hexec, hnew, ?_, ?_, ?_⟩
  · have hlength := htotals 1 fun _ => 1
    simp only [rowWeight, writeWeight, readWeight] at hlength
    rw [length_eq_weigh, State.finished_result, State.testResult, State.finished_x]
    linarith
  · have hother := htotals 1 fun _ => 0
    simp only [rowWeight, writeWeight, readWeight] at hother
    rw [otherEvents_eq_weigh, State.finished_result, State.testResult, State.finished_x]
    linarith
  · have hwaits := htotals 0 id
    simp only [rowWeight, writeWeight, readWeight, id] at hwaits
    rw [waitCycles_eq_weigh, State.finished_result, State.testResult, State.finished_x,
      openRowWaits, closeRowWaits, pageWriteWaits, pageReadWaits]
    linarith

end Sys2Proof.Machine
end

section
/-!
PROOFS. `RUN_TEST` refines the test at the level of cells, where a device answers
(`44_moving_inversions.md` R222 to R231).
-/

namespace Sys2Proof.Machine

open Sys2Proof.Safety
open Sys2Proof.Config (Params)

theorem view_swept_of_follows {s t : State} (hs : Answers s) (h : Follows s t) (p : Sweep) :
    (t.swept p).view = t.view.sweep s p.K.patternInit p.kind p.dir p.n := by
  rw [view_swept (h.answers hs), h.viewSweep]

theorem view_failCnt (s : State) : s.view.failCnt = s.x.failCnt := rfl

theorem sweep_swept (s : State) (p : Sweep) : (s.swept p).x.sweep = p.number :=
  (visits_induction (R := fun _ t => t.x.sweep = p.number) rfl (fun _ _ _ h => h) (fun _ _ h => h)
    fun r c _ ih => cellVisited_keeps (R := fun t => t.x.sweep = p.number)
      (s := (s.inRow p r c).withCol (p.place c)) (fun _ _ h => h) (fun _ h => h) (fun _ h => h)
      ih).1 p.n

/-- The test of the rules stops where the engine's does, with the same cells and record (R227). -/
theorem cellTest_eq {s : State} (hs : Answers s) (hview : s.view = TestView.start s) (K : Params)
    (n : Nat) : cellTest s K.patternInit n = ((s.tested K n).view, (s.tested K n).x.sweep) := by
  have h1 := follows_swept s (fillUp K n)
  have h2 := h1.trans (follows_swept _ (complementUp K n))
  have h3 := h2.trans (follows_swept _ (checkUp K n))
  have h4 := h3.trans (follows_swept _ (fillDown K n))
  have h5 := h4.trans (follows_swept _ (complementDown K n))
  have e1 : _ = s.view.sweep s K.patternInit .fill .ascending n := view_swept hs (fillUp K n)
  have e2 : _ = TestView.sweep s K.patternInit .checkComplement .ascending n _ :=
    view_swept_of_follows hs h1 (complementUp K n)
  have e3 : _ = TestView.sweep s K.patternInit .check .ascending n _ :=
    view_swept_of_follows hs h2 (checkUp K n)
  have e4 : _ = TestView.sweep s K.patternInit .fill .descending n _ :=
    view_swept_of_follows hs h3 (fillDown K n)
  have e5 : _ = TestView.sweep s K.patternInit .checkComplement .descending n _ :=
    view_swept_of_follows hs h4 (complementDown K n)
  have e6 : _ = TestView.sweep s K.patternInit .check .descending n _ :=
    view_swept_of_follows hs h5 (checkDown K n)
  simp only [cellTest, ← hview, ← e1, ← e2, ← e3, ← e4, ← e5, ← e6, view_failCnt, State.tested]
  have n2 := sweep_swept (s.swept (fillUp K n)) (complementUp K n)
  generalize (s.swept (fillUp K n)).swept (complementUp K n) = two at n2 ⊢
  by_cases hz2 : two.x.failCnt = 0#32
  case neg =>
    rw [if_neg hz2, ifUnfailed_of_ne hz2, ifUnfailed_of_ne hz2, ifUnfailed_of_ne hz2, n2]
    rfl
  rw [if_pos hz2, ifUnfailed_of_eq hz2]
  have n3 := sweep_swept two (checkUp K n)
  generalize two.swept (checkUp K n) = three at n3 ⊢
  by_cases hz3 : three.x.failCnt = 0#32
  case neg =>
    rw [if_neg hz3, ifUnfailed_of_ne hz3, ifUnfailed_of_ne hz3, n3]
    rfl
  rw [if_pos hz3, ifUnfailed_of_eq hz3]
  have n5 := sweep_swept (three.swept (fillDown K n)) (complementDown K n)
  generalize (three.swept (fillDown K n)).swept (complementDown K n) = five at n5 ⊢
  by_cases hz5 : five.x.failCnt = 0#32
  case neg =>
    rw [if_neg hz5, ifUnfailed_of_ne hz5, n5]
    rfl
  rw [if_pos hz5, ifUnfailed_of_eq hz5, sweep_swept]
  rfl

theorem freeNo_ran {s : State} (h : Answers s) (l : List Sweep) : (s.ran l).freeNo = s.freeNo := by
  induction l generalizing s with
  | nil => rfl
  | cons p rest ih => exact (ih ((follows_swept s p).answers h)).trans (freeNo_swept h p)

/-- Where the latch of an idle device is empty before and after, a test changes its cells only. -/
theorem Follows.dev_of_atIdle {s t : State} (h : Follows s t) (hs : AtIdle s) (ht : AtIdle t) :
    t.dev = { s.dev with cells := t.dev.cells } := by
  obtain ⟨-, -, -, -, -, hlatch, -⟩ := hs
  obtain ⟨-, -, -, -, -, hlatch', -⟩ := ht
  rw [h.dev, hlatch', ← hlatch]

/-- What the start of a test changes is no part of the test of the rules. -/
theorem cellTest_testStarted (s : State) (lines : BitVec 4) (init : Word) (n : Nat) :
    cellTest (s.nowBusy.testStarted lines) init n = cellTest s init n := by
  have hsweep : ∀ kind dir v, TestView.sweep (s.nowBusy.testStarted lines) init kind dir n v =
      TestView.sweep s init kind dir n v :=
    fun kind dir v => visits_congr (s := s) (t := s.nowBusy.testStarted lines) rfl
      (fun _ _ => rfl) init kind dir n _ v
  simp only [cellTest, hsweep]
  rfl

/-- Settles O39: the sweeps of the engine, seen at the cells. -/
theorem runTestRefinesTheCellTest : Obligations.RunTestRefinesTheCellTest := by
  intro lines s hlines h hready hanswers
  have hidle := atIdle_testStarted (atIdle_nowBusy h hready) lines
  have hcells := cellTest_eq (s := s.nowBusy.testStarted lines) hanswers rfl Config.machine (sideOf lines)
  rw [cellTest_testStarted] at hcells
  obtain ⟨before, last, hends⟩ := tested_endsAfter (unfailed_testStarted s.nowBusy lines)
    Config.machine (sideOf_le hlines)
  refine ⟨_, exec_runTest hlines h hready, ?_⟩
  generalize (s.nowBusy.testStarted lines).tested Config.machine (sideOf lines) = t at hcells hends
  rw [hcells]
  refine ⟨hends.follows.dev_of_atIdle hidle (hends.atIdle hidle), rfl, rfl, rfl, rfl, ?_⟩
  have hfree : (s.nowBusy.testStarted lines).freeNo = s.freeNo := rfl
  rw [State.finished_freeNo, hends.ran_eq, freeNo_ran (s := s.nowBusy.testStarted lines) hanswers, hfree]

end Sys2Proof.Machine
end

section
/-!
PROOFS. What a sweep of the moving-inversions test leaves in a cell and whether a visit of it is a
mismatch, where a device answers, whatever cells the visits reach
(`44_moving_inversions.md` R224 to R226, `20_memory.md` R66, R70).
-/

namespace Sys2Proof.Machine

open Sys2Proof.Safety
open Sys2Proof.Config (Params)

/-- One of the first `k` visits reaches the cell with this key. -/
def Reached (s : State) (dir : Direction) (n k key : Nat) : Prop :=
  ∃ j < k, visitKey s dir n j = key

/-- Every visit of the cell with this key has the pattern bit `b`. -/
def Expects (s : State) (init : Word) (dir : Direction) (n key : Nat) (b : Bit) : Prop :=
  ∀ k < n * n, visitKey s dir n k = key → patBit init k = b

theorem reached_succ {s : State} {dir : Direction} {n k key : Nat} :
    Reached s dir n (k + 1) key ↔ Reached s dir n k key ∨ visitKey s dir n k = key := by
  constructor
  · rintro ⟨j, hj, hkey⟩
    obtain hj | rfl := Nat.lt_succ_iff_lt_or_eq.mp hj
    · exact .inl ⟨j, hj, hkey⟩
    · exact .inr hkey
  · rintro (⟨j, hj, hkey⟩ | hkey)
    · exact ⟨j, by omega, hkey⟩
    · exact ⟨k, by omega, hkey⟩

theorem not_reached_zero {s : State} {dir : Direction} {n key : Nat} : ¬ Reached s dir n 0 key := by
  rintro ⟨j, hj, -⟩
  omega

section View

variable {s : State} {init : Word} {dir : Direction} {n k key : Nat} {v : TestView} {b : Bit}

/-- A healthy cell reads as the bit it holds. -/
theorem read_of_healthy {d : Device} (h : NotStuck d key) (hv : Cells.lookup v.cells key = some b) :
    v.read d key = b := by
  simp [TestView.read, Device.readCell, Device.cell, h, hv]

/-- A stuck cell reads as its stuck value. -/
theorem read_of_stuck {d : Device} (h : Cells.lookup d.stuck key = some b) : v.read d key = b := by
  simp [TestView.read, Device.readCell, h]

/-- The visit of a cell changes no other. -/
theorem lookup_visit_of_ne {d : Device} {kind : SweepKind} {cell : Line × Line} {e : Bit} {key' : Nat}
    (h : key ≠ key') :
    Cells.lookup (v.visit d kind cell key' e).cells key = Cells.lookup v.cells key := by
  unfold TestView.visit
  cases kind with
  | fill => exact Cells.lookup_store_other _ _ h
  | checkComplement =>
    simp only
    split
    · exact Cells.lookup_store_other _ _ h
    · rfl
  | check =>
    simp only
    split <;> rfl

/-- A cell no visit has reached is as it was. -/
theorem lookup_visits_of_not_reached (kind : SweepKind) (h : ¬ Reached s dir n k key) :
    Cells.lookup (TestView.visits s init kind dir n k v).cells key = Cells.lookup v.cells key := by
  induction k with
  | zero => rfl
  | succ k ih =>
    rw [reached_succ, not_or] at h
    obtain ⟨hbefore, hnow⟩ := h
    rw [TestView.visits, ← visitKey, lookup_visit_of_ne (Ne.symm hnow), ih hbefore]

/-- A filling sweep leaves the pattern bit in the cells it has reached (R224). -/
theorem lookup_visits_fill (hexpects : Expects s init dir n key b) (hk : k ≤ n * n)
    (h : Reached s dir n k key) :
    Cells.lookup (TestView.visits s init .fill dir n k v).cells key = some b := by
  induction k with
  | zero => exact (not_reached_zero h).elim
  | succ k ih =>
    rw [TestView.visits, ← visitKey]
    by_cases hnow : visitKey s dir n k = key
    · rw [hexpects k hk hnow, hnow]
      exact Cells.lookup_store_same ..
    · rw [lookup_visit_of_ne (Ne.symm hnow)]
      exact ih (by omega) ((reached_succ.mp h).resolve_right hnow)

/-- A complementing sweep complements a healthy cell at its first visit and leaves it so at every later
one, which reads the complement (R225). -/
theorem lookup_visits_complement (hhealthy : NotStuck s.dev key) (hexpects : Expects s init dir n key b)
    (hv : Cells.lookup v.cells key = some b) (hk : k ≤ n * n) (h : Reached s dir n k key) :
    Cells.lookup (TestView.visits s init .checkComplement dir n k v).cells key = some (!b) := by
  induction k with
  | zero => exact (not_reached_zero h).elim
  | succ k ih =>
    rw [TestView.visits, ← visitKey]
    by_cases hnow : visitKey s dir n k = key
    · rw [hexpects k hk hnow, hnow, TestView.visit]
      by_cases hbefore : Reached s dir n k key
      · have hholds := ih (by omega) hbefore
        rw [read_of_healthy hhealthy hholds, if_neg (Bool.not_ne_self b)]
        exact hholds
      · have hholds := (lookup_visits_of_not_reached (init := init) .checkComplement hbefore).trans hv
        rw [read_of_healthy hhealthy hholds, if_pos rfl]
        exact Cells.lookup_store_same ..
    · rw [lookup_visit_of_ne (Ne.symm hnow)]
      exact ih (by omega) ((reached_succ.mp h).resolve_right hnow)

/-- A checking sweep writes nothing (R226). -/
theorem cells_visits_check : (TestView.visits s init .check dir n k v).cells = v.cells := by
  induction k with
  | zero => rfl
  | succ k ih =>
    rw [TestView.visits, TestView.visit]
    split <;> exact ih

end View

/-! ### Seen from the engine -/

section Engine

variable {s : State} {p : Sweep} {k key : Nat} {b : Bit}

theorem cells_swept (h : Answers s) (p : Sweep) : (s.swept p).dev.cells =
    (s.view.sweep s p.K.patternInit p.kind p.dir p.n).cells :=
  congrArg TestView.cells (view_swept h p)

theorem lookup_swept_fill (h : Answers s) (hkind : p.kind = .fill)
    (hexpects : Expects s p.K.patternInit p.dir p.n key b)
    (hreached : Reached s p.dir p.n (p.n * p.n) key) :
    Cells.lookup (s.swept p).dev.cells key = some b := by
  rw [cells_swept h, hkind]
  exact lookup_visits_fill hexpects le_rfl hreached

theorem lookup_swept_complement (h : Answers s) (hkind : p.kind = .checkComplement)
    (hhealthy : NotStuck s.dev key) (hexpects : Expects s p.K.patternInit p.dir p.n key b)
    (hholds : Cells.lookup s.dev.cells key = some b)
    (hreached : Reached s p.dir p.n (p.n * p.n) key) :
    Cells.lookup (s.swept p).dev.cells key = some (!b) := by
  rw [cells_swept h, hkind]
  exact lookup_visits_complement hhealthy hexpects hholds le_rfl hreached

theorem cells_swept_check (h : Answers s) (hkind : p.kind = .check) :
    (s.swept p).dev.cells = s.dev.cells := by
  rw [cells_swept h, hkind]
  exact cells_visits_check

theorem lookup_swept_of_not_reached (h : Answers s) (hnot : ¬ Reached s p.dir p.n (p.n * p.n) key) :
    Cells.lookup (s.swept p).dev.cells key = Cells.lookup s.dev.cells key := by
  rw [cells_swept h]
  exact lookup_visits_of_not_reached _ hnot

/-- A stuck cell answers its stuck value at every visit (R236). -/
theorem failsAt_of_stuck (h : Answers s) (hk : k < p.n * p.n)
    (hstuck : Cells.lookup s.dev.stuck (visitKey s p.dir p.n k) = some b) :
    s.failsAt p k = p.fails b (patBit p.K.patternInit k) := by
  rw [State.failsAt, answerAt_of_answers h hk, read_of_stuck hstuck]

/-- A healthy cell that holds the pattern bit is a mismatch of a complementing sweep exactly where it has
been visited before (R225, R237). -/
theorem failsAt_complement (h : Answers s) (hkind : p.kind = .checkComplement)
    (hk : k < p.n * p.n) (hhealthy : NotStuck s.dev (visitKey s p.dir p.n k))
    (hexpects : Expects s p.K.patternInit p.dir p.n (visitKey s p.dir p.n k)
      (patBit p.K.patternInit k))
    (hholds : Cells.lookup s.dev.cells (visitKey s p.dir p.n k) = some (patBit p.K.patternInit k)) :
    s.failsAt p k = true ↔ Reached s p.dir p.n k (visitKey s p.dir p.n k) := by
  rw [State.failsAt, answerAt_of_answers h hk, Sweep.fails, hkind]
  by_cases hbefore : Reached s p.dir p.n k (visitKey s p.dir p.n k)
  · rw [read_of_healthy hhealthy (lookup_visits_complement hhealthy hexpects hholds hk.le hbefore)]
    simpa using hbefore
  · rw [read_of_healthy hhealthy
      ((lookup_visits_of_not_reached .checkComplement hbefore).trans hholds)]
    simpa using hbefore

/-- A healthy cell that holds the complement is no mismatch of a checking sweep (R226). -/
theorem failsAt_check (h : Answers s) (hkind : p.kind = .check) (hk : k < p.n * p.n)
    (hhealthy : NotStuck s.dev (visitKey s p.dir p.n k))
    (hholds : Cells.lookup s.dev.cells (visitKey s p.dir p.n k) =
      some (!patBit p.K.patternInit k)) : s.failsAt p k = false := by
  rw [State.failsAt, answerAt_of_answers h hk, Sweep.fails, hkind,
    read_of_healthy hhealthy ((congrArg (Cells.lookup · _) cells_visits_check).trans hholds)]
  exact bne_self_eq_false _

end Engine

end Sys2Proof.Machine
end

section
/-!
PROOFS. `RUN_TEST` where every covered cell is reached under its own address: what its sweeps leave in
the cells and which visits are mismatches (`44_moving_inversions.md` R235, R236).
-/

namespace Sys2Proof.Machine

open Sys2Proof.Safety
open Sys2Proof.Config (Params DevLines)

/-- A device answers, and reaches every cell of the `n` by `n` array under its own address. -/
structure Grid (n : Nat) (s : State) : Prop where
  answers : Answers s
  side : n ≤ 512
  words : 32 ∣ n
  key : ∀ r < n, ∀ c < n, targetKey s (BitVec.ofNat 9 r) (BitVec.ofNat 9 c) = r * 512 + c

/-- A chip takes an address of its own as it is (`20_memory.md` R63). -/
theorem seenLines_of_lt {l : DevLines} {v : Line} (h : v.toNat < 2 ^ lineCount l) :
    seenLines l v = v := by
  cases l with
  | eight =>
    exact BitVec.eq_of_toNat_eq ((seenLines_eight_toNat v).trans (Nat.mod_eq_of_lt h))
  | nine => rfl

theorem grid_of_addrInvariant {lines : BitVec 4} {s : State} (hlines : legalLines lines = true)
    (hanswers : Answers s) (haddr : AddrInvariant s) (hfit : lines.toNat ≤ lineCount s.dev.lines) :
    Grid (sideOf lines) s := by
  have hside := sideOf_le hlines
  have hchip : sideOf lines ≤ 2 ^ lineCount s.dev.lines := Nat.pow_le_pow_right (by decide) hfit
  have hseen : ∀ v < sideOf lines, seenLines s.dev.lines (BitVec.ofNat 9 v) = BitVec.ofNat 9 v :=
    fun v hv => seenLines_of_lt (by rw [BitVec.toNat_ofNat, Nat.mod_eq_of_lt (by omega)]; omega)
  refine ⟨hanswers, hside, ?_, fun r hr c hc => ?_⟩
  · obtain h | h := sideOf_cases hlines <;> rw [h] <;> decide
  · rw [targetKey_of_addrInvariant haddr, reachedKey, hseen r hr, hseen c hc, cellKey,
      BitVec.toNat_ofNat, BitVec.toNat_ofNat, Nat.mod_eq_of_lt (by omega),
      Nat.mod_eq_of_lt (by omega)]

theorem Follows.grid {s t : State} (h : Follows s t) {n : Nat} (hs : Grid n s) : Grid n t :=
  ⟨h.answers hs.answers, hs.side, hs.words, fun r hr c hc => by rw [h.targetKey, hs.key r hr c hc]⟩

/-- A cell of the array that no read finds stuck. -/
abbrev Healthy (s : State) (r c : Nat) : Prop := NotStuck s.dev (r * 512 + c)

/-- A cell of the array holds a bit. -/
def Holds (s : State) (r c : Nat) (b : Bit) : Prop :=
  Cells.lookup s.dev.cells (r * 512 + c) = some b

theorem Follows.healthy {s t : State} (h : Follows s t) {r c : Nat} (hs : Healthy s r c) :
    Healthy t r c := by
  rw [Healthy, h.dev]
  exact hs

/-- The order of a sweep read backwards. -/
theorem index_index (p : Sweep) {k : Nat} (h : k < p.n) : p.index (p.index k) = k := by
  unfold Sweep.index
  cases p.dir
  · rfl
  · simp only
    omega

namespace Grid

variable {s : State} {p : Sweep} {r c k : Nat} {b : Bit}

theorem visitKey_eq (h : Grid p.n s) (hk : k < p.n * p.n) :
    visitKey s p.dir p.n k = p.index (k / p.n) * 512 + p.index (k % p.n) := by
  have hrow := index_lt p (Nat.div_lt_of_lt_mul hk)
  have hcol := index_lt p (Nat.mod_lt k (Nat.pos_of_lt_mul_left hk))
  rw [visitKey, visited_eq]
  exact h.key _ hrow _ hcol

/-- The visits that reach a cell have its row and its column. -/
theorem visitKey_eq_iff (h : Grid p.n s) (hk : k < p.n * p.n) (hr : r < p.n) (hc : c < p.n) :
    visitKey s p.dir p.n k = r * 512 + c ↔ k = p.index r * p.n + p.index c := by
  have hpos := Nat.pos_of_lt_mul_left hk
  have hside := h.side
  have hrow := index_lt p (Nat.div_lt_of_lt_mul hk)
  have hcol := index_lt p (Nat.mod_lt k hpos)
  rw [h.visitKey_eq hk]
  constructor
  · intro hkey
    have hr' : p.index (k / p.n) = r := by omega
    have hc' : p.index (k % p.n) = c := by omega
    rw [← hr', ← hc', index_index p (Nat.div_lt_of_lt_mul hk), index_index p (Nat.mod_lt k hpos),
      Nat.div_add_mod']
  · rintro rfl
    rw [visit_div _ (index_lt p hc), visit_mod _ (index_lt p hc), index_index p hr, index_index p hc]

theorem reached (h : Grid p.n s) (hr : r < p.n) (hc : c < p.n) :
    Reached s p.dir p.n (p.n * p.n) (r * 512 + c) := by
  have hlt : p.index r * p.n + p.index c < p.n * p.n := by
    rw [Nat.mul_comm (p.index r)]
    exact Nat.mul_add_lt_mul_of_lt_of_lt (index_lt p hr) (index_lt p hc)
  exact ⟨_, hlt, (h.visitKey_eq_iff hlt hr hc).mpr rfl⟩

/-- The pattern is one of columns (R222). -/
theorem expects (h : Grid p.n s) (init : Word) (hr : r < p.n) (hc : c < p.n) :
    Expects s init p.dir p.n (r * 512 + c) (patBit init (p.index c)) := by
  intro k hk hkey
  rw [(h.visitKey_eq_iff hk hr hc).mp hkey, patBit_row_add init h.words]

/-- No cell is visited twice. -/
theorem not_reached_before (h : Grid p.n s) (hk : k < p.n * p.n) :
    ¬ Reached s p.dir p.n k (visitKey s p.dir p.n k) := by
  have hrow := index_lt p (Nat.div_lt_of_lt_mul hk)
  have hcol := index_lt p (Nat.mod_lt k (Nat.pos_of_lt_mul_left hk))
  rintro ⟨j, hj, hkey⟩
  have hplace := h.visitKey_eq hk
  have hj' := (h.visitKey_eq_iff (hj.trans hk) hrow hcol).mp (hkey.trans hplace)
  have hk' := (h.visitKey_eq_iff hk hrow hcol).mp hplace
  omega

theorem holds_fill (h : Grid p.n s) (hkind : p.kind = .fill) (hr : r < p.n) (hc : c < p.n) :
    Holds (s.swept p) r c (patBit p.K.patternInit (p.index c)) :=
  lookup_swept_fill h.answers hkind (h.expects _ hr hc) (h.reached hr hc)

theorem holds_complement (h : Grid p.n s) (hkind : p.kind = .checkComplement) (hr : r < p.n)
    (hc : c < p.n) (hhealthy : Healthy s r c)
    (hholds : Holds s r c (patBit p.K.patternInit (p.index c))) :
    Holds (s.swept p) r c (!patBit p.K.patternInit (p.index c)) :=
  lookup_swept_complement h.answers hkind hhealthy (h.expects _ hr hc) hholds (h.reached hr hc)

theorem holds_check (h : Grid p.n s) (hkind : p.kind = .check) (hholds : Holds s r c b) :
    Holds (s.swept p) r c b := by
  rw [Holds, cells_swept_check h.answers hkind]
  exact hholds

/-- A healthy cell that holds the pattern bit is no mismatch of a complementing sweep (R225). -/
theorem complement_passes (h : Grid p.n s) (hkind : p.kind = .checkComplement) (hr : r < p.n)
    (hc : c < p.n) (hhealthy : Healthy s r c)
    (hholds : Holds s r c (patBit p.K.patternInit (p.index c))) (hk : k < p.n * p.n)
    (hkey : visitKey s p.dir p.n k = r * 512 + c) : s.failsAt p k = false := by
  have hbit := h.expects p.K.patternInit hr hc k hk hkey
  have hfails := failsAt_complement h.answers hkind hk (hkey ▸ hhealthy)
    (by rw [hkey, hbit]; exact h.expects _ hr hc) (by rw [hkey, hbit]; exact hholds)
  exact Bool.eq_false_iff.mpr (hfails.not.mpr (h.not_reached_before hk))

/-- A healthy cell that holds the complement is no mismatch of a checking sweep (R226). -/
theorem check_passes (h : Grid p.n s) (hkind : p.kind = .check) (hr : r < p.n)
    (hc : c < p.n) (hhealthy : Healthy s r c)
    (hholds : Holds s r c (!patBit p.K.patternInit (p.index c))) (hk : k < p.n * p.n)
    (hkey : visitKey s p.dir p.n k = r * 512 + c) : s.failsAt p k = false :=
  failsAt_check h.answers hkind hk (hkey ▸ hhealthy) (by
    rw [hkey, h.expects p.K.patternInit hr hc k hk hkey]
    exact hholds)

/-- Every visit is one of a cell of the array. -/
theorem exists_cell (h : Grid p.n s) (hk : k < p.n * p.n) :
    ∃ r < p.n, ∃ c < p.n, visitKey s p.dir p.n k = r * 512 + c :=
  ⟨_, index_lt p (Nat.div_lt_of_lt_mul hk), _,
    index_lt p (Nat.mod_lt k (Nat.pos_of_lt_mul_left hk)), h.visitKey_eq hk⟩

/-- Cells outside the array are left alone. -/
theorem lookup_outside (h : Grid p.n s) {key : Nat}
    (hkey : ∀ r < p.n, ∀ c < p.n, key ≠ r * 512 + c) :
    Cells.lookup (s.swept p).dev.cells key = Cells.lookup s.dev.cells key := by
  refine lookup_swept_of_not_reached h.answers fun ⟨k, hk, hreached⟩ => ?_
  obtain ⟨r, hr, c, hc, hcell⟩ := h.exists_cell hk
  exact hkey r hr c hc (hreached.symm.trans hcell)

end Grid

end Sys2Proof.Machine
end

section
/-!
PROOFS. `RUN_TEST` on a healthy device that has the lines it is told, and on one with a single stuck cell
(`44_moving_inversions.md` R235 to R237).
-/

namespace Sys2Proof.Machine

open Sys2Proof.Safety
open Sys2Proof.Config (Params)

/-- A sweep none of whose visits is a mismatch. -/
theorem sweepFailures_eq_nil {s : State} {p : Sweep}
    (h : ∀ k < p.n * p.n, s.failsAt p k = false) : s.sweepFailures p = [] :=
  List.filter_eq_nil_iff.mpr fun k hk => by simp [h k (List.mem_range.mp hk)]

/-- A sweep with at most one mismatch. -/
theorem sweepFailures_eq_ite {s : State} {p : Sweep} {k₀ : Nat} (hk₀ : k₀ < p.n * p.n)
    (h : ∀ k < p.n * p.n, k ≠ k₀ → s.failsAt p k = false) :
    s.sweepFailures p = if s.failsAt p k₀ then [k₀] else [] := by
  have honly : ∀ k ∈ List.range (p.n * p.n), s.failsAt p k = (k == k₀ && s.failsAt p k₀) := by
    intro k hk
    by_cases hne : k = k₀
    · simp [hne]
    · simp [hne, h k (List.mem_range.mp hk) hne]
  rw [State.sweepFailures, State.failures, List.filter_congr honly]
  cases s.failsAt p k₀
  · simp
  · simp only [Bool.and_true, if_true]
    rw [List.filter_beq, List.count_eq_one_of_mem List.nodup_range (List.mem_range.mpr hk₀)]
    rfl

/-! ### A filling sweep, a complementing one and a checking one

The same in both directions: `p` fills. -/

/-- The complementing sweep after `p`. -/
def Sweep.complementing (p : Sweep) (number : BitVec 3) : Sweep :=
  { p with number := number, kind := .checkComplement }

/-- The checking sweep after that. -/
def Sweep.checking (p : Sweep) (number : BitVec 3) : Sweep :=
  { p with number := number, kind := .check }

section Healthy

variable {s : State} {p : Sweep} {r c : Nat}

/-- What they leave in a healthy cell (R235). -/
theorem holds_healthy (h : Grid p.n s) (hkind : p.kind = .fill) (hr : r < p.n) (hc : c < p.n)
    (hhealthy : Healthy s r c) (i : BitVec 3) :
    Holds (s.swept p) r c (patBit p.K.patternInit (p.index c)) ∧
      Holds ((s.swept p).swept (p.complementing i)) r c (!patBit p.K.patternInit (p.index c)) := by
  have hfilled := h.holds_fill hkind hr hc
  have hone := follows_swept s p
  exact ⟨hfilled, Grid.holds_complement (p := p.complementing i) (hone.grid h) rfl hr hc
    (hone.healthy hhealthy) hfilled⟩

/-- None of its visits is a mismatch (R235). -/
theorem healthy_passes (h : Grid p.n s) (hkind : p.kind = .fill) (hr : r < p.n) (hc : c < p.n)
    (hhealthy : Healthy s r c) (i j : BitVec 3) {k : Nat} (hk : k < p.n * p.n)
    (hkey : visitKey s p.dir p.n k = r * 512 + c) :
    (s.swept p).failsAt (p.complementing i) k = false ∧
      ((s.swept p).swept (p.complementing i)).failsAt (p.checking j) k = false := by
  have hone := follows_swept s p
  have htwo := hone.trans (follows_swept _ (p.complementing i))
  obtain ⟨hfilled, hcomplemented⟩ := holds_healthy h hkind hr hc hhealthy i
  exact ⟨Grid.complement_passes (p := p.complementing i) (hone.grid h) rfl hr hc
      (hone.healthy hhealthy) hfilled hk ((hone.targetKey ..).trans hkey),
    Grid.check_passes (p := p.checking j) (htwo.grid h) rfl hr hc (htwo.healthy hhealthy)
      hcomplemented hk ((htwo.targetKey ..).trans hkey)⟩

/-- Where every cell is healthy, neither sweep has a mismatch. -/
theorem healthy_sweeps_pass (h : Grid p.n s) (hkind : p.kind = .fill)
    (hhealthy : ∀ r < p.n, ∀ c < p.n, Healthy s r c) (i j : BitVec 3) :
    (s.swept p).sweepFailures (p.complementing i) = [] ∧
      ((s.swept p).swept (p.complementing i)).sweepFailures (p.checking j) = [] := by
  have hpasses : ∀ k < p.n * p.n, (s.swept p).failsAt (p.complementing i) k = false ∧
      ((s.swept p).swept (p.complementing i)).failsAt (p.checking j) k = false := fun k hk => by
    obtain ⟨r, hr, c, hc, hkey⟩ := h.exists_cell hk
    exact healthy_passes h hkind hr hc (hhealthy r hr c hc) i j hk hkey
  exact ⟨sweepFailures_eq_nil fun k hk => (hpasses k hk).1,
    sweepFailures_eq_nil fun k hk => (hpasses k hk).2⟩

end Healthy

/-! ### A healthy device (R235, R237) -/

/-- Sweeps leave the cells outside the array alone. -/
theorem lookup_ran_outside {s : State} {n : Nat} (h : Grid n s) {l : List Sweep}
    (hl : ∀ p ∈ l, p.n = n) {key : Nat} (hkey : ∀ r < n, ∀ c < n, key ≠ r * 512 + c) :
    Cells.lookup (s.ran l).dev.cells key = Cells.lookup s.dev.cells key := by
  induction l generalizing s with
  | nil => rfl
  | cons p rest ih =>
    obtain ⟨rfl, hrest⟩ := List.forall_mem_cons.mp hl
    rw [ran_cons, ih ((follows_swept s p).grid h) hrest, h.lookup_outside hkey]

/-- The six sweeps of a test. -/
def sixSweeps (K : Params) (n : Nat) : List Sweep :=
  [fillUp K n, complementUp K n, checkUp K n, fillDown K n, complementDown K n, checkDown K n]

theorem grid_testStarted {n : Nat} {s : State} (h : Grid n s) (lines : BitVec 4) :
    Grid n (s.nowBusy.testStarted lines) := ⟨h.answers, h.side, h.words, h.key⟩

section

variable {s : State} {K : Params} {n : Nat}

theorem passes_healthy (h : Grid n s) (hhealthy : ∀ r < n, ∀ c < n, Healthy s r c) :
    s.passes (sixSweeps K n) := by
  have hthree := follows_ran s [fillUp K n, complementUp K n, checkUp K n]
  obtain ⟨h2, h3⟩ := healthy_sweeps_pass (p := fillUp K n) h rfl hhealthy 2#3 3#3
  obtain ⟨h5, h6⟩ := healthy_sweeps_pass (p := fillDown K n) (hthree.grid h) rfl
    (fun r hr c hc => hthree.healthy (hhealthy r hr c hc)) 5#3 6#3
  exact ⟨failures_of_fill _ rfl _, h2, h3, failures_of_fill _ rfl _, h5, h6, trivial⟩

/-- A test whose six sweeps pass runs them all. -/
theorem tested_of_passes (hs : Unfailed s) (h : s.passes (sixSweeps K n)) :
    s.tested K n = s.ran (sixSweeps K n) := by
  obtain ⟨h1, h2, h3, h4, h5, -⟩ := h
  exact tested_of_five_passes hs ⟨h1, h2, h3, h4, h5, trivial⟩

/-- What it leaves in a healthy cell (R235). -/
theorem holds_sixSweeps (h : Grid n s) {r c : Nat} (hr : r < n) (hc : c < n)
    (hhealthy : Healthy s r c) :
    Holds (s.ran (sixSweeps K n)) r c (!K.patternInit.getLsbD ((c + 1) % 32)) := by
  have hthree := follows_ran s [fillUp K n, complementUp K n, checkUp K n]
  have hfive := follows_ran s [fillUp K n, complementUp K n, checkUp K n, fillDown K n,
    complementDown K n]
  obtain ⟨-, hcomplemented⟩ := holds_healthy (p := fillDown K n) (hthree.grid h) rfl hr hc
    (hthree.healthy hhealthy) 5#3
  have hchecked := Grid.holds_check (p := checkDown K n) (hfive.grid h) rfl hcomplemented
  rw [← patBit_descending K.patternInit h.words hc]
  exact hchecked

end

/-- Settles O40: none of the six sweeps has a mismatch. -/
theorem runTestPassesOnAHealthyDevice : Obligations.RunTestPassesOnAHealthyDevice := by
  intro lines s hlines h hready hanswers haddr hfit hhealthy
  have hgrid := grid_testStarted (grid_of_addrInvariant hlines hanswers haddr hfit) lines
  have hstart := unfailed_testStarted s.nowBusy lines
  have hpasses := passes_healthy (K := Config.machine) hgrid hhealthy
  obtain ⟨hcnt, hrow, hcol⟩ := unfailed_ran hstart hpasses
  have hexec := exec_runTest hlines h hready
  rw [tested_of_passes hstart hpasses] at hexec
  refine ⟨_, hexec, ?_, hcnt, ?_, ?_, fun r hr c hc => ?_, fun key hkey => ?_⟩
  · rw [State.finished_result, State.testResult, hcnt]
    exact congrArg (fun v => { outcome := .pass, lastSweep := v : Result }) (sweep_swept _ _)
  · rw [State.finished_x, Regs.failLocWord, hrow, hcol]
    rfl
  · exact (regs_swept _ (p := checkDown Config.machine (sideOf lines)) (sideOf_pos lines)).1.trans
      (congrArg (fun v => lineAddress (BitVec.ofNat 9 v)) (Nat.sub_self _))
  · exact Device.cell_of_lookup (holds_sixSweeps hgrid hr hc (hhealthy r hr c hc))
  · exact Device.cell_congr (lookup_ran_outside hgrid (by simp [sixSweeps, fillUp, complementUp,
      checkUp, fillDown, complementDown, checkDown]) hkey)

end Sys2Proof.Machine
end

section
/-!
PROOFS. `RUN_TEST` on a device with one stuck cell (`44_moving_inversions.md` R236).
-/

namespace Sys2Proof.Machine

open Sys2Proof.Safety
open Sys2Proof.Config (Params)

/-- The array has one stuck cell, in this row and column, which reads as `v`. -/
structure OneStuck (n : Nat) (s : State) (row col : Nat) (v : Bit) : Prop where
  grid : Grid n s
  row_lt : row < n
  col_lt : col < n
  stuck : Cells.lookup s.dev.stuck (row * 512 + col) = some v
  healthy : ∀ r < n, ∀ c < n, (r, c) ≠ (row, col) → Healthy s r c

namespace OneStuck

variable {s : State} {K : Params} {n row col : Nat} {v : Bit}

theorem visit_lt (h : OneStuck n s row col v) : row * n + col < n * n := by
  rw [Nat.mul_comm row]
  exact Nat.mul_add_lt_mul_of_lt_of_lt h.row_lt h.col_lt

/-- The ascending sweeps reach the stuck cell at one visit. -/
theorem visitKey_eq (h : OneStuck n s row col v) (K : Params) :
    visitKey s .ascending n (row * n + col) = row * 512 + col :=
  (Grid.visitKey_eq_iff (p := fillUp K n) h.grid h.visit_lt h.row_lt h.col_lt).mpr rfl

/-- No other visit of sweeps 2 and 3 is a mismatch. -/
theorem others_pass (h : OneStuck n s row col v) {k : Nat} (hk : k < n * n)
    (hne : k ≠ row * n + col) :
    (s.ran [fillUp K n]).failsAt (complementUp K n) k = false ∧
      (s.ran [fillUp K n, complementUp K n]).failsAt (checkUp K n) k = false := by
  obtain ⟨r, hr, c, hc, hkey⟩ := Grid.exists_cell (p := fillUp K n) h.grid hk
  refine healthy_passes (p := fillUp K n) h.grid rfl hr hc (h.healthy r hr c hc ?_) 2#3 3#3 hk hkey
  rintro ⟨rfl, rfl⟩
  exact hne ((Grid.visitKey_eq_iff (p := fillUp K n) h.grid hk hr hc).mp hkey)

/-- The answer of the stuck cell, in a sweep after `s`. -/
theorem failsAt_eq {t : State} (h : OneStuck n s row col v) (ht : Follows s t) {p : Sweep}
    (hdir : p.dir = .ascending) (hn : p.n = n) :
    t.failsAt p (row * n + col) = p.fails v (patBit p.K.patternInit col) := by
  have hkey : visitKey t p.dir p.n (row * n + col) = row * 512 + col := by
    rw [hdir, hn]
    exact (ht.targetKey ..).trans (h.visitKey_eq p.K)
  have hstuck : Cells.lookup t.dev.stuck (visitKey t p.dir p.n (row * n + col)) = some v := by
    rw [hkey, ht.dev]
    exact h.stuck
  rw [failsAt_of_stuck (ht.answers h.grid.answers) (hn ▸ h.visit_lt) hstuck,
    patBit_row_add _ h.grid.words]

/-- Sweep 2 finds the stuck cell where it does not read as the pattern bit. -/
theorem failures_two (h : OneStuck n s row col v) :
    (s.ran [fillUp K n]).sweepFailures (complementUp K n) =
      if v = patBit K.patternInit col then [] else [row * n + col] := by
  have hfails : (s.ran [fillUp K n]).failsAt (complementUp K n) (row * n + col) =
      (v != patBit K.patternInit col) := h.failsAt_eq (follows_ran s [fillUp K n]) rfl rfl
  rw [sweepFailures_eq_ite (p := complementUp K n) h.visit_lt
    fun k hk hne => (h.others_pass hk hne).1, hfails]
  simp only [bne_iff_ne, ne_eq, ite_not]

/-- Sweep 3 finds it where it reads as the pattern bit. -/
theorem failures_three (h : OneStuck n s row col v) :
    (s.ran [fillUp K n, complementUp K n]).sweepFailures (checkUp K n) =
      if v = patBit K.patternInit col then [row * n + col] else [] := by
  have hfails : (s.ran [fillUp K n, complementUp K n]).failsAt (checkUp K n) (row * n + col) =
      (v != !patBit K.patternInit col) :=
    h.failsAt_eq (follows_ran s [fillUp K n, complementUp K n]) rfl rfl
  rw [sweepFailures_eq_ite (p := checkUp K n) h.visit_lt
    fun k hk hne => (h.others_pass hk hne).2, hfails]
  cases v <;> cases patBit K.patternInit col <;> rfl

/-- The test ends where the stuck cell is found: its record is that of one mismatch there, and the
healthy cells stay complemented. -/
theorem tested (h : OneStuck n s row col v) (hs : Unfailed s) :
    (s.tested K n).record = recordOf .ascending n [row * n + col]
      (if v = patBit K.patternInit col then 3#3 else 2#3) ∧
    ∀ r < n, ∀ c < n, (r, c) ≠ (row, col) →
      Holds (s.tested K n) r c (!patBit K.patternInit c) := by
  have htwo := h.failures_two (K := K)
  have hthree := h.failures_three (K := K)
  have h1 := failures_of_fill s (p := fillUp K n) rfl (n * n)
  have hcomplemented := fun r hr c hc hne =>
    (holds_healthy (p := fillUp K n) h.grid rfl hr hc (h.healthy r hr c hc hne) 2#3).2
  by_cases hv : v = patBit K.patternInit col
  · rw [if_pos hv] at htwo hthree ⊢
    have hpassed : s.passes [fillUp K n, complementUp K n] := ⟨h1, htwo, trivial⟩
    rw [tested_of_three_fails hs h.grid.side hpassed (by simp [hthree])]
    have hgrid := (follows_ran s [fillUp K n, complementUp K n]).grid h.grid
    refine ⟨?_, fun r hr c hc hne => Grid.holds_check (p := checkUp K n) hgrid rfl
      (hcomplemented r hr c hc hne)⟩
    rw [record_swept (unfailed_ran hs hpassed), hthree]
    rfl
  · rw [if_neg hv] at htwo ⊢
    have hpassed : s.passes [fillUp K n] := ⟨h1, trivial⟩
    rw [tested_of_two_fails hs h.grid.side hpassed (by simp [htwo])]
    refine ⟨?_, hcomplemented⟩
    rw [record_swept (unfailed_ran hs hpassed), htwo]
    rfl

end OneStuck

/-- Settles O41: one mismatch, in sweep 2 or 3. -/
theorem runTestFindsOneStuckCell : Obligations.RunTestFindsOneStuckCell := by
  intro lines s row col v hlines h hready hanswers haddr hmatches hrow hcol hstuck hhealthy
  have hgrid := grid_testStarted (grid_of_addrInvariant hlines hanswers haddr hmatches.le) lines
  have hone : OneStuck (sideOf lines) (s.nowBusy.testStarted lines) row col v :=
    ⟨hgrid, hrow, hcol, hstuck, hhealthy⟩
  obtain ⟨hrecord, hcells⟩ := hone.tested (K := Config.machine) (unfailed_testStarted _ _)
  refine ⟨_, exec_runTest hlines h hready, ?_⟩
  generalize (s.nowBusy.testStarted lines).tested Config.machine (sideOf lines) = t at hrecord hcells ⊢
  have hcnt : t.x.failCnt = 1#32 := congrArg TestRecord.failCnt hrecord
  have hplace : visited .ascending (sideOf lines) (row * sideOf lines + col) =
      (BitVec.ofNat 9 row, BitVec.ofNat 9 col) :=
    visited_place (fillUp Config.machine (sideOf lines)) row hcol
  refine ⟨?_, hcnt, ?_, ?_, congrArg TestRecord.lastSweep hrecord, fun r hr c hc hne =>
    Device.cell_of_lookup (hcells r hr c hc hne)⟩
  · rw [State.finished_result, State.testResult, hcnt]
    rfl
  · exact (congrArg TestRecord.lfRow hrecord).trans (congrArg Prod.fst hplace)
  · exact (congrArg TestRecord.lfCol hrecord).trans (congrArg Prod.snd hplace)

end Sys2Proof.Machine
end

section
/-!
PROOFS. `RUN_TEST 9` on a healthy 8-line chip: every cell is visited four times, and in sweep 2 the three
later visits are mismatches (`44_moving_inversions.md` R237).
-/

namespace Sys2Proof.Machine

open Sys2Proof.Safety
open Sys2Proof.Config (Params)

/-- An 8-line chip sees the error pattern on its own eight lines. -/
theorem seenLines_eight_inj {e v w : Line} :
    seenLines .eight (v ^^^ e) = seenLines .eight (w ^^^ e) ↔ v.toNat % 256 = w.toNat % 256 := by
  have hmod : ∀ u : Line, (seenLines .eight (u ^^^ e)).toNat = u.toNat % 256 ^^^ e.toNat % 256 :=
    fun u => by
      rw [seenLines_eight_toNat, BitVec.toNat_xor]
      exact Nat.xor_mod_two_pow (n := 8)
  rw [← BitVec.toNat_inj, hmod, hmod, Nat.xor_left_inj]

/-- A healthy 8-line chip that answers. -/
structure Eight (s : State) : Prop where
  answers : Answers s
  lines : s.dev.lines = .eight
  healthy : ∀ key, NotStuck s.dev key

theorem Follows.eight {s t : State} (h : Follows s t) (hs : Eight s) : Eight t := by
  refine ⟨h.answers hs.answers, ?_, ?_⟩
  · rw [h.dev]
    exact hs.lines
  · rw [h.dev]
    exact hs.healthy

namespace Eight

variable {s : State} {K : Params} {j k : Nat}

/-- Two visits of the 512 by 512 array reach the same cell where their rows and their columns differ by a
multiple of 256 (R237). -/
theorem visitKey_eq_iff (h : Eight s) (hj : j < 512 * 512) (hk : k < 512 * 512) :
    visitKey s .ascending 512 j = visitKey s .ascending 512 k ↔
      j / 512 % 256 = k / 512 % 256 ∧ j % 512 % 256 = k % 512 % 256 := by
  have hline : ∀ a b : Nat, a < 512 → b < 512 →
      (seenLines .eight (presented s (BitVec.ofNat 9 a)) =
        seenLines .eight (presented s (BitVec.ofNat 9 b)) ↔ a % 256 = b % 256) := fun a b ha hb => by
    rw [presented, presented, shown_eq, shown_eq, seenLines_eight_inj, BitVec.toNat_ofNat,
      BitVec.toNat_ofNat]
    omega
  rw [← hline _ _ (by omega) (by omega), ← hline _ _ (by omega) (by omega)]
  simp only [visitKey, targetKey, reachedKey, h.lines, visited]
  exact ⟨cellKey_inj, fun ⟨hrow, hcol⟩ => by rw [hrow, hcol]⟩

/-- They have the same pattern bit, because 32 divides 256. -/
theorem expects (h : Eight s) (init : Word) (hk : k < 512 * 512) :
    Expects s init .ascending 512 (visitKey s .ascending 512 k) (patBit init k) := by
  intro j hj hkey
  obtain ⟨-, hcol⟩ := (h.visitKey_eq_iff hj hk).mp hkey
  exact patBit_congr init (by omega)

/-- A cell has been visited before exactly where the row or the column is beyond the chip. -/
theorem reached_iff (h : Eight s) (hk : k < 512 * 512) :
    Reached s .ascending 512 k (visitKey s .ascending 512 k) ↔ 256 ≤ k / 512 ∨ 256 ≤ k % 512 := by
  constructor
  · rintro ⟨j, hj, hkey⟩
    have hplace := (h.visitKey_eq_iff (hj.trans hk) hk).mp hkey
    omega
  · intro hbeyond
    have hfirst : k / 512 % 256 * 512 + k % 512 % 256 < k := by omega
    refine ⟨_, hfirst, (h.visitKey_eq_iff (hfirst.trans hk) hk).mpr ?_⟩
    omega

/-- In sweep 2 those visits are the mismatches (R237). -/
theorem failsAt_iff (h : Eight s) (hk : k < 512 * 512) :
    (s.swept (fillUp K 512)).failsAt (complementUp K 512) k = true ↔
      256 ≤ k / 512 ∨ 256 ≤ k % 512 := by
  have hone := (follows_swept s (fillUp K 512)).eight h
  have hkey : visitKey (s.swept (fillUp K 512)) .ascending 512 k = visitKey s .ascending 512 k :=
    (follows_swept s (fillUp K 512)).targetKey ..
  have hholds : Cells.lookup (s.swept (fillUp K 512)).dev.cells (visitKey s .ascending 512 k) =
      some (patBit K.patternInit k) :=
    lookup_swept_fill (p := fillUp K 512) h.answers rfl (h.expects _ hk) ⟨k, hk, rfl⟩
  rw [← hkey] at hholds
  exact (failsAt_complement (p := complementUp K 512) hone.answers rfl hk (hone.healthy _)
    (hone.expects _ hk) hholds).trans (hone.reached_iff hk)

end Eight

/-- How many of the first `k` visits of a 512 by 512 array have their row and their column below 256. -/
def firstVisits (k : Nat) : Nat :=
  if k / 512 < 256 then k / 512 * 256 + min (k % 512) 256 else 65536

theorem firstVisits_succ (k : Nat) :
    firstVisits (k + 1) = firstVisits k + if 256 ≤ k / 512 ∨ 256 ≤ k % 512 then 0 else 1 := by
  unfold firstVisits
  split_ifs <;> omega

namespace Eight

variable {s : State} {K : Params}

theorem length_failures (h : Eight s) {k : Nat} (hk : k ≤ 512 * 512) :
    ((s.swept (fillUp K 512)).failures (complementUp K 512) k).length + firstVisits k = k := by
  induction k with
  | zero => rfl
  | succ k ih =>
    have hfails := h.failsAt_iff (K := K) (k := k) hk
    rw [failures_succ, firstVisits_succ, List.length_append]
    have hbefore := ih (by omega)
    by_cases hbeyond : 256 ≤ k / 512 ∨ 256 ≤ k % 512
    · rw [if_pos (hfails.mpr hbeyond), if_pos hbeyond, List.length_singleton]
      omega
    · rw [if_neg (hfails.not.mpr hbeyond), if_neg hbeyond, List.length_nil]
      omega

/-- The last visit of sweep 2 is a mismatch, and there are 196608 (R237). -/
theorem failures_two (h : Eight s) :
    ((s.swept (fillUp K 512)).sweepFailures (complementUp K 512)).length = 196608 ∧
      ((s.swept (fillUp K 512)).sweepFailures (complementUp K 512)).getLast? = some 262143 := by
  have hsweep : (s.swept (fillUp K 512)).sweepFailures (complementUp K 512) =
      (s.swept (fillUp K 512)).failures (complementUp K 512) (262143 + 1) :=
    congrArg (State.failures _ _) (show 512 * 512 = 262143 + 1 by norm_num)
  have hlength := h.length_failures (K := K) (k := 262143 + 1) (by norm_num)
  have hfirst : firstVisits (262143 + 1) = 65536 := by decide
  have hfails := (h.failsAt_iff (K := K) (k := 262143) (by norm_num)).mpr (by norm_num)
  rw [hsweep]
  constructor
  · omega
  · rw [failures_succ, if_pos hfails, List.getLast?_concat]

/-- The record of the test (R237). -/
theorem record_tested (h : Eight s) (hs : Unfailed s) :
    (s.tested K 512).record =
      { failCnt := 196608#32, lfRow := 511#9, lfCol := 511#9, lastSweep := 2#3 } := by
  obtain ⟨hlength, hlast⟩ := h.failures_two (K := K)
  have hpassed : s.passes [fillUp K 512] := ⟨failures_of_fill s rfl _, trivial⟩
  have hsome : (s.ran [fillUp K 512]).sweepFailures (complementUp K 512) ≠ [] := fun hnil => by
    rw [ran_cons, ran_nil] at hnil
    simp [hnil] at hlength
  have hplace : visited .ascending 512 262143 = (511#9, 511#9) := by decide
  have hrecord := record_swept (unfailed_ran hs hpassed) (complementUp K 512)
  rw [ran_cons, ran_nil, recordOf, hlength, hlast] at hrecord
  rw [tested_of_two_fails hs le_rfl hpassed hsome, ran_cons, ran_nil, hrecord]
  simp [complementUp, hplace]

end Eight

/-- Settles O42: sweep 2 has three mismatches for each cell of the chip, the last one at the end of the
array. -/
theorem runTestWithTooManyLines : Obligations.RunTestWithTooManyLines := by
  intro s h hready hanswers hlines hhealthy
  have height : Eight (s.nowBusy.testStarted 9#4) := ⟨hanswers, hlines, hhealthy⟩
  have hrecord := height.record_tested (K := Config.machine) (unfailed_testStarted _ _)
  have hexec := exec_runTest (lines := 9#4) rfl h hready
  rw [show sideOf 9#4 = 512 from rfl] at hexec
  refine ⟨_, hexec, ?_⟩
  generalize (s.nowBusy.testStarted 9#4).tested Config.machine 512 = t at hrecord ⊢
  rw [State.record, TestRecord.mk.injEq] at hrecord
  obtain ⟨hcnt, hrow, hcol, hlast⟩ := hrecord
  refine ⟨?_, ?_, ?_⟩
  · rw [State.finished_result, State.testResult, hcnt, hlast, if_neg (by decide)]
  · rw [State.finished_x, hcnt]
  · rw [State.finished_x, Regs.failLocWord, hrow, hcol]
    rfl

end Sys2Proof.Machine
end

section
/-!
PROOFS. Accesses while an operation runs: the operation carries what they leave behind from its start
to its end (`60_exceptions.md` R267, `70_reset_and_hazards.md` R301).
-/

namespace Sys2Proof.Machine

open Sys2Proof.Safety

/-- An operation carries what the host left behind: it ends with the `OVERRUN` and the word read it
started with. -/
theorem exec_carries_polled {i : Instr} {s t : State} (haccepts : Accepts i s)
    (h : exec i s = .next t) : t = t.polled s.started.status.overrun s.started.readData := by
  rw [exec_accepted haccepts] at h
  have hself := runOperation_polled (blind_bodyOf Config.machine i)
    (show s.started = s.started.polled s.started.status.overrun s.started.readData from rfl)
  rw [h] at hself
  exact Host.Outcome.next.inj hself

/-- Two accepted states whose starts differ in what the host left behind: so do their ends. -/
theorem exec_polled {i : Instr} {s t : State} {o : Bit} {rd : Word} (hs : Accepts i s)
    (ht : Accepts i t) (h : t.started = s.started.polled o rd) :
    exec i t = mapNext (·.polled o rd) (exec i s) := by
  rw [exec_accepted hs, exec_accepted ht]
  exact runOperation_polled (blind_bodyOf _ i) h

/-- One `CMD` write while an accepted operation runs: dropped, `OVERRUN` set. -/
theorem exec_of_command_overlap {i : Instr} {s : State} (haccepts : Accepts i s) (w : Word)
    (hsilent : HostSilent s) :
    exec i { s with overlap := [.write .cmd w] } = mapNext State.overrun (exec i s) := by
  have hstarted := started_of_hostSilent hsilent
  rw [exec_polled (t := { s with overlap := [.write .cmd w] }) (o := true) (rd := s.readData)
    haccepts haccepts (by rw [hstarted]; rfl)]
  refine mapNext_congr fun t ht => ?_
  have hread : t.readData = s.readData := by
    have hcarries := congrArg State.readData (exec_carries_polled haccepts ht)
    rwa [hstarted] at hcarries
  rw [State.polled, ← hread]
  rfl

/-- Any accesses while an accepted operation runs: `OVERRUN` where one of them is a `CMD` write, the
word read, and one free value for each read. -/
theorem exec_of_overlap {i : Instr} {s : State} (haccepts : Accepts i s) :
    ∃ rd : Word, exec i s = mapNext
      (fun t => { t with
        status.overrun := t.status.overrun || s.overlap.any isCommand
        readData := rd })
      (exec i { s with overlap := [], freeNo := s.freeNo + s.overlap.countP isRead }) := by
  obtain ⟨rd, hstarted⟩ := started_eq s
  refine ⟨rd, ?_⟩
  rw [exec_polled (s := { s with overlap := [], freeNo := s.freeNo + s.overlap.countP isRead })
    haccepts haccepts hstarted]
  refine mapNext_congr fun t ht => ?_
  have hoverrun : t.status.overrun = s.status.overrun :=
    congrArg (·.status.overrun) (exec_carries_polled (s := { s with
      overlap := []
      freeNo := s.freeNo + s.overlap.countP isRead }) haccepts ht)
  rw [hoverrun]
  rfl

/-- Settles O11: a `CMD` write alone, any accesses, and accesses none of which is a `CMD` write. -/
theorem overrunDoesNotDisturbTheOperation : Obligations.OverrunDoesNotDisturbTheOperation := by
  intro i s hwf hlegal
  have haccepts : Accepts i s := ⟨hwf, hlegal⟩
  refine ⟨fun w => exec_of_command_overlap haccepts w, exec_of_overlap haccepts, fun hwaits => ?_⟩
  obtain ⟨rd, h⟩ := exec_of_overlap haccepts
  have hnone : s.overlap.any isCommand = false := by simpa using hwaits
  exact ⟨rd, by simpa only [hnone, Bool.or_false] using h⟩

end Sys2Proof.Machine
end

section
/-!
PROOFS. The errors of a `CMD` write: words the decoder rejects, a write that finds the engine busy, and
the state checks of a decoded operation (`60_exceptions.md` R262 to R267, R270, R271).
-/

namespace Sys2Proof.Machine

open Sys2Proof.Safety

/-! ### Rejected words -/

/-- The opcodes in the map are those of the rows (`30_encoding.md` R110). -/
theorem ofCode_eq_none_iff (c : BitVec 8) : Opcode.ofCode c = none ↔ c ∉ Opcode.all.map Opcode.code := by
  simp [Opcode.ofCode, List.find?_eq_none]

/-- A word whose opcode is in no row of the table (R109 step 1). -/
theorem decode_of_ofCode_none {w : Word} (h : Opcode.ofCode (fieldOpc w) = none) :
    decode w = .illegalOpcode := by
  rw [decode, h]

/-- A word of a legal opcode that does not lie in its row (R109 step 2). -/
theorem decode_of_not_row {w : Word} {o : Opcode} (hopc : fieldOpc w = o.code)
    (hrow : w &&& o.mask ≠ o.pattern) : decode w = .badOperand := by
  simp [decode, hopc, hrow]

/-- A word the decoder rejects, written while no operation runs, is a command error (R109, R117). -/
theorem step_of_illegalOpcode {s : State} {later : List HostAccess} {w : Word}
    (hbusy : s.status.busy = false) (hhost : s.host = .write .cmd w :: later)
    (hdecode : decode w = .illegalOpcode) :
    step s = .next ({ s with host := later }.clearedForCommand.cmdErr .illegalOpcode) := by
  simp [step, State.nextAccess, State.idleAccess, State.command, hhost, hbusy, hdecode]

theorem step_of_badOperand {s : State} {later : List HostAccess} {w : Word}
    (hbusy : s.status.busy = false) (hhost : s.host = .write .cmd w :: later)
    (hdecode : decode w = .badOperand) :
    step s = .next ({ s with host := later }.clearedForCommand.cmdErr .badOperand) := by
  simp [step, State.nextAccess, State.idleAccess, State.command, hhost, hbusy, hdecode]

/-- Settles O4: the thirteen opcodes are those of the rows, so no other one has a row. -/
theorem illegalOpcodeIsRejected : Obligations.IllegalOpcodeIsRejected := by
  refine ⟨fun s later w hbusy hhost hopc => ?_, by decide, by decide⟩
  have hnone : Opcode.ofCode (fieldOpc w) = none := (ofCode_eq_none_iff _).mpr hopc
  exact step_of_illegalOpcode hbusy hhost (decode_of_ofCode_none hnone)

/-- Settles O5: such a word does not lie in its row; a word in the row of `RUN_TEST` has a legal line
count. -/
theorem reservedBitsAreRejected : Obligations.ReservedBitsAreRejected := by
  refine ⟨fun s later w o hbusy hhost hopc hrow => ?_, fun w hopc height hnine => ?_⟩
  · exact step_of_badOperand hbusy hhost (decode_of_not_row hopc hrow)
  · refine decode_of_not_row (o := .runTest) hopc fun hrow => ?_
    have hlegal : legalLines (fieldLines w) = true := wellFormed_instrOf hrow
    simp [legalLines, height, hnine] at hlegal

/-- Settles O10: the step deals with the write as an access that finds the engine busy. -/
theorem writeWhileBusyIsDropped : Obligations.WriteWhileBusyIsDropped := by
  intro s later w hbusy hhost
  simp [step, State.nextAccess, State.busyAccess, State.overrun, hhost, hbusy]

/-! ### The state checks -/

/-- An operation other than `INIT` is its body behind the state checks. -/
theorem exec_eq_guarded {i : Instr} (hwf : i.wellFormed = true) (hi : i ≠ .init) (s : State) :
    exec i s = guarded i.opcode (bodyOf Config.machine i) s := by
  cases i with
  | init => exact absurd rfl hi
  | runTest lines => exact if_pos hwf
  | _ => rfl

/-- The operand check comes before them (log 18). -/
theorem exec_of_not_wellFormed {i : Instr} (hwf : i.wellFormed = false) (s : State) :
    exec i s = .next (s.cmdErr .badOperand) := by
  cases i with
  | runTest lines => exact if_neg (by simpa [Instr.wellFormed] using hwf)
  | _ => cases hwf

/-- The protocol state an operation is not legal in (`42_protocol_sequencer.md` R171). -/
theorem not_legalIn_of_table {o : Opcode} {q : SeqState}
    (h : (q = .idle ∧ o ∈ [.strobeCol, .pageWrite, .pageRead, .closeRow]) ∨
      (q = .rowOpen ∧ o ∈ [.openRow, .writeBitEarly, .readBit, .isPresent, .chipKind, .runTest])) :
    legalIn o q = false := by
  obtain ⟨rfl, ho⟩ | ⟨rfl, ho⟩ := h <;> revert o <;> decide

/-- Settles O44: the checks of `guarded`, one after the other. -/
theorem stateChecksInOrder : Obligations.StateChecksInOrder := by
  refine fun i s => ⟨fun hwf hi => ?_, fun hwf => exec_of_not_wellFormed hwf s⟩
  rw [exec_eq_guarded hwf hi]
  refine ⟨fun hfault => ?_, fun hfault hinited => ?_, fun hfault hinited hseq => ?_⟩
  · simp [guarded, hfault, State.cmdErr]
  · simp [guarded, hfault, hinited, State.cmdErr]
  · simp [guarded, hfault, hinited, not_legalIn_of_table hseq, State.cmdErr]

/-- Which command error turns an operation away depends on the status and the protocol state only. -/
theorem exec_cmdErr_of_not_accepts {i : Instr} {s : State} (h : ¬ Accepts i s) :
    ∃ e, ∀ t : State, t.status = s.status → t.seq = s.seq → exec i t = .next (t.cmdErr e) := by
  obtain ⟨hi, -⟩ := exec_not_accepted h
  cases hwf : i.wellFormed
  case false => exact ⟨_, fun t _ _ => exec_of_not_wellFormed hwf t⟩
  simp only [exec_eq_guarded hwf hi, guarded]
  by_cases hfault : s.status.fault = true
  · exact ⟨.faultLocked, fun t hstatus _ => by rw [hstatus, if_pos hfault]⟩
  by_cases hinited : s.status.inited = true
  · have hlegal : legalIn i.opcode s.seq = false := by
      by_contra hlegal
      exact h ⟨hwf, .inr ⟨by simpa using hfault, hinited, by simpa using hlegal⟩⟩
    exact ⟨.seqViolation, fun t hstatus hseq => by simp [hstatus, hseq, hfault, hinited, hlegal]⟩
  · exact ⟨.notInitialised, fun t hstatus _ => by simp [hstatus, hfault, hinited]⟩

end Sys2Proof.Machine
end

section
/-!
PROOFS. The status after an operation, whatever the environment answers: only the return from a fault
at the end of `INIT` touches it before the operation ends (`60_exceptions.md` R261, R271 to R273).
-/

namespace Sys2Proof.Machine

open Sys2Proof.Safety
open Sys2Proof.Config (Params)

/-! ### Before the end of the operation -/

/-- Two states with the same status. -/
def SameStatus (s t : State) : Prop := t.status = s.status

@[simp] theorem State.pinFailed_status (s : State) (sig : Signal) :
    (s.pinFailed sig).status = s.status := by
  unfold State.pinFailed
  split <;> rfl

theorem tame_sameStatus (K : Params) : Tame K SameStatus where
  refl _ := rfl
  trans _ _ _ h h' := Eq.trans h' h
  withIoFails _ _ := rfl
  pinAt _ _ _ := rfl
  pinFailed := State.pinFailed_status
  toggled _ _ := rfl
  toggleFailed _ := rfl
  waited _ _ _ := rfl
  tookDout _ := rfl
  withSeq _ _ := rfl
  withLda _ _ := rfl

theorem tameTest_sameStatus : TameTest SameStatus where
  withNlines _ _ := rfl
  withSweep _ _ := rfl
  withRow _ _ := rfl
  withCol _ _ := rfl
  withPat _ _ := rfl
  failuresCleared _ := rfl
  failureRecorded _ := rfl

/-- `m` changes the status by `g` where it ends well, and not at all where it stops early. -/
def SetsStatus (g : Status → Status) {α : Type} (m : Micro α) : Prop :=
  ∀ s, match m s with
    | .ok _ t => t.status = g s.status
    | .error _ t => t.status = s.status

theorem setsStatus_id {α : Type} {m : Micro α} (h : Stays SameStatus α m) : SetsStatus id m := by
  intro s
  have hs := h s
  unfold reached at hs
  cases hms : m s <;> rw [hms] at hs <;> exact hs

theorem SetsStatus.bind {g : Status → Status} {α β : Type} {m : Micro α} {f : α → Micro β}
    (hm : Stays SameStatus α m) (hf : ∀ a, SetsStatus g (f a)) : SetsStatus g (m >>= f) := by
  intro s
  have hs := hm s
  unfold reached at hs
  rw [micro_bind]
  cases hms : m s with
  | ok a t =>
    rw [hms] at hs
    have hf' := hf a t
    rwa [show t.status = s.status from hs] at hf'
  | error e t => rwa [hms] at hs

/-- What the body of an operation makes of the status. -/
def statusSet : Instr → Status → Status
  | .init, t => { t with inited := true, fault := false }
  | _, t => t

@[simp] theorem statusSet_cmdErr (i : Instr) (t : Status) : (statusSet i t).cmdErr = t.cmdErr := by
  cases i <;> rfl

theorem statusSet_of_ne_init {i : Instr} (hi : i ≠ .init) : statusSet i = id := by
  cases i with
  | init => exact absurd rfl hi
  | _ => rfl

/-- `INIT` ends with the return from a fault (R273). -/
theorem initBody_setsStatus (K : Params) : SetsStatus (statusSet .init) (initBody K) :=
  have T := (tame_sameStatus K).closed
  .bind (T.pin _ _) fun _ => .bind (T.pin _ _) fun _ => .bind (T.pin _ _) fun _ =>
    .bind (T.pin _ _) fun _ => .bind (T.setSeq _) fun _ =>
      .bind (T.times T.prechargePulse 8) fun _ _ => rfl

theorem bodyOf_setsStatus (K : Params) (i : Instr) : SetsStatus (statusSet i) (bodyOf K i) := by
  have T := (tame_sameStatus K).closed
  by_cases hinit : i = .init
  · subst hinit
    exact initBody_setsStatus K
  rw [statusSet_of_ne_init hinit]
  refine setsStatus_id ?_
  by_cases htest : ∃ lines, i = .runTest lines
  · obtain ⟨lines, rfl⟩ := htest
    exact T.runTestOn tameTest_sameStatus.closed lines _
  · rw [bodyOf_plain hinit fun lines h => htest ⟨lines, h⟩]
    exact T.plainBody i

/-! ### At its end -/

/-- The three ways an operation leaves a next state, with its status: turned away by a command error,
at its end, or by a fault. -/
theorem exec_outcome {i : Instr} {s t : State} (h : exec i s = .next t) :
    (i ≠ .init ∧ ¬ Accepts i s ∧ ∃ e, t = s.cmdErr e) ∨
      (Accepts i s ∧ t.status =
        { statusSet i s.started.status with busy := false, done := true }) ∨
      (Accepts i s ∧ t.result = {} ∧ t.status = { s.started.status with
        busy := false
        done := true
        fault := true
        faultSeen := true
        faultCode := some .ioFault }) := by
  have hbody := bodyOf_setsStatus Config.machine i s.started
  obtain hturned | ⟨haccepts, ⟨r, u, hu, rfl⟩ | ⟨u, hu, rfl⟩⟩ := exec_cases h
  · exact .inl hturned
  all_goals simp only [hu] at hbody
  · exact .inr (.inl ⟨haccepts, by rw [← hbody]; rfl⟩)
  · exact .inr (.inr ⟨haccepts, rfl, by rw [← hbody]; rfl⟩)

/-- The start of an operation sets `BUSY`, and at most `OVERRUN` besides. -/
theorem started_status (s : State) : ∃ o, (s.status.overrun = true → o = true) ∧
    s.started.status = { s.status with busy := true, overrun := o } := by
  obtain ⟨-, -, -, -, -, -, -, -, hstatus⟩ := started_invariant s
  exact hstatus

/-- An accepted operation that ends normally leaves no fault. -/
theorem statusSet_fault {i : Instr} {s : State} (h : Accepts i s) :
    (statusSet i s.started.status).fault = false := by
  obtain ⟨o, -, hstarted⟩ := started_status s
  obtain ⟨-, rfl | ⟨hfault, -, -⟩⟩ := h
  · rfl
  · cases i <;> simp [statusSet, hstarted, hfault]

/-- A host that writes no `CMD` meanwhile does not set `OVERRUN`: the start only sets `BUSY`. -/
theorem started_status_of_hostWaits {s : State} (h : HostWaits s) :
    s.started.status = { s.status with busy := true } := by
  obtain ⟨rd, hstarted⟩ := started_eq s
  have hnone : s.overlap.any isCommand = false := by simpa using h
  simp [hstarted, hnone]

/-- Settles O45: a word that is rejected, and an operation that is turned away; an operation that is
accepted ends with the `CMD_ERR` the write cleared. -/
theorem commandErrorsChangeOnlyStatus : Obligations.CommandErrorsChangeOnlyStatus := by
  intro s t later w hbusy hhost hstep hcmdErr
  cases hdecode : decode w with
  | illegalOpcode =>
    rw [step_of_illegalOpcode hbusy hhost hdecode] at hstep
    exact ⟨_, (Host.Outcome.next.inj hstep).symm⟩
  | badOperand =>
    rw [step_of_badOperand hbusy hhost hdecode] at hstep
    exact ⟨_, (Host.Outcome.next.inj hstep).symm⟩
  | instr i =>
    rw [step_of_command hbusy hhost hdecode] at hstep
    obtain ⟨o, -, hstarted⟩ := started_status { s with host := later }.clearedForCommand
    obtain ⟨-, -, e, rfl⟩ | ⟨-, hstatus⟩ | ⟨-, -, hstatus⟩ := exec_outcome hstep
    · exact ⟨e, rfl⟩
    all_goals simp [hstatus, hstarted] at hcmdErr

/-- Settles O47: only the third way of `exec_outcome` leaves a fault. -/
theorem faultEntry : Obligations.FaultEntry := by
  intro i s t hnoFault hwaits h hfault
  rw [← and_assoc]
  refine ⟨?_, fun hi => testRegistersBelongToRunTest i s t hi h⟩
  obtain ⟨hi, -, e, rfl⟩ | ⟨haccepts, hstatus⟩ | ⟨-, hresult, hstatus⟩ := exec_outcome h
  · rw [State.cmdErr_status_fault, hnoFault.resolve_left hi] at hfault
    cases hfault
  · rw [hstatus] at hfault
    exact absurd hfault (by simp [statusSet_fault haccepts])
  · exact ⟨hresult, by rw [hstatus, started_status_of_hostWaits hwaits]⟩

/-! ### What a step keeps of the record -/

/-- The sticky bits (`10_state.md` R29, R38) of the first status are in the second. -/
def KeepsSticky (a b : Status) : Prop :=
  (a.faultSeen = true → b.faultSeen = true) ∧
    (a.faultCode.isSome = true → b.faultCode.isSome = true) ∧
    (a.overrun = true → b.overrun = true) ∧ (a.inited = true → b.inited = true)

theorem KeepsSticky.refl (a : Status) : KeepsSticky a a := ⟨id, id, id, id⟩

theorem KeepsSticky.trans {a b c : Status} (h : KeepsSticky a b) (h' : KeepsSticky b c) :
    KeepsSticky a c := by
  obtain ⟨hseen, hcode, hoverrun, hinited⟩ := h
  obtain ⟨hseen', hcode', hoverrun', hinited'⟩ := h'
  exact ⟨hseen' ∘ hseen, hcode' ∘ hcode, hoverrun' ∘ hoverrun, hinited' ∘ hinited⟩

theorem exec_keepsSticky {i : Instr} {s t : State} (h : exec i s = .next t) :
    KeepsSticky s.status t.status := by
  obtain ⟨o, hoverrun, hstarted⟩ := started_status s
  obtain ⟨-, -, e, rfl⟩ | ⟨-, hstatus⟩ | ⟨-, -, hstatus⟩ := exec_outcome h
  · exact ⟨id, id, id, id⟩
  · rw [hstatus, hstarted]
    cases i with
    | init => exact ⟨id, id, hoverrun, fun _ => rfl⟩
    | _ => exact ⟨id, id, hoverrun, id⟩
  · rw [hstatus, hstarted]
    exact ⟨fun _ => rfl, fun _ => rfl, hoverrun, id⟩

theorem step_keepsSticky {s t : State} (h : step s = .next t) : KeepsSticky s.status t.status :=
  step_related (R := fun s t => KeepsSticky s.status t.status) (refl := fun s => .refl s.status)
    (trans := fun _ _ _ => KeepsSticky.trans) (host := fun s _ => .refl s.status)
    (read := fun s r => by
      obtain ⟨rd, n, hread⟩ := hostRead_frame s r
      rw [hread]
      exact .refl s.status)
    (overrun := fun _ => ⟨id, id, fun _ => rfl, id⟩) (clear := fun _ => ⟨id, id, id, id⟩)
    (error := fun _ _ => ⟨id, id, id, id⟩) (operation := fun _ _ _ => exec_keepsSticky) h

/-- Only `INIT` leaves no fault where there was one. -/
theorem eq_init_of_fault_cleared {i : Instr} {s t : State} (h : exec i s = .next t)
    (hs : s.status.fault = true) (ht : t.status.fault = false) : i = .init := by
  obtain ⟨-, -, e, rfl⟩ | ⟨⟨-, hinit | ⟨hfault, -, -⟩⟩, -⟩ | ⟨-, -, hstatus⟩ := exec_outcome h
  · rw [State.cmdErr_status_fault, hs] at ht
    cases ht
  · exact hinit
  · rw [hs] at hfault
    cases hfault
  · rw [hstatus] at ht
    cases ht

/-- Settles O49: the sticky bits by `step_keepsSticky`; a step that clears `FAULT` runs `INIT`, whose only
word is that of its row. -/
theorem faultRecordIsKept : Obligations.FaultRecordIsKept := by
  intro s t h
  obtain ⟨hseen, hcode, hoverrun, hinited⟩ := step_keepsSticky h
  refine ⟨hseen, hcode, hoverrun, hinited, fun hs ht => ?_⟩
  have hkept : t.status.fault ≠ s.status.fault := by simp [hs, ht]
  obtain ⟨-, rfl⟩ | ⟨a, later, hhost, hread | hignored | hdropped | ⟨w, rfl, -, hcmd⟩⟩ := step_cases h
  · exact absurd rfl hkept
  · obtain ⟨r, -, rfl⟩ := hread
    obtain ⟨rd, n, hframe⟩ := hostRead_frame { s with host := later } r
    exact absurd (by rw [hframe]) hkept
  · obtain ⟨r, w, -, -, rfl⟩ := hignored
    exact absurd rfl hkept
  · obtain ⟨w, -, -, rfl⟩ := hdropped
    exact absurd rfl hkept
  · obtain ⟨i, hdecode, hexec⟩ | ⟨e, -, -, rfl⟩ | ⟨e, -, -, rfl⟩ := hcmd
    · obtain rfl := eq_init_of_fault_cleared hexec hs ht
      have hword : encode .init = w := (encodeOfDecode w .init hdecode).2
      exact ⟨later, by rw [hhost, ← hword]; rfl⟩
    all_goals exact absurd rfl hkept

end Sys2Proof.Machine
end

section
/-!
PROOFS. Where the environment fails an event: an operation does what it would have done otherwise up to
that event, and nothing after it (`60_exceptions.md` R272). The comparison is made for the events and
then holds of every micro-operation.
-/

namespace Sys2Proof.Machine

open Sys2Proof.Safety
open Sys2Proof.Config (Params)

/-! ### What a micro-operation does before a failure -/

/-- An outcome with other answers of the environment still to come. -/
def withAnswers {α : Type} (l : List Nat) :
    EStateM.Result Stop State α → EStateM.Result Stop State α
  | .ok a t => .ok a (t.withIoFails l)
  | .error e t => .error e (t.withIoFails l)

/-- `m` does not look at the answers to come and does not change them. -/
def IgnoresAnswers {α : Type} (m : Micro α) : Prop :=
  ∀ s l, m (s.withIoFails l) = withAnswers l (m s)

/-- With a failure to come, `m` does what it does without one, or it fails having emitted a part of the
events it emits without one. -/
def FailsEarly {α : Type} (m : Micro α) : Prop :=
  ∀ s n later, s.ioFails = [] →
    (∃ k, m (s.withIoFails (n :: later)) = withAnswers (k :: later) (m s)) ∨
      ∃ u, m (s.withIoFails (n :: later)) = .error .ioFault u ∧ u.trace <:+ (reached m s).trace

/-- `FailsEarly`, with what it takes to go on after `m`: without a failure to come `m` leaves none
behind, and it takes no event back. -/
structure Truncates (α : Type) (m : Micro α) : Prop where
  unfailing : Unfailing α m
  adds : Stays OnlyAddsEvents α m
  early : FailsEarly m

theorem OnlyAddsEvents.suffix {s t : State} (h : OnlyAddsEvents s t) : s.trace <:+ t.trace := by
  obtain ⟨new, htrace, -⟩ := h
  exact ⟨new, htrace.symm⟩

/-- What ignores the answers goes on with a failure to come as without one. -/
theorem IgnoresAnswers.failsEarly {α : Type} {m : Micro α} (h : IgnoresAnswers m) : FailsEarly m :=
  fun s n later _ => .inl ⟨n, h s (n :: later)⟩

/-- A point of failure: the failure comes here, and emits nothing, or it is yet to come. -/
theorem IgnoresAnswers.failsEarly_ioPoint {α : Type} {m : Micro α} {failed : State → State}
    (h : IgnoresAnswers m) (hadds : Stays OnlyAddsEvents α (ioPoint m failed))
    (hfailed : ∀ s, (failed s).trace = s.trace) : FailsEarly (ioPoint m failed) := by
  intro s n later hs
  cases n with
  | zero =>
    refine .inr ⟨failed (s.withIoFails later), rfl, ?_⟩
    rw [hfailed]
    exact (hadds s).suffix
  | succ n =>
    rw [ioPoint_undisturbed m failed s hs]
    exact .inl ⟨n, h s (n :: later)⟩

theorem FailsEarly.bind {α β : Type} {m : Micro α} {f : α → Micro β} (hm : Truncates α m)
    (hf : ∀ a, Truncates β (f a)) : FailsEarly (m >>= f) := by
  intro s n later hs
  have hunfailing := hm.unfailing s hs
  rcases hm.early s n later hs with ⟨k, hk⟩ | ⟨u, hu, hsuffix⟩
  · cases hms : m s with
    | ok a t =>
      rw [hms] at hk hunfailing
      rw [micro_bind_ok hk, reached, micro_bind_ok hms]
      exact (hf a).early t k later hunfailing
    | error e t =>
      rw [hms] at hk
      exact .inl ⟨k, by rw [micro_bind, micro_bind, hk, hms]; rfl⟩
  · refine .inr ⟨u, by rw [micro_bind, hu], hsuffix.trans ?_⟩
    unfold reached
    rw [micro_bind]
    cases hms : m s with
    | ok a t => exact ((hf a).adds t).suffix
    | error e t => exact List.suffix_rfl

theorem ignoresAnswers_pinOk (sig : Signal) (v : Bit) : IgnoresAnswers (pinOk sig v) := by
  intro s l
  unfold pinOk
  rw [State.withIoFails_dev, State.withIoFails_pin]
  cases s.dev.stray s.pin sig v <;> rfl

/-- The three properties of an event or an update of the state that ignores the answers. -/
theorem IgnoresAnswers.truncates {α : Type} {m : Micro α} (h : IgnoresAnswers m)
    (hunfailing : Unfailing α m) (hadds : Stays OnlyAddsEvents α m) : Truncates α m :=
  ⟨hunfailing, hadds, h.failsEarly⟩

theorem truncates_closed : Closed Config.machine Truncates :=
  have U := unfailing_closed Config.machine
  have A := tame_onlyAddsEvents.closed
  { pure a := ⟨U.pure a, A.pure a, fun _ n _ _ => .inl ⟨n, rfl⟩⟩
    bind hm hf := ⟨U.bind hm.unfailing fun a => (hf a).unfailing,
      A.bind hm.adds fun a => (hf a).adds, .bind hm hf⟩
    look h := ⟨U.look fun x => (h x).unfailing, A.look fun x => (h x).adds,
      fun s => (h s.x).early s⟩
    pin sig v := ⟨U.pin sig v, A.pin sig v, (ignoresAnswers_pinOk sig v).failsEarly_ioPoint
      (A.pin sig v) fun s => s.pinFailed_trace sig⟩
    addrToggle m := ⟨U.addrToggle m, A.addrToggle m, IgnoresAnswers.failsEarly_ioPoint
      (fun _ _ => rfl) (A.addrToggle m) fun _ => rfl⟩
    sample := ⟨U.sample, A.sample, IgnoresAnswers.failsEarly_ioPoint (fun _ _ => rfl) A.sample
      fun _ => rfl⟩
    wait sel := IgnoresAnswers.truncates (fun _ _ => rfl) (U.wait sel) (A.wait sel)
    setSeq q := IgnoresAnswers.truncates (fun _ _ => rfl) (U.setSeq q) (A.setSeq q)
    setLda a := IgnoresAnswers.truncates (fun _ _ => rfl) (U.setLda a) (A.setLda a) }

theorem truncates_closedTest : ClosedTest Truncates :=
  have U := unfailing_closedTest
  have A := tameTest_onlyAddsEvents.closed
  { setNlines v := IgnoresAnswers.truncates (fun _ _ => rfl) (U.setNlines v) (A.setNlines v)
    setSweep v := IgnoresAnswers.truncates (fun _ _ => rfl) (U.setSweep v) (A.setSweep v)
    setRow v := IgnoresAnswers.truncates (fun _ _ => rfl) (U.setRow v) (A.setRow v)
    setCol v := IgnoresAnswers.truncates (fun _ _ => rfl) (U.setCol v) (A.setCol v)
    setPat v := IgnoresAnswers.truncates (fun _ _ => rfl) (U.setPat v) (A.setPat v)
    clearFailures := IgnoresAnswers.truncates (fun _ _ => rfl) U.clearFailures A.clearFailures
    recordFailure := IgnoresAnswers.truncates (fun _ _ => rfl) U.recordFailure A.recordFailure }

theorem truncates_bodyOf (i : Instr) : Truncates Result (bodyOf Config.machine i) :=
  truncates_closed.bodyOf truncates_closedTest
    (IgnoresAnswers.truncates (fun _ _ => rfl) (fun _ h => h) fun _ => .of_trace_eq rfl) i

/-! ### What an operation does -/

theorem started_ioFails {s : State} (h : HostSilent s) : s.started.ioFails = s.ioFails := by
  rw [started_of_hostSilent h, State.nowBusy_ioFails]

/-- An accepted operation that nothing fails comes to its normal end. -/
theorem exec_ok_of_undisturbed {i : Instr} {s t : State} (h : Undisturbed s)
    (haccepts : Accepts i s) (ht : exec i s = .next t) :
    ∃ r u, bodyOf Config.machine i s.started = .ok r u ∧ t = u.finished r := by
  obtain ⟨hnoFault, hsilent⟩ := h
  rw [exec_accepted haccepts] at ht
  refine (runOperation_next ht).resolve_right fun ⟨u, hu, _⟩ => ?_
  have hunfailing := (truncates_bodyOf i).unfailing s.started ((started_ioFails hsilent).trans hnoFault)
  rw [hu] at hunfailing
  exact hunfailing

/-- So it leaves no fault. -/
theorem exec_fault_of_undisturbed {i : Instr} {s t : State} (h : Undisturbed s)
    (haccepts : Accepts i s) (ht : exec i s = .next t) : t.status.fault = false := by
  obtain ⟨r, u, hu, rfl⟩ := exec_ok_of_undisturbed h haccepts ht
  have hstatus := bodyOf_setsStatus Config.machine i s.started
  simp only [hu] at hstatus
  rw [State.finished_status_fault, hstatus]
  exact statusSet_fault haccepts

/-- The same operation with a failure to come: the failure comes too late, or it cuts the operation
short. -/
theorem exec_truncated {i : Instr} {s t : State} (h : Undisturbed s) (haccepts : Accepts i s)
    (ht : exec i s = .next t) (n : Nat) (later : List Nat) :
    (∃ k, exec i (s.withIoFails (n :: later)) = .next (t.withIoFails (k :: later))) ∨
      ∃ u : State, exec i (s.withIoFails (n :: later)) = .next u.ioFault ∧ u.trace <:+ t.trace := by
  obtain ⟨r, v, hv, rfl⟩ := exec_ok_of_undisturbed h haccepts ht
  obtain ⟨hnoFault, hsilent⟩ := h
  have hstarted : (s.withIoFails (n :: later)).started = s.started.withIoFails (n :: later) := by
    rw [started_of_hostSilent hsilent, started_of_hostSilent (by exact hsilent)]
    rfl
  have hearly := (truncates_bodyOf i).early s.started n later
    ((started_ioFails hsilent).trans hnoFault)
  rw [exec_accepted (s := s.withIoFails (n :: later)) haccepts, runOperation, hstarted]
  rw [reached, hv] at hearly
  obtain ⟨k, hk⟩ | ⟨u, hu, hsuffix⟩ := hearly
  · exact .inl ⟨k, by rw [hk]; rfl⟩
  · exact .inr ⟨u, by rw [hu], hsuffix⟩

theorem suffix_events {s t : State} (h : s.trace <:+ t.trace) :
    ∃ rest, t.events = s.events ++ rest := by
  obtain ⟨new, htrace⟩ := h
  exact ⟨new.reverse, by rw [State.events, ← htrace, List.reverse_append, State.events]⟩

/-- Settles O48: an operation that is turned away emits nothing in either case; an accepted one goes on
to its end, or is cut short and leaves a fault. -/
theorem failedOperationEmitsAPrefix : Obligations.FailedOperationEmitsAPrefix := by
  intro i s t u n later h ht hu
  by_cases haccepts : Accepts i s
  · obtain ⟨k, hk⟩ | ⟨v, hv, hsuffix⟩ := exec_truncated h haccepts ht n later
    · obtain rfl : t.withIoFails (k :: later) = u := Host.Outcome.next.inj (hk.symm.trans hu)
      exact ⟨⟨[], by rw [List.append_nil]; rfl⟩, fun _ => rfl⟩
    · obtain rfl : v.ioFault = u := Host.Outcome.next.inj (hv.symm.trans hu)
      refine ⟨suffix_events hsuffix, fun hfault => ?_⟩
      rw [exec_fault_of_undisturbed h haccepts ht] at hfault
      cases hfault
  · obtain ⟨e, he⟩ := exec_cmdErr_of_not_accepts haccepts
    rw [he s rfl rfl] at ht
    rw [he { s with ioFails := n :: later } rfl rfl] at hu
    obtain rfl := Host.Outcome.next.inj ht
    obtain rfl := Host.Outcome.next.inj hu
    exact ⟨⟨[], by rw [List.append_nil]; rfl⟩, fun _ => rfl⟩

/-! ### `OPEN_ROW` at its two points of failure -/

theorem ioPoint_of_fails {α : Type} (ok : Micro α) (failed : State → State) {s : State}
    {later : List Nat} (h : s.ioFails = 0 :: later) :
    ioPoint ok failed s = .error .ioFault (failed (s.withIoFails later)) := by
  simp [ioPoint, h]

theorem ioPoint_of_succ {α : Type} (ok : Micro α) (failed : State → State) {s : State} {n : Nat}
    {later : List Nat} (h : s.ioFails = (n + 1) :: later) :
    ioPoint ok failed s = ok (s.withIoFails (n :: later)) := by
  simp [ioPoint, h]

/-- A micro-operation that fails hands the failure on. -/
theorem micro_bind_error {α β : Type} {m : Micro α} {s t : State} {e : Stop}
    (h : m s = .error e t) (f : α → Micro β) : (m >>= f) s = .error e t := by
  simp [h]

/-- `AddrSet` whose toggle fails ends there (log 11). -/
theorem addrSet_of_fails (K : Params) (a : Word) {s : State} {later : List Nat}
    (h : s.ioFails = 0 :: later) :
    addrSet K a s = .error .ioFault (s.withIoFails later).toggleFailed :=
  micro_bind_error (ioPoint_of_fails _ _ h) _

/-- `AddrSet` before a later failure. -/
theorem addrSet_of_succ (K : Params) (a : Word) {s : State} {n : Nat} {later : List Nat}
    (h : s.ioFails = (n + 1) :: later) :
    addrSet K a s = .ok () { s with
      pin.a := s.pin.a ^^^ wired (a ^^^ s.x.lda)
      x.lda := a
      x.dcnt := 0
      trace := .wait (cAs K) :: .addrToggle (a ^^^ s.x.lda) :: s.trace
      ioFails := n :: later } := by
  have htoggle : addrToggle (a ^^^ s.x.lda) s = .ok ()
      (((s.withIoFails (n :: later)).toggled (a ^^^ s.x.lda)).emit (.addrToggle (a ^^^ s.x.lda))) :=
    ioPoint_of_succ _ _ h
  exact micro_bind_ok htoggle _

theorem pin_of_fails (sig : Signal) (v : Bit) {s : State} {later : List Nat}
    (h : s.ioFails = 0 :: later) :
    pin sig v s = .error .ioFault ((s.withIoFails later).pinFailed sig) :=
  ioPoint_of_fails _ _ h

/-- What a device with nothing latched or driven makes of the row strobe at level `v`, from high. -/
theorem react_rasN {d : Device} {p : Pins} (free v : Bit) (hras : p.rasN = true)
    (hlatch : d.rowLatch = none) (hdrive : d.drive = none) :
    d.react p free .rasN v = { d with
      rowLatch := if d.present && !v then some (seenLines d.lines p.a) else none } := by
  obtain ⟨pres, l, stu, le, tm, up, cs, rl, dr⟩ := d
  obtain rfl : rl = none := hlatch
  obtain rfl : dr = none := hdrive
  cases pres <;> cases v <;> simp [Device.react, Device.rasRise, Device.rasFall, hras]

/-- A row strobe that fails from high strobes: the device reacts to the level reached (log 10). -/
theorem pinFailed_rasN {s : State} (hras : s.pin.rasN = true) (hcas : s.pin.casN = true)
    (hlatch : s.dev.rowLatch = none) (hdrive : s.dev.drive = none) :
    s.pinFailed .rasN = { s with
      pin.rasN := s.freeBit
      dev.rowLatch :=
        if s.dev.present && !s.freeBit then some (seenLines s.dev.lines s.pin.a) else none
      freeNo := s.freeNo + 1 } := by
  have hstray : s.dev.stray s.pin .rasN s.freeBit = none := by
    cases s.freeBit <;> simp [Device.stray, hcas]
  simp [State.pinFailed, hstray, State.pinAt, State.tookFree, Pins.drive, Device.reactDraws,
    react_rasN, hras, hlatch, hdrive]

/-- `openRow(row)` whose toggle fails (`42_protocol_sequencer.md` R173, R190). -/
theorem openRow_of_toggle_fails (K : Params) (row : Line) {s : State} {later : List Nat}
    (h : s.ioFails = 0 :: later) :
    openRow K row s = .error .ioFault (s.withIoFails later).toggleFailed :=
  micro_bind_error (addrSet_of_fails K _ h) _

/-- `openRow(row)` from high strobes whose row strobe fails. -/
theorem openRow_of_strobe_fails (K : Params) (row : Line) {s : State} {later : List Nat}
    (h : s.ioFails = 1 :: later) (hras : s.pin.rasN = true) (hcas : s.pin.casN = true)
    (hlatch : s.dev.rowLatch = none) (hdrive : s.dev.drive = none) :
    openRow K row s = .error .ioFault { s with
      pin.a := presented s row
      pin.rasN := s.freeBit
      x.lda := lineAddress row
      x.dcnt := 0
      dev.rowLatch :=
        if s.dev.present && !s.freeBit then some (seenLines s.dev.lines (presented s row)) else none
      trace := .wait (cAs K) :: .addrToggle (lineAddress row ^^^ s.x.lda) :: s.trace
      ioFails := later
      freeNo := s.freeNo + 1 } :=
  (micro_bind_ok (addrSet_of_succ K _ h) _).trans
    ((micro_bind_error (pin_of_fails .rasN false rfl) _).trans
      (congrArg (EStateM.Result.error Stop.ioFault) (pinFailed_rasN hras hcas hlatch hdrive)))

/-- `OPEN_ROW` where its micro-operation fails. -/
theorem exec_openRow_of_fails {row : Line} {s u : State} (hsilent : HostSilent s)
    (haccepting : Accepting s .idle)
    (h : openRow Config.machine row s.nowBusy = .error .ioFault u) :
    exec (.openRow row) s = .next u.ioFault := by
  have hbody : bodyOf Config.machine (.openRow row) s.started = .error .ioFault u := by
    rw [started_of_hostSilent hsilent]
    exact micro_bind_error h _
  rw [exec_accepted (accepts_of_accepting rfl rfl haccepting), runOperation, hbody]

/-- Settles O46: `AddrSet` fails at its toggle, or it is done and the row strobe fails. -/
theorem failedEventsOfOpenRow : Obligations.FailedEventsOfOpenRow := by
  rintro row s later hsilent ⟨haccepting, hras, hcas, -, hlatch, hdrive⟩
  refine ⟨fun hio => ?_, fun hio => ?_⟩
  · rw [exec_openRow_of_fails hsilent haccepting (openRow_of_toggle_fails _ row hio)]
    simp [State.ioFault, State.toggleFailed, State.tookFree, State.freeWord, State.withIoFails,
      State.nowBusy, hsilent]
  · rw [exec_openRow_of_fails hsilent haccepting
      (openRow_of_strobe_fails _ row hio hras hcas hlatch hdrive)]
    simp [State.ioFault, State.tookFree, State.freeWord, State.freeBit, State.nowBusy, presented,
      hsilent]

end Sys2Proof.Machine
end

section
/-!
PROOFS. The pulses and gaps of the operations: the datasheet figures they cover, and the intervals in
the events the operations emit (`70_reset_and_hazards.md` R310 to R312).
-/

namespace Sys2Proof.Machine

open Sys2Proof.Safety
open Sys2Proof.Config (Params Datasheet)

/-! ### The figures covered

The overhead taken off each figure is one cycle (R137, R138), and every pulse and gap holds at least
one event besides its waits: that event's cycle gives the overhead back. -/

theorem le_cycles_mul (K : Params) (ns : Nat) : ns ≤ cycles K ns * nsPerCycle K := by
  rw [cycles_eq_ceilDiv]
  exact le_ceilDiv_mul ns (nsPerCycle_pos K)

/-- The wait for a figure less the overhead, and one cycle more, cover the figure. -/
theorem le_cycles_succ_mul (K : Params) (ns : Nat) :
    ns ≤ (cycles K (satSub ns (overheadNs K)) + 1) * nsPerCycle K := by
  have hwait := le_cycles_mul K (satSub ns (overheadNs K))
  rw [satSub_eq, overheadNs] at *
  rw [Nat.succ_mul]
  omega

/-- `rowStrobeRest` is the row strobe pulse less the two waits of the column, so the three waits and
one cycle more cover the pulse (R139). -/
theorem tRas_le_cycleWaits_mul (K : Params) :
    K.ds.tRas ≤ (cRcd K + cCas K + cRest K + 1) * nsPerCycle K := by
  have hrcd : strobeToStrobeDelay K ≤ cRcd K * nsPerCycle K := le_cycles_mul K _
  have hcas : colStrobePulse K ≤ cCas K * nsPerCycle K := le_cycles_mul K _
  have hrest : rowStrobeRest K ≤ cRest K * nsPerCycle K := le_cycles_mul K _
  rw [rowStrobeRest, rowStrobePulse, satSub_eq, satSub_eq, satSub_eq, overheadNs] at hrest
  rw [Nat.succ_mul, Nat.add_mul, Nat.add_mul]
  omega

/-- Cycles that cover a figure last at least any smaller one, and so do more cycles. -/
theorem lastsAtLeast_of_covered {K : Params} {ns least c c' : Nat} (hdivides : ClockDivides K)
    (hcovered : ns ≤ c * nsPerCycle K) (hfits : least ≤ ns) (hc : c ≤ c') :
    lastsAtLeast K c' least :=
  (lastsAtLeast_iff hdivides c' least).mpr
    (hfits.trans (hcovered.trans (Nat.mul_le_mul_right _ hc)))

section

variable {K : Params} {least : Datasheet} {c : Nat} (h : TimingMet K least)
include h

theorem lastsAtLeast_tRas (hc : cRas K + 1 ≤ c) : lastsAtLeast K c least.tRas := by
  obtain ⟨⟨hfits, -⟩, hdivides⟩ := h
  exact lastsAtLeast_of_covered hdivides (le_cycles_succ_mul K K.ds.tRas) hfits hc

theorem lastsAtLeast_tRas_of_cycle (hc : cRcd K + cCas K + cRest K + 1 ≤ c) :
    lastsAtLeast K c least.tRas := by
  obtain ⟨⟨hfits, -⟩, hdivides⟩ := h
  exact lastsAtLeast_of_covered hdivides (tRas_le_cycleWaits_mul K) hfits hc

theorem lastsAtLeast_tRp (hc : cRp K + 1 ≤ c) : lastsAtLeast K c least.tRp := by
  obtain ⟨⟨-, -, -, hfits, -⟩, hdivides⟩ := h
  exact lastsAtLeast_of_covered hdivides (le_cycles_succ_mul K K.ds.tRp) hfits hc

theorem lastsAtLeast_tRcd (hc : cRcd K + 1 ≤ c) : lastsAtLeast K c least.tRcd := by
  obtain ⟨⟨-, -, hfits, -, -⟩, hdivides⟩ := h
  exact lastsAtLeast_of_covered hdivides (le_cycles_succ_mul K K.ds.tRcd) hfits hc

theorem lastsAtLeast_tCas (hc : cCas K + 1 ≤ c) : lastsAtLeast K c least.tCas := by
  obtain ⟨⟨-, hfits, -, -, -⟩, hdivides⟩ := h
  exact lastsAtLeast_of_covered hdivides (le_cycles_succ_mul K K.ds.tCas) hfits hc

theorem lastsAtLeast_tCp (hc : cCp K + 1 ≤ c) : lastsAtLeast K c least.tCp := by
  obtain ⟨⟨-, -, -, -, hfits⟩, hdivides⟩ := h
  exact lastsAtLeast_of_covered hdivides (le_cycles_succ_mul K K.ds.tCp) hfits hc

end

/-- The profile fits a chip that needs exactly the datasheet constants (R305). -/
theorem timingMet_datasheet_iff (K : Params) : TimingMet K K.ds ↔ ClockDivides K :=
  and_iff_right ⟨le_rfl, le_rfl, le_rfl, le_rfl, le_rfl⟩

/-! ### What an event lasts, and where an interval begins and ends -/

theorem leastCycles_eq (l : List Event) : leastCycles l = waitCycles l + otherEvents l :=
  List.sum_map_add

@[simp] theorem Event.leastCycles_wait (c : Nat) : (Event.wait c).leastCycles = c := rfl

@[simp] theorem Event.leastCycles_pin (sig : Signal) (v : Bit) : (Event.pin sig v).leastCycles = 1 :=
  rfl

@[simp] theorem Event.leastCycles_addrToggle (m : Word) : (Event.addrToggle m).leastCycles = 1 := rfl

@[simp] theorem Event.leastCycles_sample (b : Bit) : (Event.sample b).leastCycles = 1 := rfl

@[simp] theorem Event.lowers_iff (sig : Signal) (e : Event) : e.lowers sig ↔ e = .pin sig false :=
  beq_iff_eq

@[simp] theorem Event.raises_iff (sig : Signal) (e : Event) : e.raises sig ↔ e = .pin sig true :=
  beq_iff_eq

@[simp] theorem Event.drives_iff (sig : Signal) (e : Event) : e.drives sig ↔ ∃ v, e = .pin sig v := by
  simp [Event.drives]

@[simp] theorem Event.strobes_iff (e : Event) :
    e.strobes ↔ e = .pin .rasN false ∨ e = .pin .casN false := by
  simp [Event.strobes]

@[simp] theorem Event.toggles_iff (e : Event) : e.toggles ↔ ∃ m, e = .addrToggle m := by
  cases e <;> simp [Event.toggles]

@[simp] theorem Event.samples_iff (e : Event) : e.samples ↔ ∃ b, e = .sample b := by
  cases e <;> simp [Event.samples, Event.sampled?]

/-! ### The intervals of one operation -/

section

variable (K : Params) (lda : Word) (row col : Line) (b v : Bit)

/-- A pulse is low for its wait and the event that lowers the strobe. -/
theorem intervals_pulse_low (l : List Event) :
    intervals (Event.lowers .rasN) (Event.raises .rasN) (pulseEvents K ++ l) =
      (cRas K + 1) :: intervals (Event.lowers .rasN) (Event.raises .rasN) l := by
  simp +arith [pulseEvents, intervals, cyclesUntil]

/-- Between two pulses the strobe is high for the wait and the event that raised it. -/
theorem intervals_pulse_high (l : List Event) :
    intervals (Event.raises .rasN) (Event.lowers .rasN) (pulseEvents K ++ (pulseEvents K ++ l)) =
      (cRp K + 1) :: intervals (Event.raises .rasN) (Event.lowers .rasN) (pulseEvents K ++ l) := by
  simp +arith [pulseEvents, intervals, cyclesUntil]

theorem intervals_pulses_low (n : Nat) :
    intervals (Event.lowers .rasN) (Event.raises .rasN) (List.replicate n (pulseEvents K)).flatten =
      List.replicate n (cRas K + 1) := by
  induction n with
  | zero => rfl
  | succ n ih =>
    simp only [List.replicate_succ, List.flatten_cons]
    rw [intervals_pulse_low, ih]

/-- Nothing ends the gap after the last pulse. -/
theorem intervals_pulses_high (n : Nat) :
    intervals (Event.raises .rasN) (Event.lowers .rasN)
      (List.replicate (n + 1) (pulseEvents K)).flatten = List.replicate n (cRp K + 1) := by
  induction n with
  | zero => simp [pulseEvents, intervals, cyclesUntil]
  | succ n ih =>
    simp only [List.replicate_succ, List.flatten_cons] at ih ⊢
    rw [intervals_pulse_high, ih]

/-- The events of `INIT` (R201). -/
def initEvents : List Event :=
  [.pin .weN true, .pin .casN true, .pin .rasN true, .pin .din false]
    ++ (List.replicate 8 (pulseEvents K)).flatten

theorem intervals_initEvents :
    intervals (Event.lowers .rasN) (Event.raises .rasN) (initEvents K) =
      List.replicate 8 (cRas K + 1) ∧
    intervals (Event.raises .rasN) (Event.lowers .rasN) (initEvents K) =
      2 :: List.replicate 7 (cRp K + 1) := by
  rw [← intervals_pulses_low, ← intervals_pulses_high]
  constructor
  · simp [initEvents, intervals]
  · simp [initEvents, List.replicate_succ (n := 7), pulseEvents, intervals, cyclesUntil]

theorem intervals_writeBitEvents :
    intervals (Event.lowers .rasN) (Event.raises .rasN) (writeBitEvents K lda row col b) =
      [cRcd K + cAs K + cCas K + cRest K + 4] ∧
    intervals (Event.lowers .rasN) (Event.lowers .casN) (writeBitEvents K lda row col b) =
      [cRcd K + cAs K + 2] ∧
    intervals (Event.lowers .casN) (Event.raises .casN) (writeBitEvents K lda row col b) =
      [cCas K + 1] ∧
    intervals Event.toggles Event.strobes (writeBitEvents K lda row col b) =
      [cAs K + 1, cAs K + 1] := by
  refine ⟨?_, ?_, ?_, ?_⟩ <;> simp +arith [writeBitEvents, intervals, cyclesUntil]

theorem intervals_readBitEvents :
    intervals (Event.lowers .rasN) (Event.raises .rasN) (readBitEvents K lda row col v) =
      [cRcd K + cAs K + cCas K + cXs K + cRest K + 5] ∧
    intervals (Event.lowers .rasN) (Event.lowers .casN) (readBitEvents K lda row col v) =
      [cRcd K + cAs K + 2] ∧
    intervals (Event.lowers .casN) (Event.raises .casN) (readBitEvents K lda row col v) =
      [cCas K + cXs K + 2] ∧
    intervals (Event.lowers .casN) Event.samples (readBitEvents K lda row col v) =
      [cCas K + cXs K + 1] ∧
    intervals (Event.lowers .rasN) Event.samples (readBitEvents K lda row col v) =
      [cRcd K + cAs K + cCas K + cXs K + 3] := by
  refine ⟨?_, ?_, ?_, ?_, ?_⟩ <;> simp +arith [readBitEvents, intervals, cyclesUntil]

theorem intervals_pageWriteEvents :
    intervals (Event.lowers .weN) (Event.lowers .casN) (pageWriteEvents K lda col b) =
      [cAs K + 3] ∧
    intervals (Event.drives .din) (Event.lowers .casN) (pageWriteEvents K lda col b) =
      [cAs K + 2] := by
  constructor <;> simp +arith [pageWriteEvents, intervals, cyclesUntil]

end

/-! ### The intervals across two operations -/

section

variable (K : Params) (lda lda' : Word) (row c d : Line) (b e v w : Bit)

/-- The events of `strobeColumn(col)` after an address `lda` (`42_protocol_sequencer.md` R175). -/
def strobeColumnEvents : List Event :=
  [.addrToggle (lineAddress c ^^^ lda), .wait (cAs K), .pin .casN false, .wait (cCas K),
    .pin .casN true]

theorem intervals_openRow_strobeColumn :
    intervals (Event.lowers .rasN) (Event.lowers .casN)
      (openRowEvents K lda row ++ strobeColumnEvents K lda' c) = [cRcd K + cAs K + 2] := by
  simp +arith [openRowEvents, strobeColumnEvents, intervals, cyclesUntil]

theorem intervals_closeRow_openRow :
    intervals (Event.raises .rasN) (Event.lowers .rasN)
      (closeRowEvents K ++ openRowEvents K lda row) = [cRp K + cAs K + 2] := by
  simp +arith [closeRowEvents, openRowEvents, intervals, cyclesUntil]

theorem intervals_pageRead_pageRead :
    intervals (Event.raises .casN) (Event.lowers .casN)
      (pageReadEvents K lda c v ++ pageReadEvents K lda' d w) = [cCp K + cAs K + 2] := by
  simp +arith [pageReadEvents, intervals, cyclesUntil]

theorem intervals_pageWrite_pageRead :
    intervals (Event.raises .casN) (Event.lowers .casN)
      (pageWriteEvents K lda c b ++ pageReadEvents K lda' d w) = [cCp K + cAs K + 3] := by
  simp +arith [pageWriteEvents, pageReadEvents, intervals, cyclesUntil]

theorem intervals_pageRead_pageWrite :
    intervals (Event.raises .casN) (Event.lowers .casN)
      (pageReadEvents K lda c v ++ pageWriteEvents K lda' d e) = [cCp K + cAs K + 4] := by
  simp +arith [pageReadEvents, pageWriteEvents, intervals, cyclesUntil]

theorem intervals_pageWrite_pageWrite :
    intervals (Event.raises .casN) (Event.lowers .casN)
      (pageWriteEvents K lda c b ++ pageWriteEvents K lda' d e) = [cCp K + cAs K + 5] := by
  simp +arith [pageWriteEvents, intervals, cyclesUntil]

/-- No wait follows the strobe of `STROBE_COL` (R306). -/
theorem intervals_strobeColumn_pageRead :
    intervals (Event.raises .casN) (Event.lowers .casN)
      (strobeColumnEvents K lda c ++ pageReadEvents K lda' d w) = [cAs K + 2] := by
  simp +arith [strobeColumnEvents, pageReadEvents, intervals, cyclesUntil]

end

/-! ### What the operations emit -/

theorem emits_of_trace {i : Instr} {s t : State} {new : List Event} {P : List Event → Prop}
    (h : exec i s = .next t) (htrace : t.trace = new.reverse ++ s.trace) (hP : P new) :
    Emits i s P :=
  ⟨t, new, h, events_append_of_trace htrace, hP⟩

theorem emitBoth_of_trace {i j : Instr} {s t u : State} {new more : List Event}
    {P : List Event → Prop} (h : exec i s = .next t) (h' : exec j t = .next u)
    (htrace : t.trace = new.reverse ++ s.trace) (htrace' : u.trace = more.reverse ++ t.trace)
    (hP : P (new ++ more)) : EmitBoth i j s P :=
  ⟨t, u, new ++ more, h, h', by
    rw [events_append_of_trace htrace', events_append_of_trace htrace, List.append_assoc], hP⟩

/-- A row latched exactly where a device is present. -/
theorem isSome_latchedRow (present : Bool) (r : Line) :
    (if present then some r else none).isSome = present := by
  cases present <;> rfl

/-- Settles O60: a wait and one event cover each figure; the intervals are read off the events of the
operations' next states. -/
theorem pulsesCoverTheDatasheet : Obligations.PulsesCoverTheDatasheet := by
  refine ⟨?_, timingMet_datasheet_iff, fun s h => ?_, fun row col b s h hready => ⟨?_, ?_, ?_⟩,
    fun row c d b e s h hready => ⟨?_, ?_, ?_, ?_, ?_, ?_, ?_⟩, leastCycles_eq⟩
  · intro K least h
    exact ⟨lastsAtLeast_tRas h (by omega), lastsAtLeast_tRas_of_cycle h (by omega),
      lastsAtLeast_tRas_of_cycle h (by omega), lastsAtLeast_tRp h (by omega),
      lastsAtLeast_tRp h (by omega), lastsAtLeast_tRcd h (by omega), lastsAtLeast_tCas h (by omega),
      lastsAtLeast_tCas h (by omega), lastsAtLeast_tCp h (by omega), lastsAtLeast_tCp h (by omega),
      lastsAtLeast_tCp h (by omega), lastsAtLeast_tCp h (by omega)⟩
  · exact emits_of_trace (initAlwaysCompletes s h) rfl (intervals_initEvents _)
  · exact emits_of_trace (writeBitEarlyWritesTheCell.1 row col b s h hready) rfl
      (intervals_writeBitEvents ..)
  · exact emits_of_trace (readBitSamplesTheCell.1 row col s h hready) rfl
      (intervals_readBitEvents ..)
  · have ⟨⟨hfault, hinited, _⟩, _, hcas, hwe, _, hdrive⟩ := hready
    exact emitBoth_of_trace (openRowOpensTheRow row s h hready)
      (strobeColChangesNoCell col _ h
        ⟨⟨hfault, hinited, rfl⟩, rfl, hcas, hwe, isSome_latchedRow _ _, hdrive⟩) rfl rfl
      (intervals_openRow_strobeColumn ..)
  · have ⟨⟨hfault, hinited, _⟩, _, hcas, hwe, _, hdrive⟩ := hready
    exact emitBoth_of_trace (closeRowReleasesTheRow s h hready)
      (openRowOpensTheRow row _ h ⟨⟨hfault, hinited, rfl⟩, rfl, hcas, hwe, rfl, hdrive⟩) rfl rfl
      (intervals_closeRow_openRow ..)
  · exact emitBoth_of_trace (pageReadSamplesTheCell.1 c s h hready)
      (pageReadSamplesTheCell.1 d _ h hready) rfl rfl (intervals_pageRead_pageRead ..)
  · exact emitBoth_of_trace (pageWriteWritesTheCell.1 c b s h hready)
      (pageReadSamplesTheCell.1 d _ h hready) rfl rfl (intervals_pageWrite_pageRead ..)
  · exact emitBoth_of_trace (pageReadSamplesTheCell.1 c s h hready)
      (pageWriteWritesTheCell.1 d e _ h hready) rfl rfl (intervals_pageRead_pageWrite ..)
  · exact emitBoth_of_trace (pageWriteWritesTheCell.1 c b s h hready)
      (pageWriteWritesTheCell.1 d e _ h hready) rfl rfl (intervals_pageWrite_pageWrite ..)
  · exact emitBoth_of_trace (strobeColChangesNoCell c s h hready)
      (pageReadSamplesTheCell.1 d _ h hready) rfl rfl (intervals_strobeColumn_pageRead ..)
  · exact emits_of_trace (pageWriteWritesTheCell.1 c b s h hready) rfl
      (intervals_pageWriteEvents ..)

end Sys2Proof.Machine
end
